-- ==== Sys2Proof/Word.lean ====
section
/-! DEFINITION. The word types of the STEGO-LSB codec: the 32-bit register word (00_scope.md R7, REG_W) and the
8-bit channel value and memory byte (R6, CHANNEL_W; 20_memory.md R60). -/

namespace Sys2Proof

/-- A register word and a bus address: `REG_W = ADDR_W = 32` (00_scope.md R7). -/
abbrev Word := BitVec 32

/-- A channel value, a payload byte or a byte of system memory: 8 bits (00_scope.md R6). -/
abbrev Byte := BitVec 8

end Sys2Proof
end

