-- ==== Sys2Proof/Config.lean ====
section
/-! DEFINITION. What is fixed for the hardware: the parameters of 00_scope.md R6, R7 and R12, the outcome codes of
60_exceptions.md R200, the OPEN platform parameters (R7; 92_eei_decisions.md), and the free values. -/

namespace Sys2Proof

/-- The ten outcome codes of 60_exceptions.md R200, in its order. Codes 10 to 15 are reserved and never produced, so
they are no value of this type. -/
inductive Code where
  | ok
  | insufficientCapacity
  | invalidBitDepth
  | unsupportedInputType
  | sentinelNotFound
  | illegalCommand
  | outputTooSmall
  | addressRange
  | bufferOverlap
  | busError
deriving DecidableEq, Repr, Inhabited

namespace Config

/-- `CHANNELS` of 00_scope.md R6. -/
def channels : Nat := 3

/-- `NBITS_MIN` of 00_scope.md R6. -/
def nbitsMin : Nat := 1

/-- `NBITS_MAX` of 00_scope.md R6. -/
def nbitsMax : Nat := 8

/-- `SENT_LEN` of 00_scope.md R6. -/
def sentLen : Nat := 5

/-- `SENT_BYTE`, the ASCII code of `=` (00_scope.md R12). -/
def sentByte : Byte := 0x3D

/-- `2^ADDR_W`, the size of the memory port's address space (20_memory.md R60). -/
def addrSpace : Nat := 0x100000000

/-- `REG_WINDOW`, the size in bytes of the register window (00_scope.md R7). -/
def regWindow : Nat := 0x100

/-- The constant of the ID register (10_state.md R24). -/
def idValue : Word := 0x53544701

/-- The OPEN parameters of 00_scope.md R7 and 92_eei_decisions.md, which a model takes as an argument, the places of
system memory that are no ordinary memory (20_memory.md R68), and the size of the host's cache lines (R80). A state
carries them as plain data (log entry 9); no step writes them. -/
structure Platform where
  /-- `REG_BASE`: bus address of register offset 0 (D3). -/
  regBase : Word
  /-- `BUS_ERROR_POSSIBLE`: whether the memory may answer a request with ERROR (D17). -/
  busErrorPossible : Bool
  /-- `HOST_COHERENT`: whether the host's caches are coherent with the memory port (D25). -/
  hostCoherent : Bool
  /-- Base and length of each range of system memory that is not ordinary memory (20_memory.md R68;
  93_implementation_defined.md U8). -/
  devices : List (Nat × Nat)
  /-- The base-2 logarithm of the size in bytes of a line of the host's caches. 20_memory.md R80 speaks of lines and
  gives no size. -/
  cacheLineLog : Nat
deriving DecidableEq, Repr

/-- FREE VALUE: the byte that the `d`-th draw gives where the spec admits any byte (20_memory.md R75 and R68;
93_implementation_defined.md U7, U8). Log entry 7. -/
opaque freeByte : Nat → Byte

/-- FREE VALUE: the capacity that the completion of a command whose results are not fixed writes (20_memory.md R75);
34 bits, the width CAP has (00_scope.md R7). Log entry 7. -/
opaque freeCap : Nat → BitVec 34

/-- FREE VALUE: the MSG_LEN that such a completion writes (20_memory.md R75). Log entry 7. -/
opaque freeLen : Nat → Word

/-- FREE VALUE: the outcome code that such a completion writes (20_memory.md R75), one of the ten of R200. Log
entry 7. -/
opaque freeCode : Nat → Code

end Config

end Sys2Proof
end

