-- ==== Sys2Proof/Syntax.lean ====
section
/-! DEFINITION. The syntax: the commands of spec/opcode_table.json (30_encoding.md R91, R98), the names of the
registers (10_state.md R23), and the host's operations (30_encoding.md R100). -/

namespace Sys2Proof

/-- The payload kind, KIND (30_encoding.md R93), by the names of R99. `k2` and `k3` name no variant. -/
inductive Kind where
  | raw
  | text
  | k2
  | k3
deriving DecidableEq, Repr

/-- A command, one constructor per row of spec/opcode_table.json. `nbits` is the NBITS operand, used unscaled
(30_encoding.md R92); a value that makes the command complete with code 2 or 3 is still that command (R98). -/
inductive Instr where
  | capacity (nbits : Nat)
  | check (nbits : Nat) (kind : Kind)
  | encode (nbits : Nat) (kind : Kind)
  | decode (nbits : Nat) (kind : Kind)
deriving DecidableEq, Repr

/-- The NBITS operand of a command. -/
def Instr.nbits : Instr → Nat
  | .capacity n => n
  | .check n _ => n
  | .encode n _ => n
  | .decode n _ => n

/-- The KIND operand of a command that has one; CAPACITY has none (30_encoding.md R95). -/
def Instr.kind? : Instr → Option Kind
  | .capacity _ => none
  | .check _ k => some k
  | .encode _ k => some k
  | .decode _ k => some k

/-- The registers of the window, 10_state.md R23. -/
inductive Reg where
  | id | ctrl | status | cmd | imgBase | rows | cols | payBase | payLen | outBase | outSize | capLo | capHi | msgLen
deriving DecidableEq, Repr

/-- The width of a register-port transaction (10_state.md R44). -/
inductive Width where
  | byte | half | word
deriving DecidableEq, Repr

/-- The host's scratch variables (30_encoding.md R100). -/
inductive HVar where
  | h0 | h1 | h2 | h3
deriving DecidableEq, Repr

/-- The value operand of `WR REG, v`: an immediate or a variable (30_encoding.md R100). -/
inductive HArg where
  | imm (v : Word)
  | var (h : HVar)
deriving DecidableEq, Repr

/-- The host's primitive operations and the labels of its programs (30_encoding.md R100). A label is a number in place
of a name. -/
inductive HostOp where
  | wr (r : Reg) (v : HArg)
  | rd (r : Reg) (h : HVar)
  | memw (addr : Word) (bytes : List Byte)
  | memr (addr : Word) (count : Nat)
  | set (h : HVar) (imm : Word)
  | add (h : HVar) (imm : Word)
  | and (h : HVar) (imm : Word)
  | beq (h : HVar) (imm : Word) (target : Nat)
  | bne (h : HVar) (imm : Word) (target : Nat)
  | label (l : Nat)
  | halt
deriving DecidableEq, Repr

end Sys2Proof
end

