-- ==== Sys2Proof/WellFormed.lean ====
section
/-! DEFINITION. Which commands the command format can write (30_encoding.md R90, R99): NBITS is a 4-bit field. A
well-formed command need not be a legal one: NBITS 0 and 9 to 15 and KIND `k2` and `k3` are encodable and complete
with code 2 or 3 (R98). -/

namespace Sys2Proof

/-- The 4-bit field NBITS holds 0 to 15 (30_encoding.md R92, R99). -/
def nbitsEncodable (n : Nat) : Bool := decide (n < 16)

/-- A command that the format C of 30_encoding.md R90 can encode. -/
def Instr.wellFormed : Instr → Bool
  | .capacity n => nbitsEncodable n
  | .check n _ => nbitsEncodable n
  | .encode n _ => nbitsEncodable n
  | .decode n _ => nbitsEncodable n

end Sys2Proof
end

