-- ==== Sys2Proof/Decode.lean ====
section
/-! DEFINITION. The decoder and the encoder of command words (30_encoding.md R90 to R99). Every command is exactly one
32-bit word (R96), so the decoder reads a word and is total on words. -/

namespace Sys2Proof

/-- Why a word is no command: the three tests of 30_encoding.md R95 that raise IllegalCommand, in its order. -/
inductive DecodeReject where
  /-- `w[3:0]` is not 1, 2, 3 or 4 (R97). -/
  | reservedOp
  /-- RSV, `w[31:10]`, is not 0 (R97). -/
  | reservedBits
  /-- CAPACITY with KIND not 0 (R95). -/
  | capacityKind
deriving DecidableEq, Repr

/-- OP, `w[3:0]` (30_encoding.md R90). -/
def opField (w : Word) : BitVec 4 := w.extractLsb' 0 4

/-- NBITS, `w[7:4]` (30_encoding.md R90, R92). -/
def nbitsField (w : Word) : BitVec 4 := w.extractLsb' 4 4

/-- KIND, `w[9:8]` (30_encoding.md R90). -/
def kindField (w : Word) : BitVec 2 := w.extractLsb' 8 2

/-- RSV, `w[31:10]` (30_encoding.md R90). -/
def rsvField (w : Word) : BitVec 22 := w.extractLsb' 10 22

/-- The value of KIND (30_encoding.md R93, R99). -/
def Kind.bits : Kind → BitVec 2
  | .raw => 0
  | .text => 1
  | .k2 => 2
  | .k3 => 3

/-- The kind a KIND field names (30_encoding.md R93, R99). -/
def Kind.ofBits (b : BitVec 2) : Kind :=
  if b = 0 then .raw else if b = 1 then .text else if b = 2 then .k2 else .k3

/-- The command a word names, or why it is illegal: the first three tests of 30_encoding.md R95 in its order, then
the opcode map of R91. -/
def decode (w : Word) : Except DecodeReject Instr :=
  let op := opField w
  let n := (nbitsField w).toNat
  let k := Kind.ofBits (kindField w)
  if ¬ (op = 1 ∨ op = 2 ∨ op = 3 ∨ op = 4) then .error .reservedOp
  else if rsvField w ≠ 0 then .error .reservedBits
  else if op = 1 then
    if kindField w ≠ 0 then .error .capacityKind else .ok (.capacity n)
  else if op = 2 then .ok (.check n k)
  else if op = 3 then .ok (.encode n k)
  else .ok (.decode n k)

/-- The word with the given OP, NBITS and KIND and with RSV 0 (the layout of 30_encoding.md R90). -/
def formatC (op : BitVec 4) (n : Nat) (k : BitVec 2) : Word :=
  (0#22) ++ k ++ BitVec.ofNat 4 n ++ op

/-- The command word of a well-formed command (30_encoding.md R90, R91, R93). -/
def encode : Instr → Word
  | .capacity n => formatC 1 n 0
  | .check n k => formatC 2 n k.bits
  | .encode n k => formatC 3 n k.bits
  | .decode n k => formatC 4 n k.bits

/-- The written form of a kind (30_encoding.md R99). -/
def Kind.asm : Kind → String
  | .raw => "raw"
  | .text => "text"
  | .k2 => "k2"
  | .k3 => "k3"

/-- The command syntax of 30_encoding.md R99: `MNEMONIC n` or `MNEMONIC n, kind`. -/
def Instr.asm : Instr → String
  | .capacity n => "CAPACITY " ++ toString n
  | .check n k => "CHECK " ++ toString n ++ ", " ++ k.asm
  | .encode n k => "ENCODE " ++ toString n ++ ", " ++ k.asm
  | .decode n k => "DECODE " ++ toString n ++ ", " ++ k.asm

/-- The command the decoder reads from the table's bits `w` of a row of `nbits` bits; a command is one word, whose bit
`i` the register port carries as bit `i` (20_memory.md R66). -/
def decodeTableWord (nbits w : Nat) : Option Instr :=
  (decode (BitVec.ofNat 32 (w % 2 ^ nbits))).toOption

end Sys2Proof
end

