-- ==== Sys2Proof/Machine/State.lean ====
section
/-! DEFINITION. The state of the machine (10_state.md), its two agents and the inputs from outside as plain data, the
reasons a step can stop, and the state after reset (10_state.md R52; 70_reset_and_hazards.md R240). -/

namespace Sys2Proof.Machine

/-- System memory (20_memory.md R60): pairs of address and byte in the canonical form of `Memory.wf`. -/
abbrev Memory := List Host.Cell

/-- The seven parameter registers (10_state.md R32 to R38). -/
structure Params where
  imgBase : Word
  rows : BitVec 16
  cols : BitVec 16
  payBase : Word
  payLen : Word
  outBase : Word
  outSize : Word
deriving DecidableEq, Repr

/-- What the engine does at its next step: the engine's place inside a visit, and with `finish` the outcome code under
construction (10_state.md R49, R41). -/
inductive Pending where
  /-- The command was accepted; its checks and its first memory request come next. -/
  | start
  /-- The read of a payload byte (41_packer.md R132 step 1). -/
  | payload
  /-- The read of a channel value (41_packer.md R132 step 2; 42_unpacker.md R151). -/
  | read
  /-- The write of a channel value (41_packer.md R132 step 3) or of an output byte (42_unpacker.md R151). -/
  | write
  /-- The completion step with this outcome (60_exceptions.md R205). -/
  | finish (c : Code)
deriving DecidableEq, Repr

/-- The scan state of 10_state.md R49. -/
structure Scan where
  next : Pending
  /-- The bit cursor `k`. -/
  k : Nat
  /-- The current payload byte `PB`. -/
  pb : Byte
  /-- The channel value read in this visit, `v` of 41_packer.md R131. -/
  v : Byte
  /-- The decode accumulator `ACC`. -/
  acc : Byte
  /-- The count of consecutive sentinel bytes written (43_bit_helpers.md R175). -/
  streak : Nat
  /-- The index of the first sentinel found so far (43_bit_helpers.md R175). -/
  found : Option Nat
  /-- The model's own: a host raced the command, or a buffer is no ordinary memory, so the spec does not fix the bytes
  the command reads and writes and its results (20_memory.md R75, R68; log entries 6 and 15). -/
  unfixed : Bool
deriving DecidableEq, Repr

/-- The scan state right after acceptance. -/
def Scan.fresh : Scan :=
  { next := .start, k := 0, pb := 0, v := 0, acc := 0, streak := 0, found := none, unfixed := false }

/-- A running command: the latched word, the parameter snapshot (10_state.md R48, R40) and the scan state. -/
structure Job where
  word : Word
  params : Params
  scan : Scan
deriving DecidableEq, Repr

/-- The engine phase (10_state.md R48); STATUS.BUSY is 1 exactly in `run`. -/
inductive Engine where
  | idle
  | run (job : Job)
deriving DecidableEq, Repr

/-- The memory's answer to one request (20_memory.md R70). A failing write may or may not have landed. -/
inductive BusAnswer where
  | okay
  | error (landed : Bool)
deriving DecidableEq, Repr

/-- What the last access of the host, or of another master, got back: a register-port answer (10_state.md R21, R44) or
the bytes of a memory read (30_encoding.md R100). `error` is the host fault of R44, and the answer to a memory access
past the address space (log entry 11). -/
inductive Reply where
  | none
  | okay
  | error
  | data (w : Word)
  | bytes (l : List Byte)
deriving DecidableEq, Repr

/-- The host agent (10_state.md R20) with its program and scratch variables (30_encoding.md R100). `pc` is the index of
its next operation. -/
structure HostAgent where
  prog : List HostOp
  pc : Nat
  halted : Bool
  h0 : Word
  h1 : Word
  h2 : Word
  h3 : Word
deriving DecidableEq, Repr

/-- What happens next, as the outside decides it: which agent steps (10_state.md R20) and with which answer of the
memory (20_memory.md R70), an access by any bus master (60_exceptions.md R220, R223), host cache maintenance
(20_memory.md R80), or the reset input (70_reset_and_hazards.md R240). -/
inductive Event where
  /-- The engine steps; the memory gives its request this answer. -/
  | engine (answer : BusAnswer)
  /-- The host executes its next operation. -/
  | host
  /-- A register-window transaction at a bus address: a write of `data`, or a read where it is `none`. -/
  | access (addr : Word) (width : Width) (data : Option Word)
  /-- Another bus master than the host reads bytes of system memory (60_exceptions.md R223; log entry 17). -/
  | memRead (addr : Word) (count : Nat)
  /-- Another bus master than the host writes bytes of system memory (60_exceptions.md R223; log entry 17). -/
  | memWrite (addr : Word) (bytes : List Byte)
  /-- The host's caches write back the dirty lines that meet a range (20_memory.md R80). -/
  | cacheClean (addr : Word) (count : Nat)
  /-- The host invalidates its cached copies in the lines that meet a range (20_memory.md R80). -/
  | cacheInvalidate (addr : Word) (count : Nat)
  /-- The reset input; a write request issued but not answered has landed or has not (70_reset_and_hazards.md R241). -/
  | reset (landed : Bool)
deriving DecidableEq, Repr

/-- Why the machine stops. -/
inductive Fault where
  /-- Raised by a memory request of the engine at an address outside `[0, 2^ADDR_W)`, which does not exist (20_memory.md
  R60), in states that no run reaches (R69). Safe. -/
  | noSuchAddress
deriving DecidableEq, Repr

/-- Why an instruction has no meaning. -/
inductive Refusal where
  /-- Raised by an arm of `exec` whose instruction is not modelled yet; no arm is such. Safe. -/
  | notModelled (mnemonic : String)
deriving DecidableEq, Repr

/-- The state of the machine. -/
structure State where
  /-- CTRL.IE (10_state.md R25). -/
  ie : Bool
  /-- STATUS.DONE (10_state.md R28). -/
  done : Bool
  /-- STATUS.ERRCODE (10_state.md R29). -/
  errcode : Code
  /-- STATUS.OVR (10_state.md R30). -/
  ovr : Bool
  /-- CMD, the last accepted word (10_state.md R31). -/
  cmd : Word
  /-- The parameter registers (10_state.md R32 to R38). -/
  params : Params
  /-- CAP, held in CAP_LO and CAP_HI (10_state.md R39; 00_scope.md R7). -/
  cap : BitVec 34
  /-- MSG_LEN (10_state.md R42). -/
  msgLen : Word
  /-- The engine phase, and in `run` the running command (10_state.md R48, R49). -/
  engine : Engine
  /-- System memory (20_memory.md R60). -/
  mem : Memory
  /-- The host agent (10_state.md R20; 30_encoding.md R100). -/
  host : HostAgent
  /-- The answer to the last access from outside (10_state.md R21, R44). -/
  reply : Reply
  /-- The addresses the host has written in its cache and not written back (20_memory.md R80, without
  HOST_COHERENT). -/
  dirty : List Nat
  /-- The addresses of which memory may hold a newer byte than the host's cached copy (20_memory.md R80, without
  HOST_COHERENT). -/
  stale : List Nat
  /-- The addresses of which the host must invalidate its cached copy before it reads them: the buffers of commands
  that have ended since its last invalidation (20_memory.md R80, without HOST_COHERENT). -/
  unsynced : List Nat
  /-- The OPEN parameters of the platform (00_scope.md R7). -/
  platform : Config.Platform
  /-- The model's own: what happens next, in order (log entry 2). -/
  schedule : List Event
  /-- The model's own: the memory's answer to the engine's next request (20_memory.md R70). -/
  memAnswer : BusAnswer
  /-- The model's own: the number of the next free value. -/
  draws : Nat
deriving DecidableEq, Repr

/-- Every parameter register is 0 after reset (10_state.md R23). -/
def Params.reset : Params :=
  { imgBase := 0, rows := 0, cols := 0, payBase := 0, payLen := 0, outBase := 0, outSize := 0 }

/-- The host agent before a program is placed: no program, every variable 0 (log entry 10). -/
def HostAgent.reset : HostAgent :=
  { prog := [], pc := 0, halted := false, h0 := 0, h1 := 0, h2 := 0, h3 := 0 }

/-- The platform that `State.reset` names (log entry 9): no statement rests on it. -/
def platformReset : Config.Platform :=
  { regBase := 0, busErrorPossible := false, hostCoherent := true, devices := [], cacheLineLog := 0 }

/-- The state after reset (10_state.md R52; 70_reset_and_hazards.md R240). -/
def State.reset : State :=
  { ie := false, done := false, errcode := .ok, ovr := false, cmd := 0, params := Params.reset, cap := 0, msgLen := 0,
    engine := .idle, mem := [], host := HostAgent.reset, reply := .none, dirty := [], stale := [],
    unsynced := [], platform := platformReset, schedule := [], memAnswer := .okay, draws := 0 }

end Sys2Proof.Machine
end

