-- ==== Sys2Proof/Machine/Flags.lean ====
section
/-! DEFINITION. The fields of STATUS and the irq line (10_state.md R26 to R30, R47; 60_exceptions.md R200, R210). -/

namespace Sys2Proof.Machine

/-- The number of an outcome code (60_exceptions.md R200). -/
def Code.bits : Code → BitVec 4
  | .ok => 0
  | .insufficientCapacity => 1
  | .invalidBitDepth => 2
  | .unsupportedInputType => 3
  | .sentinelNotFound => 4
  | .illegalCommand => 5
  | .outputTooSmall => 6
  | .addressRange => 7
  | .bufferOverlap => 8
  | .busError => 9

/-- STATUS.BUSY: the engine is in `run` (10_state.md R48). -/
def State.busy (s : State) : Bool :=
  match s.engine with
  | .idle => false
  | .run _ => true

/-- STATUS.ERR: ERRCODE is not 0; not separately stored (10_state.md R29). -/
def State.err (s : State) : Bool := s.errcode != .ok

/-- One flag as a bit of a register word. -/
def flagBit (b : Bool) (pos : Nat) : Word := (BitVec.ofBool b).setWidth 32 <<< pos

/-- The word a read of STATUS gives (10_state.md R26). -/
def State.statusWord (s : State) : Word :=
  flagBit s.busy 0 ||| flagBit s.done 1 ||| flagBit s.err 2 ||| ((Code.bits s.errcode).setWidth 32 <<< 4) |||
    flagBit s.ovr 8

/-- The effect of a host write of STATUS: DONE and OVR are cleared where the written bit is 1, nothing else changes
(10_state.md R26, R28, R30, R45). This is the host's acknowledgement of a completion (60_exceptions.md R207). -/
def State.clearFlags (w : Word) (s : State) : State :=
  { s with done := s.done && !w.getLsbD 1, ovr := s.ovr && !w.getLsbD 8 }

/-- The effect of a host write of CTRL: bit 0 is IE, the other bits are reserved (10_state.md R25). -/
def State.setCtrl (w : Word) (s : State) : State := { s with ie := w.getLsbD 0 }

/-- A write is dropped because the engine is busy (10_state.md R46). -/
def State.dropWrite (s : State) : State := { s with ovr := true }

/-- The level of the irq output (10_state.md R47; 60_exceptions.md R210). -/
def State.irq (s : State) : Bool := s.done && s.ie

end Sys2Proof.Machine
end

