-- ==== Sys2Proof/Machine/Bits.lean ====
section
/-! DEFINITION. The shared bit-string helpers and the scan order of 43_bit_helpers.md, as pure functions. -/

namespace Sys2Proof.Machine

/-- `BitsOf(b)`: the eight bits of a byte, bit 7 first (43_bit_helpers.md R170). -/
def bitsOf (b : Byte) : List Bool := (List.range 8).map fun t => b.getLsbD (7 - t)

/-- One step of parsing a bit string as a base-2 integer, and of the engine's `ACC` (42_unpacker.md R150):
`((acc << 1) + bit) mod 256`. -/
def shiftIn (acc : Byte) (bit : Bool) : Byte := (acc <<< 1) + (BitVec.ofBool bit).setWidth 8

/-- `ByteOf(s)`: an 8-bit string parsed as a base-2 integer, first bit most significant (43_bit_helpers.md R171). -/
def byteOf (s : List Bool) : Byte := s.foldl shiftIn 0

/-- `Plane(v, q) = v[q - 1]` (43_bit_helpers.md R174). -/
def plane (v : Byte) (q : Nat) : Bool := v.getLsbD (q - 1)

/-- `SetPlane(v, q, b)` (43_bit_helpers.md R174). -/
def setPlane (v : Byte) (q : Nat) (b : Bool) : Byte :=
  (v &&& (0xFF ^^^ ((1 : Byte) <<< (q - 1)))) ||| ((BitVec.ofBool b).setWidth 8 <<< (q - 1))

/-- The plane `q` of visit `k` in an image of `N` channel values (43_bit_helpers.md R172). -/
def visitPlane (N k : Nat) : Nat := k / N + 1

/-- The channel offset `j` of visit `k` in an image of `N` channel values (43_bit_helpers.md R172). -/
def visitOffset (N k : Nat) : Nat := k % N

/-- The row, column and channel of channel offset `j` in an image of `cols` columns (43_bit_helpers.md R172). -/
def pixelOf (cols j : Nat) : Nat × Nat × Nat :=
  (j / (Config.channels * cols), j / Config.channels % cols, j % Config.channels)

/-- The channel offset of row `r`, column `c`, channel `ch` (20_memory.md R61). -/
def channelOffset (cols r c ch : Nat) : Nat := Config.channels * (r * cols + c) + ch

/-- The sentinel `SENT` (00_scope.md R12). -/
def sentinel : List Byte := List.replicate Config.sentLen Config.sentByte

/-- Whether the byte sequence begins with the sentinel. -/
def startsWithSent (b : List Byte) : Bool := b.take Config.sentLen == sentinel

/-- `FirstSent(B)`: the least index at which the sentinel stands whole in `B` (43_bit_helpers.md R175). -/
def firstSent : List Byte → Option Nat
  | [] => none
  | b :: r => if startsWithSent (b :: r) then some 0 else (firstSent r).map (· + 1)

/-- Grouping of a bit string into the bytes of its whole 8-bit chunks; the last bits that fill no chunk form no byte
(43_bit_helpers.md R176). -/
def groupBytes (d : List Bool) : List Byte :=
  (List.range (d.length / 8)).map fun i => byteOf ((d.drop (8 * i)).take 8)

end Sys2Proof.Machine
end

