-- ==== Sys2Proof/Machine/Operands.lean ====
section
/-! DEFINITION. The operands of a command, from its word and the parameter snapshot: the derived quantities of
00_scope.md R13, the addresses of 20_memory.md R61 to R64, and the tests of 30_encoding.md R95 and 60_exceptions.md
R203 and R204. All arithmetic is exact (00_scope.md R9). -/

namespace Sys2Proof.Machine

/-- `N`, the number of channel values of the image (00_scope.md R13). -/
def Params.channelCount (p : Params) : Nat := p.rows.toNat * p.cols.toNat * Config.channels

/-- `CAP`, the capacity in bytes at bit depth `n` (00_scope.md R13; 40_planner.md R111). -/
def Params.capacity (p : Params) (n : Nat) : Nat := p.channelCount * n / 8

/-- `CAP` as the 34 bits that CAP_LO and CAP_HI hold (10_state.md R39); `CAP < 2^34` for every legal `n`. -/
def Params.capField (p : Params) (n : Nat) : BitVec 34 := BitVec.ofNat 34 (p.capacity n)

/-- `L`, the effective payload length (00_scope.md R13). -/
def Params.effLen (p : Params) : Nat := p.payLen.toNat + Config.sentLen

/-- `T`, the number of effective payload bits (00_scope.md R13). -/
def Params.totalBits (p : Params) : Nat := 8 * p.effLen

/-- The address of the channel value at offset `j` (20_memory.md R61). -/
def Params.imgAddr (p : Params) (j : Nat) : Nat := p.imgBase.toNat + j

/-- `imgaddr(r, c, ch)` of 20_memory.md R61. -/
def Params.pixelAddr (p : Params) (r c ch : Nat) : Nat := p.imgAddr (channelOffset p.cols.toNat r c ch)

/-- The address of payload byte `i` (20_memory.md R62). -/
def Params.payAddr (p : Params) (i : Nat) : Nat := p.payBase.toNat + i

/-- The address of output byte `i` (20_memory.md R64). -/
def Params.outAddr (p : Params) (i : Nat) : Nat := p.outBase.toNat + i

/-- The test `Fits` of 40_planner.md R114. -/
def Params.fits (p : Params) (n : Nat) : Bool := decide (p.effLen ≤ p.capacity n)

/-- `InRange(base, len)` (60_exceptions.md R203). -/
def inRange (base len : Nat) : Bool := decide (base + len ≤ Config.addrSpace)

/-- `Overlap(a, la, b, lb)` (60_exceptions.md R204). -/
def overlap (a la b lb : Nat) : Bool := decide (0 < la ∧ 0 < lb ∧ a < b + lb ∧ b < a + la)

/-- Whether a kind names an input variant (30_encoding.md R93). -/
def Kind.supported : Kind → Bool
  | .raw => true
  | .text => true
  | .k2 => false
  | .k3 => false

/-- The last two tests of 30_encoding.md R95, on a word that is a command; CAPACITY has no kind. -/
def prologue (n : Nat) (kind : Option Kind) : Option Code :=
  if n < Config.nbitsMin ∨ Config.nbitsMax < n then some .invalidBitDepth
  else if kind.any (fun k => !Kind.supported k) then some .unsupportedInputType
  else none

/-- The capacity a completion records: CAP for every outcome after the capacity step, nothing for an outcome of the
prologue (40_planner.md R111; 60_exceptions.md R200). -/
def capRecord (p : Params) (n : Nat) : Code → Option (BitVec 34)
  | .invalidBitDepth => none
  | .unsupportedInputType => none
  | .illegalCommand => none
  | .ok => some (p.capField n)
  | .insufficientCapacity => some (p.capField n)
  | .sentinelNotFound => some (p.capField n)
  | .outputTooSmall => some (p.capField n)
  | .addressRange => some (p.capField n)
  | .bufferOverlap => some (p.capField n)
  | .busError => some (p.capField n)

/-- The checks of ENCODE before its first memory request, in the order of 60_exceptions.md R201; `none` when all
pass (41_packer.md R130, R131). -/
def encodeChecks (n : Nat) (kind : Kind) (p : Params) : Option Code :=
  match prologue n (some kind) with
  | some c => some c
  | none =>
    if ¬ p.fits n then some .insufficientCapacity
    else if ¬ (inRange p.imgBase.toNat p.channelCount && inRange p.payBase.toNat p.payLen.toNat) then
      some .addressRange
    else if overlap p.imgBase.toNat p.channelCount p.payBase.toNat p.payLen.toNat then some .bufferOverlap
    else none

/-- The checks of DECODE before its first memory request, in the order of 60_exceptions.md R201; `none` when all
pass (42_unpacker.md R150). -/
def decodeChecks (n : Nat) (kind : Kind) (p : Params) : Option Code :=
  match prologue n (some kind) with
  | some c => some c
  | none =>
    if p.outSize.toNat < p.capacity n then some .outputTooSmall
    else if ¬ (inRange p.imgBase.toNat p.channelCount && inRange p.outBase.toNat (p.capacity n)) then
      some .addressRange
    else if overlap p.imgBase.toNat p.channelCount p.outBase.toNat (p.capacity n) then some .bufferOverlap
    else none

/-- Base and length of the buffers a command touches (20_memory.md R75): none where it makes no memory request. -/
def touchedBuffers (i : Instr) (p : Params) : List (Nat × Nat) :=
  match i with
  | .capacity _ => []
  | .check _ _ => []
  | .encode n kind =>
    if (encodeChecks n kind p).isSome then []
    else [(p.imgBase.toNat, p.channelCount), (p.payBase.toNat, p.payLen.toNat)]
  | .decode n kind =>
    if (decodeChecks n kind p).isSome then []
    else [(p.imgBase.toNat, p.channelCount), (p.outBase.toNat, p.capacity n)]

/-- The buffers of a running command; an illegal word touches none. -/
def Job.touched (job : Job) : List (Nat × Nat) :=
  match decode job.word with
  | .ok i => touchedBuffers i job.params
  | .error _ => []

/-- The buffers of which the host must invalidate its cached copies once an ENCODE that has passed its checks has ended
(20_memory.md R80): the image, and where the spec does not fix the command's bytes (R75, R68) the payload too. -/
def Job.encodeEnds (job : Job) : List (Nat × Nat) :=
  (job.params.imgBase.toNat, job.params.channelCount) ::
    if job.scan.unfixed then [(job.params.payBase.toNat, job.params.payLen.toNat)] else []

/-- The same buffers of a DECODE at bit depth `n`: the image and the output range (20_memory.md R80). -/
def Job.decodeEnds (n : Nat) (job : Job) : List (Nat × Nat) :=
  [(job.params.imgBase.toNat, job.params.channelCount), (job.params.outBase.toNat, job.params.capacity n)]

/-- The same buffers of a command: none where it makes no memory request (20_memory.md R75, R80). -/
def endBuffers (i : Instr) (job : Job) : List (Nat × Nat) :=
  match i with
  | .capacity _ => []
  | .check _ _ => []
  | .encode n kind => if (encodeChecks n kind job.params).isSome then [] else job.encodeEnds
  | .decode n kind => if (decodeChecks n kind job.params).isSome then [] else job.decodeEnds n

/-- The same buffers of a running command; an illegal word has none. -/
def Job.ends (job : Job) : List (Nat × Nat) :=
  match decode job.word with
  | .ok i => endBuffers i job
  | .error _ => []

/-- Whether an address lies in one of the ranges. -/
def inRanges (a : Nat) (ranges : List (Nat × Nat)) : Bool :=
  ranges.any fun r => decide (r.1 ≤ a ∧ a < r.1 + r.2)

end Sys2Proof.Machine
end

