-- ==== Sys2Proof/Machine/Ops.lean ====
section
/-! DEFINITION. The named operations: system memory (20_memory.md R60), the engine's two memory requests (R70), the
completion step (60_exceptions.md R205), which is also this hardware's entry into error handling (R206), and
acceptance (10_state.md R40). -/

namespace Sys2Proof.Machine

/-- The outcome of a step of this machine. -/
abbrev StepResult := Host.Outcome State Fault Refusal

/-! ## System memory -/

/-- What a byte that nothing has written reads as; the spec gives system memory no contents at power-on. DESIGN
CHOICE, log entry 8. -/
def initByte (_a : Nat) : Byte := 0

/-- The byte at an address. -/
def Memory.read (m : Memory) (a : Nat) : Byte :=
  match m with
  | [] => initByte a
  | (x, b) :: r => if x = a then b else Memory.read r a

/-- The memory with one byte written, in canonical form again. -/
def Memory.write (m : Memory) (a : Nat) (b : Byte) : Memory :=
  match m with
  | [] => if b = initByte a then [] else [(a, b)]
  | (x, c) :: r =>
    if a < x then (if b = initByte a then (x, c) :: r else (a, b) :: (x, c) :: r)
    else if a = x then (if b = initByte a then r else (a, b) :: r)
    else (x, c) :: Memory.write r a b

/-- The canonical form: addresses strictly rising from `lo`, no byte listed that an unlisted address would read. -/
def Memory.wfFrom (lo : Nat) : Memory → Bool
  | [] => true
  | (x, b) :: r => decide (lo ≤ x) && (b != initByte x) && Memory.wfFrom (x + 1) r

/-- The canonical form of a memory. -/
def Memory.wf (m : Memory) : Bool := Memory.wfFrom 0 m

/-- Every listed address is an address of the memory port (20_memory.md R60). -/
def Memory.inSpace (m : Memory) : Bool := m.all fun c => decide (c.1 < Config.addrSpace)

/-- `len` bytes from `base` on become free values, the draws from `d` on (20_memory.md R75). -/
def Memory.scramble (m : Memory) (base d : Nat) : Nat → Memory
  | 0 => m
  | l + 1 => (Memory.scramble m base d l).write (base + l) (Config.freeByte (d + l))

/-- Every byte of the ranges becomes a free value; gives the number of the next draw beside the memory. -/
def Memory.scrambleRanges (m : Memory) (d : Nat) : List (Nat × Nat) → Memory × Nat
  | [] => (m, d)
  | r :: rest => Memory.scrambleRanges (m.scramble r.1 d r.2) (d + r.2) rest

/-- A set of addresses as a list without repeats, with one address added. -/
def addAddr (l : List Nat) (a : Nat) : List Nat := if a ∈ l then l else a :: l

/-- A set of addresses with the `len` addresses from `base` on added. -/
def addRange (l : List Nat) (base : Nat) : Nat → List Nat
  | 0 => l
  | len + 1 => addAddr (addRange l base len) (base + len)

/-- A set of addresses with every address of the ranges added. -/
def addRanges (l : List Nat) : List (Nat × Nat) → List Nat
  | [] => l
  | r :: rest => addRanges (addRange l r.1 r.2) rest

/-! ## The engine's memory requests -/

/-- The running command's job with another scan state. -/
def State.withScan (job : Job) (sc : Scan) (s : State) : State :=
  { s with engine := .run { job with scan := sc } }

/-- How the memory answers the engine's request (20_memory.md R70): every request is answered OKAY where
`BUS_ERROR_POSSIBLE` does not hold. -/
def State.verdict (s : State) : BusAnswer :=
  if s.platform.busErrorPossible then s.memAnswer else .okay

/-- The request was answered: the answer is spent. -/
def State.answered (s : State) : State := { s with memAnswer := .okay }

/-- The number of free values that storing a byte of this command draws. -/
def Scan.drawsUsed (sc : Scan) : Nat := if sc.unfixed then 1 else 0

/-- The byte a read of the engine returns: the byte of system memory, or any byte where the spec does not fix the
command's bytes (20_memory.md R75, R68). -/
def State.engineByte (job : Job) (a : Nat) (s : State) : Byte :=
  if job.scan.unfixed then Config.freeByte s.draws else s.mem.read a

/-- The engine's byte `b` lands at address `a`; any byte lands where the spec does not fix the command's bytes. Without
HOST_COHERENT the host's cached copy is then out of date (20_memory.md R80). -/
def State.engineStore (job : Job) (a : Nat) (b : Byte) (s : State) : State :=
  { s with
    mem := s.mem.write a (if job.scan.unfixed then Config.freeByte s.draws else b)
    draws := s.draws + job.scan.drawsUsed
    stale := if s.platform.hostCoherent then s.stale else addAddr s.stale a }

/-- What a read of the engine does to the byte: nothing, but where the spec does not fix the command's bytes, the byte
read is any byte afterwards too (20_memory.md R68; 93_implementation_defined.md U8). -/
def State.engineLoad (job : Job) (a : Nat) (s : State) : State :=
  if job.scan.unfixed then { s with draws := s.draws + 1 }.engineStore job a (s.mem.read a) else s

/-- The engine goes to completion with BusError, with no further request (20_memory.md R70). -/
def State.busFail (job : Job) (s : State) : State :=
  s.withScan job { job.scan with next := .finish .busError }

/-- `MemRead(a, 1)` as one step of the engine (00_scope.md R10; 10_state.md R41); `upd` gives the scan state from the
byte read. -/
def readRequest (job : Job) (a : Nat) (upd : Byte → Scan) (s : State) : StepResult :=
  if Config.addrSpace ≤ a then .fault .noSuchAddress
  else match s.verdict with
    | .okay => .next ((s.answered.engineLoad job a).withScan job (upd (s.engineByte job a)))
    | .error _ => .next (s.answered.busFail job)

/-- `MemWrite(a, 1, b)` as one step of the engine (00_scope.md R10; 10_state.md R41); `sc` is the scan state after
it. A write answered ERROR may or may not have landed (20_memory.md R70). -/
def writeRequest (job : Job) (a : Nat) (b : Byte) (sc : Scan) (s : State) : StepResult :=
  if Config.addrSpace ≤ a then .fault .noSuchAddress
  else match s.verdict with
    | .okay => .next ((s.answered.engineStore job a b).withScan job sc)
    | .error landed =>
      .next ((if landed then s.answered.engineStore job a b else s.answered).busFail job)

/-! ## Completion and acceptance -/

/-- A command has ended: without HOST_COHERENT the host must invalidate its cached copies of these buffers before it
reads them (20_memory.md R80). -/
def State.unsync (ends : List (Nat × Nat)) (s : State) : State :=
  { s with unsynced := if s.platform.hostCoherent then s.unsynced else addRanges s.unsynced ends }

/-- The completion step of 60_exceptions.md R205 with outcome `c`: it writes the result registers the command has
computed, ERRCODE, DONE and BUSY, the engine holds no scan state afterwards, and the host's copies of the buffers `ends`
wait to be invalidated. Where the spec does not fix the command's results (20_memory.md R75, R68) the four results are
free values. -/
def State.complete (job : Job) (ends : List (Nat × Nat)) (c : Code) (cap : Option (BitVec 34)) (len : Option Word)
    (s : State) : State :=
  if job.scan.unfixed then
    { s.unsync ends with
      cap := Config.freeCap s.draws, msgLen := Config.freeLen s.draws, errcode := Config.freeCode s.draws
      draws := s.draws + 1, done := true, engine := .idle }
  else
    { s.unsync ends with
      cap := cap.getD s.cap, msgLen := len.getD s.msgLen, errcode := c, done := true, engine := .idle }

/-- The acceptance of a command word by an engine that is idle, without what log entry 6 adds (10_state.md R40):
CMD holds the word, BUSY is 1, DONE and ERRCODE are 0, the parameters are snapshotted. -/
def State.latch (w : Word) (s : State) : State :=
  { s with
    cmd := w, done := false, errcode := .ok
    engine := .run { word := w, params := s.params, scan := Scan.fresh } }

/-- The spec fixes neither the bytes that the running command reads and writes from now on nor its results (20_memory.md
R75, R68). -/
def State.unfix (job : Job) (s : State) : State := s.withScan job { job.scan with unfixed := true }

/-- A race: every byte of the running command's buffers becomes a free value, of which the host holds no copy, and the
command is open from now on (20_memory.md R75, R80). -/
def State.loosen (job : Job) (s : State) : State :=
  { s.unfix job with
    mem := (s.mem.scrambleRanges s.draws job.touched).1
    draws := (s.mem.scrambleRanges s.draws job.touched).2
    stale := if s.platform.hostCoherent then s.stale else addRanges s.stale job.touched }

/-- Whether two ranges share an address. -/
def rangesMeet (a b : Nat × Nat) : Bool := overlap a.1 a.2 b.1 b.2

/-- Base and length of the line of the host's caches that holds an address (20_memory.md R80). -/
def cacheLine (p : Config.Platform) (a : Nat) : Nat × Nat :=
  (a / 2 ^ p.cacheLineLog * 2 ^ p.cacheLineLog, 2 ^ p.cacheLineLog)

/-- Whether the cache line of one of the addresses meets one of the ranges. -/
def linesMeet (p : Config.Platform) (addrs : List Nat) (ranges : List (Nat × Nat)) : Bool :=
  addrs.any fun a => ranges.any (rangesMeet (cacheLine p a))

/-- Whether a command that starts now has a buffer in a cache line that the host has not written back (20_memory.md
R74, R80; log entry 6). -/
def State.unclean (job : Job) (s : State) : Bool := linesMeet s.platform s.dirty job.touched

/-- Whether a command has a buffer that is no ordinary memory (20_memory.md R68). -/
def State.onDevice (job : Job) (s : State) : Bool :=
  job.touched.any fun b => s.platform.devices.any (rangesMeet b)

/-- The acceptance step (10_state.md R31, R40). The spec does not fix the command where its buffers are not written
back (a race) or are no ordinary memory (log entry 6). -/
def State.accept (w : Word) (s : State) : State :=
  let job : Job := { word := w, params := s.params, scan := Scan.fresh }
  if s.unclean job then (s.latch w).loosen job
  else if s.onDevice job then (s.latch w).unfix job
  else s.latch w

/-- The command goes on only while the engine runs; an idle engine takes no step (10_state.md R41, R48). -/
def whileRunning (s : State) (f : Job → StepResult) : StepResult :=
  match s.engine with
  | .idle => .next s
  | .run job => f job

end Sys2Proof.Machine
end

