-- ==== Sys2Proof/Machine/Packer.lean ====
section
/-! DEFINITION. The bit packer (41_packer.md): ENCODE. -/

namespace Sys2Proof.Machine

/-- The engine arrives at visit `k` of ENCODE: past the last visit it goes to completion with code 0 (41_packer.md
R134); at the first bit of an effective payload byte it reads that byte, or takes the sentinel byte without a request
(R132 step 1; 20_memory.md R63). -/
def encodeVisit (p : Params) (k : Nat) (sc : Scan) : Scan :=
  if k < p.totalBits then
    if k % 8 = 0 then
      if k / 8 < p.payLen.toNat then { sc with k := k, next := .payload }
      else { sc with k := k, pb := Config.sentByte, next := .read }
    else { sc with k := k, next := .read }
  else { sc with k := k, next := .finish .ok }

/-- The address of the channel value of the current visit (41_packer.md R132). -/
def visitAddr (p : Params) (sc : Scan) : Nat := p.imgAddr (visitOffset p.channelCount sc.k)

/-- The channel value ENCODE writes back in the current visit (41_packer.md R132 step 3). -/
def encodeValue (p : Params) (sc : Scan) : Byte :=
  setPlane sc.v (visitPlane p.channelCount sc.k) (sc.pb.getLsbD (7 - sc.k % 8))

/-- The completion step of ENCODE with outcome `c`; `ends` are the buffers it has had. -/
def encodeComplete (n : Nat) (job : Job) (ends : List (Nat × Nat)) (c : Code) (s : State) : StepResult :=
  .next (s.complete job ends c (capRecord job.params n c) none)

/-- One step of a scanning ENCODE: the next request of 41_packer.md R132, or the completion step. -/
def encodeStep (n : Nat) (job : Job) (s : State) : StepResult :=
  match job.scan.next with
  | .finish c => encodeComplete n job job.encodeEnds c s
  | .payload =>
    readRequest job (job.params.payAddr (job.scan.k / 8)) (fun b => { job.scan with pb := b, next := .read }) s
  | .write =>
    writeRequest job (visitAddr job.params job.scan) (encodeValue job.params job.scan)
      (encodeVisit job.params (job.scan.k + 1) job.scan) s
  | .read | .start =>
    readRequest job (visitAddr job.params job.scan) (fun b => { job.scan with v := b, next := .write }) s

/-- ENCODE (41_packer.md R131), one step of the engine (10_state.md R41). The first step makes the checks and then the
first request, or completes with the code of the check that fails (log entry 4). -/
def execEncode (n : Nat) (kind : Kind) (s : State) : StepResult :=
  whileRunning s fun job =>
    match job.scan.next with
    | .start =>
      match encodeChecks n kind job.params with
      | some c => encodeComplete n job [] c s
      | none => encodeStep n { job with scan := encodeVisit job.params 0 job.scan } s
    | .payload | .read | .write | .finish _ => encodeStep n job s

end Sys2Proof.Machine
end

