-- ==== Sys2Proof/Machine/Planner.lean ====
section
/-! DEFINITION. The capacity / embed planner (40_planner.md): CAPACITY and CHECK. -/

namespace Sys2Proof.Machine

/-- The outcome of CAPACITY (40_planner.md R112). -/
def capacityCode (n : Nat) : Code := (prologue n none).getD .ok

/-- The outcome of CHECK (40_planner.md R113, R114). -/
def checkCode (n : Nat) (kind : Kind) (p : Params) : Code :=
  match prologue n (some kind) with
  | some c => c
  | none => if p.fits n then .ok else .insufficientCapacity

/-- CAPACITY (40_planner.md R112): its one step is its completion. -/
def execCapacity (n : Nat) (s : State) : StepResult :=
  whileRunning s fun job =>
    .next (s.complete job [] (capacityCode n) (capRecord job.params n (capacityCode n)) none)

/-- CHECK (40_planner.md R113): its one step is its completion. -/
def execCheck (n : Nat) (kind : Kind) (s : State) : StepResult :=
  whileRunning s fun job =>
    .next (s.complete job [] (checkCode n kind job.params) (capRecord job.params n (checkCode n kind job.params)) none)

end Sys2Proof.Machine
end

