-- ==== Sys2Proof/Machine/Unpacker.lean ====
section
/-! DEFINITION. The bit unpacker (42_unpacker.md): DECODE. -/

namespace Sys2Proof.Machine

/-- The outcome of a complete scan (42_unpacker.md R153). -/
def scanOutcome (sc : Scan) : Code := if sc.found.isSome then .ok else .sentinelNotFound

/-- The engine arrives at visit `k` of DECODE: past the last visit of the whole image it goes to completion; the scan
never stops early (42_unpacker.md R151). -/
def decodeVisit (n : Nat) (p : Params) (k : Nat) (sc : Scan) : Scan :=
  if k < p.channelCount * n then { sc with k := k, next := .read }
  else { sc with k := k, next := .finish (scanOutcome sc) }

/-- The scan state after the bit of channel value `v` has entered `ACC`: at the eighth bit of a chunk the output byte
is written next (42_unpacker.md R151). -/
def decodeBit (n : Nat) (p : Params) (sc : Scan) (v : Byte) : Scan :=
  let acc := shiftIn sc.acc (plane v (visitPlane p.channelCount sc.k))
  if sc.k % 8 = 7 then { sc with v := v, acc := acc, next := .write }
  else decodeVisit n p (sc.k + 1) { sc with v := v, acc := acc }

/-- The sentinel search after output byte `i` with value `b`: the count of consecutive sentinel bytes, up to the first
run of five (43_bit_helpers.md R175). -/
def trackSent (i : Nat) (b : Byte) (sc : Scan) : Scan :=
  if sc.found.isSome then sc
  else if b = Config.sentByte then
    if sc.streak + 1 = Config.sentLen then
      { sc with streak := sc.streak + 1, found := some (i + 1 - Config.sentLen) }
    else { sc with streak := sc.streak + 1 }
  else { sc with streak := 0 }

/-- The scan state after the current output byte has been written. -/
def decodeWritten (n : Nat) (p : Params) (sc : Scan) : Scan :=
  decodeVisit n p (sc.k + 1) (trackSent (sc.k / 8) sc.acc sc)

/-- The address of the output byte of the current chunk (20_memory.md R64). -/
def chunkAddr (p : Params) (sc : Scan) : Nat := p.outAddr (sc.k / 8)

/-- What DECODE records in MSG_LEN: the sentinel's index for code 0, CAP for code 4, nothing else (10_state.md R42;
42_unpacker.md R153). -/
def lenRecord (p : Params) (n : Nat) (sc : Scan) : Code → Option Word
  | .ok => sc.found.map (BitVec.ofNat 32)
  | .sentinelNotFound => some (BitVec.ofNat 32 (p.capacity n))
  | .insufficientCapacity => none
  | .invalidBitDepth => none
  | .unsupportedInputType => none
  | .illegalCommand => none
  | .outputTooSmall => none
  | .addressRange => none
  | .bufferOverlap => none
  | .busError => none

/-- The completion step of DECODE with outcome `c`; `ends` are the buffers it has had. -/
def decodeComplete (n : Nat) (job : Job) (ends : List (Nat × Nat)) (c : Code) (s : State) : StepResult :=
  .next (s.complete job ends c (capRecord job.params n c) (lenRecord job.params n job.scan c))

/-- One step of a scanning DECODE: the next request of 42_unpacker.md R151, or the completion step. -/
def decodeStep (n : Nat) (job : Job) (s : State) : StepResult :=
  match job.scan.next with
  | .finish c => decodeComplete n job (job.decodeEnds n) c s
  | .write =>
    writeRequest job (chunkAddr job.params job.scan) job.scan.acc (decodeWritten n job.params job.scan) s
  | .read | .payload | .start =>
    readRequest job (visitAddr job.params job.scan) (decodeBit n job.params job.scan) s

/-- DECODE (42_unpacker.md R150), one step of the engine (10_state.md R41). The first step makes the checks and then
the first request, or completes where a check fails or there is no visit (log entry 4). -/
def execDecode (n : Nat) (kind : Kind) (s : State) : StepResult :=
  whileRunning s fun job =>
    match job.scan.next with
    | .start =>
      match decodeChecks n kind job.params with
      | some c => decodeComplete n job [] c s
      | none => decodeStep n { job with scan := decodeVisit n job.params 0 job.scan } s
    | .payload | .read | .write | .finish _ => decodeStep n job s

end Sys2Proof.Machine
end

