-- ==== Sys2Proof/Machine/Dispatch.lean ====
section
/-! DEFINITION. The dispatch of a command to its meaning: one step of the engine that runs it (10_state.md R41). -/

namespace Sys2Proof.Machine

def exec (i : Instr) (s : State) : Host.Outcome State Fault Refusal :=
  match i with
  -- 40_planner.md
  | .capacity n => Sys2Proof.Machine.execCapacity n s
  | .check n kind => Sys2Proof.Machine.execCheck n kind s
  -- 41_packer.md
  | .encode n kind => Sys2Proof.Machine.execEncode n kind s
  -- 42_unpacker.md
  | .decode n kind => Sys2Proof.Machine.execDecode n kind s

end Sys2Proof.Machine
end

