-- ==== Sys2Proof/Machine/HostMemory.lean ====
section
/-! DEFINITION. System memory seen from outside the block (20_memory.md R60): the accesses of the host, through its
caches, and of other bus masters, with the ownership and coherence rules of R74 to R80. -/

namespace Sys2Proof.Machine

/-! ## Reads -/

/-- Whether an address belongs to the engine now: the command runs and touches its byte (20_memory.md R75). That the
buffers are the host's from the completion step on, and not only once the host has seen BUSY = 0 or the irq (R76;
92_eei_decisions.md D21), is the model's choice (log entry 18). -/
def State.owned (a : Nat) (s : State) : Bool :=
  match s.engine with
  | .idle => false
  | .run job => inRanges a job.touched

/-- Whether a host read of an address returns any byte: a race (20_memory.md R75), a buffer of an ended command of which
the host has not invalidated its copies (R80; 92_eei_decisions.md D21), another copy out of date, or no ordinary memory
(R68). -/
def State.hostReadIsOpen (s : State) (a : Nat) : Bool :=
  s.owned a || decide (a ∈ s.unsynced) || decide (a ∈ s.stale) || inRanges a s.platform.devices

/-- Whether a read of another master returns any byte: a race (60_exceptions.md R223), a byte the host has not written
back, or no ordinary memory (20_memory.md R68). That such a master sees memory past the host's caches is the model's
choice (log entry 17). -/
def State.busReadIsOpen (s : State) (a : Nat) : Bool :=
  s.owned a || decide (a ∈ s.dirty) || inRanges a s.platform.devices

/-- `count` bytes read from `a` on, and the number of the next free value; an open byte is one. -/
def readBytes (isOpen : Nat → Bool) (m : Memory) (a d : Nat) : Nat → List Byte × Nat
  | 0 => ([], d)
  | c + 1 =>
    let r := readBytes isOpen m (a + 1) (if isOpen a then d + 1 else d) c
    ((if isOpen a then Config.freeByte d else m.read a) :: r.1, r.2)

/-- A read of `count` bytes of system memory; it changes the answer and the number of the next free value only. One that
runs past the address space is answered ERROR (log entry 11): nothing the host does stops the engine
(70_reset_and_hazards.md R253). -/
def State.readAccess (isOpen : Nat → Bool) (addr : Word) (count : Nat) (s : State) : State :=
  if inRange addr.toNat count then
    let r := readBytes isOpen s.mem addr.toNat s.draws count
    { s with reply := .bytes r.1, draws := r.2 }
  else { s with reply := .error }

/-- A host read of bytes of system memory. -/
def State.hostRead (addr : Word) (count : Nat) (s : State) : State := s.readAccess s.hostReadIsOpen addr count

/-- A read of bytes of system memory by another master. -/
def State.busRead (addr : Word) (count : Nat) (s : State) : State := s.readAccess s.busReadIsOpen addr count

/-! ## Writes -/

/-- A write from outside where `meets` says that it falls into the running command's buffers is a race, after which the
command's bytes and results are any values (20_memory.md R75). -/
def State.racedIf (meets : List (Nat × Nat) → Bool) (s : State) : State :=
  match s.engine with
  | .idle => s
  | .run job => if meets job.touched then s.loosen job else s

/-- One host byte lands. Without HOST_COHERENT it is in the host's cache, not written back yet, and the host's copy of
it is up to date; a copy that waits to be invalidated still does (20_memory.md R80; log entry 13). -/
def State.hostPut (a : Nat) (b : Byte) (s : State) : State :=
  { s with
    mem := s.mem.write a b
    dirty := if s.platform.hostCoherent then s.dirty else addAddr s.dirty a
    stale := s.stale.filter (· ≠ a) }

/-- A host write of one byte. -/
def State.hostStore (a : Nat) (b : Byte) (s : State) : State := (s.hostPut a b).racedIf (inRanges a)

/-- One byte of another master lands. Without HOST_COHERENT the host's copy of it is then out of date (log entry
17). -/
def State.busPut (a : Nat) (b : Byte) (s : State) : State :=
  { s with
    mem := s.mem.write a b
    stale := if s.platform.hostCoherent then s.stale else addAddr s.stale a }

/-- A write of one byte by another master (60_exceptions.md R223). -/
def State.busStore (a : Nat) (b : Byte) (s : State) : State := (s.busPut a b).racedIf (inRanges a)

/-- Writes of consecutive bytes, the first at `a`, each by `store`. -/
def State.storeBytes (store : Nat → Byte → State → State) (a : Nat) (s : State) : List Byte → State
  | [] => s
  | b :: r => State.storeBytes store (a + 1) (store a b s) r

/-- A write of bytes to system memory, each by `store`. One that runs past the address space is answered ERROR and
writes no byte (log entry 11). -/
def State.writeAccess (store : Nat → Byte → State → State) (addr : Word) (bytes : List Byte) (s : State) : State :=
  if inRange addr.toNat bytes.length then { s.storeBytes store addr.toNat bytes with reply := .okay }
  else { s with reply := .error }

/-- A host write of bytes to system memory. -/
def State.hostWrite (addr : Word) (bytes : List Byte) (s : State) : State := s.writeAccess State.hostStore addr bytes

/-- A write of bytes to system memory by another master. -/
def State.busWrite (addr : Word) (bytes : List Byte) (s : State) : State := s.writeAccess State.busStore addr bytes

/-! ## Cache maintenance (20_memory.md R80, without HOST_COHERENT; log entry 13) -/

/-- Whether the cache line of an address meets a range. -/
def State.lineIn (range : Nat × Nat) (s : State) (a : Nat) : Bool := rangesMeet (cacheLine s.platform a) range

/-- The bytes not written back in the lines that meet a range. -/
def State.dirtyIn (range : Nat × Nat) (s : State) : List Nat := s.dirty.filter (s.lineIn range)

/-- The bytes of which the host's copy may be out of date and that share a line with one of the addresses. -/
def State.staleBeside (addrs : List Nat) (s : State) : List Nat :=
  s.stale.filter fun x => addrs.any fun a => decide (cacheLine s.platform a = cacheLine s.platform x)

/-- Each byte of the list becomes a free value. -/
def State.freeBytes (s : State) : List Nat → State
  | [] => s
  | a :: r => State.freeBytes { s with mem := s.mem.write a (Config.freeByte s.draws), draws := s.draws + 1 } r

/-- The dirty lines that meet a range go back to memory whole: a byte beside the host's own that memory has newer than
the line is then the old or the new one, any byte. A line that meets a running command's buffers races it (20_memory.md
R75). -/
def State.writeBack (range : Nat × Nat) (s : State) : State :=
  (s.freeBytes (s.staleBeside (s.dirtyIn range))).racedIf (linesMeet s.platform (s.dirtyIn range))

/-- The host's dirty lines that meet a range are written back (20_memory.md R80). -/
def State.cacheClean (range : Nat × Nat) (s : State) : State :=
  let t := s.writeBack range
  { t with dirty := t.dirty.filter fun a => !s.lineIn range a }

/-- The host's copies in the lines that meet a range are invalidated (20_memory.md R80). A dirty line of them is written
back first or lost, so each of its bytes that the host wrote is the old or the new one, any byte. -/
def State.cacheInvalidate (range : Nat × Nat) (s : State) : State :=
  let t := (s.writeBack range).freeBytes (s.dirtyIn range)
  { t with
    dirty := t.dirty.filter fun a => !s.lineIn range a
    stale := t.stale.filter fun a => !s.lineIn range a
    unsynced := t.unsynced.filter fun a => !s.lineIn range a }

end Sys2Proof.Machine
end

