-- ==== Sys2Proof/Machine/Port.lean ====
section
/-! DEFINITION. The register port (10_state.md R21, R23 to R46): reads and writes of the registers, answered OKAY or
ERROR. -/

namespace Sys2Proof.Machine

/-- The offset of a register (10_state.md R23). -/
def regOffset : Reg → BitVec 8
  | .id => 0x00
  | .ctrl => 0x04
  | .status => 0x08
  | .cmd => 0x0C
  | .imgBase => 0x10
  | .rows => 0x14
  | .cols => 0x18
  | .payBase => 0x1C
  | .payLen => 0x20
  | .outBase => 0x24
  | .outSize => 0x28
  | .capLo => 0x2C
  | .capHi => 0x30
  | .msgLen => 0x34

/-- Every register of the window, in the order of 10_state.md R23. -/
def allRegs : List Reg :=
  [.id, .ctrl, .status, .cmd, .imgBase, .rows, .cols, .payBase, .payLen, .outBase, .outSize, .capLo, .capHi, .msgLen]

/-- The register at an offset; the other offsets of the window are reserved (10_state.md R43). -/
def regAt (off : BitVec 8) : Option Reg := allRegs.find? fun r => regOffset r = off

/-- What a read of a register gives: the rules of 10_state.md R24 to R42, with the reserved bits 0. -/
def State.readReg (r : Reg) (s : State) : Word :=
  match r with
  | .id => Config.idValue
  | .ctrl => flagBit s.ie 0
  | .status => s.statusWord
  | .cmd => s.cmd
  | .imgBase => s.params.imgBase
  | .rows => s.params.rows.setWidth 32
  | .cols => s.params.cols.setWidth 32
  | .payBase => s.params.payBase
  | .payLen => s.params.payLen
  | .outBase => s.params.outBase
  | .outSize => s.params.outSize
  | .capLo => s.cap.setWidth 32
  | .capHi => (s.cap >>> 32).setWidth 32
  | .msgLen => s.msgLen

/-- A write of a parameter register: it acts while the engine is idle and is dropped while it is busy (10_state.md
R46). -/
def State.writeParam (f : Params → Params) (s : State) : State :=
  if s.busy then s.dropWrite else { s with params := f s.params }

/-- A host write of a register: the rules of 10_state.md R24 to R46. -/
def State.writeReg (r : Reg) (w : Word) (s : State) : State :=
  match r with
  | .id => s
  | .ctrl => s.setCtrl w
  | .status => s.clearFlags w
  | .cmd => if s.busy then s.dropWrite else s.accept w
  | .imgBase => s.writeParam fun p => { p with imgBase := w }
  | .rows => s.writeParam fun p => { p with rows := w.setWidth 16 }
  | .cols => s.writeParam fun p => { p with cols := w.setWidth 16 }
  | .payBase => s.writeParam fun p => { p with payBase := w }
  | .payLen => s.writeParam fun p => { p with payLen := w }
  | .outBase => s.writeParam fun p => { p with outBase := w }
  | .outSize => s.writeParam fun p => { p with outSize := w }
  | .capLo => s
  | .capHi => s
  | .msgLen => s

/-- The port admits only aligned 32-bit transactions (10_state.md R44). -/
def admitted (off : BitVec 8) (width : Width) : Bool := decide (width = .word) && decide (off.toNat % 4 = 0)

/-- A read transaction: the data, or ERROR. It changes nothing but what the host got back (10_state.md R44). -/
def State.portRead (off : BitVec 8) (width : Width) (s : State) : State :=
  if admitted off width then
    { s with reply := .data (match regAt off with | some r => s.readReg r | none => 0) }
  else { s with reply := .error }

/-- A write transaction: OKAY, or ERROR with nothing changed; a reserved offset ignores it (10_state.md R43, R44). -/
def State.portWrite (off : BitVec 8) (width : Width) (w : Word) (s : State) : State :=
  if admitted off width then
    { (match regAt off with | some r => s.writeReg r w | none => s) with reply := .okay }
  else { s with reply := .error }

/-- The offset in the register window of a bus address (10_state.md R23): `none` outside the window. -/
def windowOffset (p : Config.Platform) (addr : Word) : Option (BitVec 8) :=
  if (addr - p.regBase).toNat < Config.regWindow then some ((addr - p.regBase).setWidth 8) else none

/-- A transaction of any bus master at a bus address (60_exceptions.md R220); one outside the window does not reach
the block. -/
def State.access (addr : Word) (width : Width) (data : Option Word) (s : State) : State :=
  match windowOffset s.platform addr with
  | none => s
  | some off =>
    match data with
    | none => s.portRead off width
    | some w => s.portWrite off width w

end Sys2Proof.Machine
end

