-- ==== Sys2Proof/Machine/HostAgent.lean ====
section
/-! DEFINITION. The host agent (10_state.md R20): the operations of its programs (30_encoding.md R100). -/

namespace Sys2Proof.Machine

/-- The value of a scratch variable. -/
def HostAgent.get (h : HostAgent) : HVar → Word
  | .h0 => h.h0
  | .h1 => h.h1
  | .h2 => h.h2
  | .h3 => h.h3

/-- The host with a scratch variable written. -/
def HostAgent.put (h : HostAgent) (v : HVar) (w : Word) : HostAgent :=
  match v with
  | .h0 => { h with h0 := w }
  | .h1 => { h with h1 := w }
  | .h2 => { h with h2 := w }
  | .h3 => { h with h3 := w }

/-- The value of an operand of `WR`. -/
def HostAgent.arg (h : HostAgent) : HArg → Word
  | .imm w => w
  | .var v => h.get v

/-- The index of a label in a program. -/
def labelIndex (prog : List HostOp) (l : Nat) : Option Nat := prog.findIdx? fun op => decide (op = HostOp.label l)

/-- The host goes to its next operation. -/
def State.hostNext (s : State) : State := { s with host := { s.host with pc := s.host.pc + 1 } }

/-- The host writes a variable and goes to its next operation. -/
def State.hostSet (h : HVar) (w : Word) (s : State) : State := { s with host := s.host.put h w }.hostNext

/-- The host stops: its program makes no further step (30_encoding.md R100). -/
def State.hostHalt (s : State) : State := { s with host := { s.host with halted := true } }

/-- The host goes to a label where `taken`, else to its next operation. A label that the program lacks stops the host
and nothing else (log entry 12): nothing the host does stops the engine (70_reset_and_hazards.md R253). -/
def State.hostBranch (taken : Bool) (target : Nat) (s : State) : State :=
  if taken then
    match labelIndex s.host.prog target with
    | some i => { s with host := { s.host with pc := i } }
    | none => s.hostHalt
  else s.hostNext

/-- One operation of the host (30_encoding.md R100). -/
def State.hostExec (op : HostOp) (s : State) : State :=
  match op with
  | .wr r v => (s.portWrite (regOffset r) .word (s.host.arg v)).hostNext
  | .rd r h => (s.portRead (regOffset r) .word).hostSet h (s.readReg r)
  | .memw a bytes => (s.hostWrite a bytes).hostNext
  | .memr a count => (s.hostRead a count).hostNext
  | .set h w => s.hostSet h w
  | .add h w => s.hostSet h (s.host.get h + w)
  | .and h w => s.hostSet h (s.host.get h &&& w)
  | .beq h w l => s.hostBranch (s.host.get h == w) l
  | .bne h w l => s.hostBranch (s.host.get h != w) l
  | .label _ => s.hostNext
  | .halt => s.hostHalt

/-- The host's next operation; `none` after HALT and past the end of its program. -/
def HostAgent.op? (h : HostAgent) : Option HostOp := if h.halted then none else h.prog[h.pc]?

/-- The pseudo-instruction `CMD c` (30_encoding.md R100). -/
def pseudoCmd (i : Instr) : List HostOp := [.wr .cmd (.imm (encode i))]

/-- The pseudo-instruction `WAIT` (30_encoding.md R100); `l` is a label the program uses nowhere else. -/
def pseudoWait (l : Nat) : List HostOp := [.label l, .rd .status .h3, .and .h3 1, .bne .h3 0 l]

/-- The pseudo-instruction `ACK` (30_encoding.md R100). -/
def pseudoAck : List HostOp := [.wr .status (.imm 0x102)]

/-- The pseudo-instruction `RUN c` (30_encoding.md R100). -/
def pseudoRun (i : Instr) (l : Nat) : List HostOp := pseudoCmd i ++ pseudoWait l

end Sys2Proof.Machine
end

