-- ==== Sys2Proof/Machine/Agents.lean ====
section
/-! DEFINITION. One step of each agent (10_state.md R20), the reset event (70_reset_and_hazards.md R240, R241), and the
effect of each event from outside. -/

namespace Sys2Proof.Machine

/-- One step of the engine (10_state.md R41): the step of the latched command, or the completion of an illegal word
with code 5 (30_encoding.md R95, R97). -/
def engineStep (s : State) : StepResult :=
  match s.engine with
  | .idle => .next s
  | .run job =>
    match decode job.word with
    | .ok i => exec i s
    | .error _ => .next (s.complete job [] .illegalCommand none none)

/-- One step of the host: its next operation, where its program has one. -/
def State.hostStep (s : State) : State :=
  match s.host.op? with
  | none => s
  | some op => s.hostExec op

/-- The write request that the next step of a command makes: its address and byte (41_packer.md R132 step 3;
42_unpacker.md R151). -/
def nextWrite (i : Instr) (job : Job) : Option (Nat × Byte) :=
  match i with
  | .capacity _ => none
  | .check _ _ => none
  | .encode _ _ =>
    if job.scan.next = .write then some (visitAddr job.params job.scan, encodeValue job.params job.scan) else none
  | .decode _ _ => if job.scan.next = .write then some (chunkAddr job.params job.scan, job.scan.acc) else none

/-- The write request the engine has issued or is about to issue (70_reset_and_hazards.md R241; log entry 14). -/
def Job.pendingWrite (job : Job) : Option (Nat × Byte) :=
  match decode job.word with
  | .error _ => none
  | .ok i => nextWrite i job

/-- A write request that reset leaves unanswered has changed its byte (70_reset_and_hazards.md R241). -/
def State.landPending (s : State) : State :=
  match s.engine with
  | .idle => s
  | .run job =>
    match job.pendingWrite with
    | none => s
    | some (a, b) => if a < Config.addrSpace then s.engineStore job a b else s

/-- The command that reset ends has ended for the host's caches as a completed one has (20_memory.md R80; log entry
14). -/
def State.unsyncRunning (s : State) : State :=
  match s.engine with
  | .idle => s
  | .run job => s.unsync job.ends

/-- Every register at its reset value, the engine idle without a scan state, memory as it is (70_reset_and_hazards.md
R240, R241). -/
def State.resetRegs (s : State) : State :=
  { s with
    ie := false, done := false, errcode := .ok, ovr := false, cmd := 0, params := Params.reset, cap := 0, msgLen := 0
    engine := .idle, memAnswer := .okay }

/-- The reset event (70_reset_and_hazards.md R240, R241). -/
def State.resetEvent (landed : Bool) (s : State) : State :=
  (if landed then s.landPending else s).unsyncRunning.resetRegs

/-- The effect of one event. -/
def eventStep (e : Event) (s : State) : StepResult :=
  match e with
  | .engine answer => if s.busy then engineStep { s with memAnswer := answer } else .next s
  | .host => .next s.hostStep
  | .access addr width data => .next (s.access addr width data)
  | .memRead addr count => .next (s.busRead addr count)
  | .memWrite addr bytes => .next (s.busWrite addr bytes)
  | .cacheClean addr count => .next (s.cacheClean (addr.toNat, count))
  | .cacheInvalidate addr count => .next (s.cacheInvalidate (addr.toNat, count))
  | .reset landed => .next (s.resetEvent landed)

/-- What happens when the outside decides nothing: a busy engine steps, else the host steps (log entry 2). -/
def defaultStep (s : State) : StepResult := if s.busy then engineStep s else .next s.hostStep

end Sys2Proof.Machine
end

