-- ==== Sys2Proof/Machine/Step.lean ====
section
/-! DEFINITION. One step of the machine: one step of one agent or one event from outside (10_state.md R20;
60_exceptions.md R211). -/

namespace Sys2Proof.Machine

/-- One step: the first event of the schedule, or the default where it holds none. -/
def step (s : State) : Host.Outcome State Fault Refusal :=
  match s.schedule with
  | [] => defaultStep s
  | e :: rest => eventStep e { s with schedule := rest }

/-- The state in which the command of the table's bits `w` has just been accepted (10_state.md R40), and the engine
takes the next step. -/
def State.withFetchWord (s : State) (nbits w : Nat) : State :=
  { (s.accept (BitVec.ofNat 32 (w % 2 ^ nbits))) with schedule := [] }

end Sys2Proof.Machine
end

