-- ==== Sys2Proof/Safety.lean ====
section
/-! DEFINITION. What the claims speak of: the invariant of the machine, the runs of one command, and the pure functions
that say what ENCODE and DECODE leave in memory (41_packer.md R133; 42_unpacker.md R152). -/

namespace Sys2Proof.Machine

/-! ## The invariant -/

/-- The scan state a running command can have (10_state.md R49: `0 <= k <= T` for ENCODE, `0 <= k <= N*n` for
DECODE). -/
def ScanInv (i : Instr) (p : Params) (sc : Scan) : Prop :=
  match i with
  | .capacity _ => sc.next = .start
  | .check _ _ => sc.next = .start
  | .encode n kind =>
    match sc.next with
    | .start => True
    | .payload => encodeChecks n kind p = none ∧ sc.k < p.totalBits ∧ sc.k % 8 = 0 ∧ sc.k / 8 < p.payLen.toNat
    | .read => encodeChecks n kind p = none ∧ sc.k < p.totalBits
    | .write => encodeChecks n kind p = none ∧ sc.k < p.totalBits
    | .finish c =>
      encodeChecks n kind p = none ∧ sc.k ≤ p.totalBits ∧ (c = .busError ∨ (c = .ok ∧ sc.k = p.totalBits))
  | .decode n kind =>
    match sc.next with
    | .start => True
    | .payload => False
    | .read => decodeChecks n kind p = none ∧ sc.k < p.channelCount * n
    | .write => decodeChecks n kind p = none ∧ sc.k < p.channelCount * n ∧ sc.k % 8 = 7
    | .finish c =>
      decodeChecks n kind p = none ∧ sc.k ≤ p.channelCount * n ∧
        (c = .busError ∨ (c = scanOutcome sc ∧ sc.k = p.channelCount * n))

/-- What holds while a command runs: the snapshot equals the parameter registers and the latched word is CMD
(10_state.md R40, R46), DONE is 0 and ERRCODE is 0 (R51), and the scan state is one the command can have. -/
structure RunInv (s : State) (job : Job) : Prop where
  word : job.word = s.cmd
  params : job.params = s.params
  done : s.done = false
  errcode : s.errcode = .ok
  scan : ∀ i, decode job.word = .ok i → ScanInv i job.params job.scan

/-- The addresses of the list are of system memory (20_memory.md R60), and none stands in it twice. -/
def IsAddrSet (l : List Nat) : Prop := l.Nodup ∧ ∀ a ∈ l, a < Config.addrSpace

/-- The invariant of the machine: memory is in canonical form and inside the address space (20_memory.md R60), the
host's cache sets hold addresses of that space and none twice, and are empty where HOST_COHERENT holds (R80: "nothing is
required"), and a running command is as `RunInv` says. -/
structure Inv (s : State) : Prop where
  memWf : s.mem.wf = true
  memInSpace : s.mem.inSpace = true
  dirtySet : IsAddrSet s.dirty
  staleSet : IsAddrSet s.stale
  unsyncedSet : IsAddrSet s.unsynced
  coherent : s.platform.hostCoherent = true → s.dirty = [] ∧ s.stale = [] ∧ s.unsynced = []
  run : ∀ job, s.engine = .run job → RunInv s job

/-! ## Runs -/

/-- `m` steps of the engine that runs command `i`. -/
def execTimes (i : Instr) : Nat → State → StepResult
  | 0, s => .next s
  | m + 1, s =>
    match exec i s with
    | .next t => execTimes i m t
    | .fault f => .fault f
    | .refused r => .refused r

/-- One step of the engine for each answer of the memory, in their order. -/
def engineRun : List BusAnswer → State → StepResult
  | [], s => .next s
  | answer :: rest, s =>
    match engineStep { s with memAnswer := answer } with
    | .next t => engineRun rest t
    | .fault f => .fault f
    | .refused r => .refused r

/-- `m` steps of the machine. -/
def stepTimes : Nat → State → StepResult
  | 0, s => .next s
  | m + 1, s =>
    match step s with
    | .next t => stepTimes m t
    | .fault f => .fault f
    | .refused r => .refused r

/-- Whether an event is a step of the engine. -/
def Event.isEngine : Event → Bool
  | .engine _ => true
  | .host | .access _ _ _ | .memRead _ _ | .memWrite _ _ | .cacheClean _ _ | .cacheInvalidate _ _ | .reset _ => false

/-- The number of memory requests a command makes when it succeeds (70_reset_and_hazards.md R254). -/
def requestCount (i : Instr) (p : Params) : Nat :=
  match i with
  | .capacity _ => 0
  | .check _ _ => 0
  | .encode _ _ => p.payLen.toNat + 2 * p.totalBits
  | .decode n _ => p.channelCount * n + p.capacity n

/-- The engine has just been given the command: it runs, and nothing of the command has been done. -/
def State.starts (job : Job) (s : State) : Prop := s.engine = .run job ∧ job.scan = Scan.fresh

/-- The state with the engine's command completed with code `c` and no result register written. -/
def State.finished (c : Code) (s : State) : State := { s with errcode := c, done := true, engine := .idle }

/-! ## What one step of a command leaves alone -/

/-- What every step of the engine leaves alone: CTRL, OVR, CMD, the parameter registers, the host, the answer the host
got, the platform, the schedule and the host's unwritten bytes. -/
structure EngineFrame (s t : State) : Prop where
  ie : t.ie = s.ie
  ovr : t.ovr = s.ovr
  cmd : t.cmd = s.cmd
  params : t.params = s.params
  host : t.host = s.host
  reply : t.reply = s.reply
  platform : t.platform = s.platform
  schedule : t.schedule = s.schedule
  dirty : t.dirty = s.dirty

/-- The address the next step of a command stores a byte to; `none` where that step stores nothing (41_packer.md R132
step 3; 42_unpacker.md R151). -/
def storeAddr (i : Instr) (job : Job) : Option Nat := (nextWrite i job).map Prod.fst

/-- The address of the memory request that the next step of a command makes; `none` where that step is a completion
(41_packer.md R132; 42_unpacker.md R151). The first step makes the request of visit 0 where the checks pass and there is
one. -/
def requestAddr (i : Instr) (job : Job) : Option Nat :=
  match i with
  | .capacity _ => none
  | .check _ _ => none
  | .encode n kind =>
    match job.scan.next with
    | .start =>
      if (encodeChecks n kind job.params).isSome then none
      else if 0 < job.params.payLen.toNat then some (job.params.payAddr 0)
      else some (job.params.imgAddr 0)
    | .payload => some (job.params.payAddr (job.scan.k / 8))
    | .read | .write => some (visitAddr job.params job.scan)
    | .finish _ => none
  | .decode n kind =>
    match job.scan.next with
    | .start =>
      if (decodeChecks n kind job.params).isSome ∨ job.params.channelCount * n = 0 then none
      else some (job.params.imgAddr 0)
    | .payload | .read => some (visitAddr job.params job.scan)
    | .write => some (chunkAddr job.params job.scan)
    | .finish _ => none

/-! ## Registers and searches -/

/-- The registers that the host sets for a command (10_state.md R46). -/
def isParamReg (r : Reg) : Prop :=
  r = .imgBase ∨ r = .rows ∨ r = .cols ∨ r = .payBase ∨ r = .payLen ∨ r = .outBase ∨ r = .outSize

/-- The sentinel search of the engine over a whole byte sequence, from index `i` on. -/
def trackAll (i : Nat) (sc : Scan) : List Byte → Scan
  | [] => sc
  | b :: r => trackAll (i + 1) (trackSent i b sc) r

/-! ## What the commands leave in memory -/

/-- The effective payload byte `E(i)` (20_memory.md R63). -/
def effByte (p : Params) (m : Memory) (i : Nat) : Byte :=
  if i < p.payLen.toNat then m.read (p.payAddr i) else Config.sentByte

/-- The effective payload bit `S[k]` (43_bit_helpers.md R173). -/
def effBit (p : Params) (m : Memory) (k : Nat) : Bool := (effByte p m (k / 8)).getLsbD (7 - k % 8)

/-- The payload in memory (20_memory.md R62). -/
def payloadBytes (p : Params) (m : Memory) : List Byte :=
  (List.range p.payLen.toNat).map fun i => m.read (p.payAddr i)

/-- The plane bit `D[k]` of the image in memory (42_unpacker.md R152). -/
def imageBit (p : Params) (m : Memory) (k : Nat) : Bool :=
  plane (m.read (p.imgAddr (visitOffset p.channelCount k))) (visitPlane p.channelCount k)

/-- The byte `B[i]` that DECODE extracts (42_unpacker.md R152). -/
def chunkByte (p : Params) (m : Memory) (i : Nat) : Byte :=
  byteOf ((List.range 8).map fun t => imageBit p m (8 * i + t))

/-- The bytes `B[0 .. CAP)` that DECODE extracts at bit depth `n` (42_unpacker.md R150). -/
def extracted (p : Params) (m : Memory) (n : Nat) : List Byte := (List.range (p.capacity n)).map (chunkByte p m)

/-- Whether an address lies in the buffer of the given base and length. -/
def inBuffer (base : Word) (len a : Nat) : Prop := base.toNat ≤ a ∧ a < base.toNat + len

end Sys2Proof.Machine
end

