-- ==== Sys2Proof/Certificates/Slice0/Obligations.lean ====
section
/-! DEFINITION. The statements for the provers. Each docstring names the rules of spec/ it formalises. -/

open Sys2Proof Sys2Proof.Machine

/-! ## Command words -/

/-- 30_encoding.md R90, R91, R93: the word of every command the format can write, NBITS 0 to 15 and every KIND,
decodes to that command. -/
def Obligations.DecodeOfEncodeIsTheCommand : Prop :=
  ∀ i : Instr, i.wellFormed = true → decode (encode i) = .ok i

/-- 30_encoding.md R98: a word that names a command is the word of that command, and of no other. -/
def Obligations.EncodeOfDecodeIsTheWord : Prop :=
  ∀ (w : Word) (i : Instr), decode w = .ok i → i.wellFormed = true ∧ encode i = w

/-- 30_encoding.md R98: a word names a command exactly where it matches the row's pattern under the row's mask, and is
illegal where it matches none; with an illegal NBITS or KIND it is still that command and completes with code 2 or
3. -/
def Obligations.OpcodeMapByMatchAndMask : Prop :=
  (∀ w : Word,
    ((∃ n, decode w = .ok (.capacity n)) ↔ w &&& 0xFFFFFF0F = 0x00000001) ∧
    ((∃ n k, decode w = .ok (.check n k)) ↔ w &&& 0xFFFFFC0F = 0x00000002) ∧
    ((∃ n k, decode w = .ok (.encode n k)) ↔ w &&& 0xFFFFFC0F = 0x00000003) ∧
    ((∃ n k, decode w = .ok (.decode n k)) ↔ w &&& 0xFFFFFC0F = 0x00000004) ∧
    ((∃ r, decode w = .error r) ↔
      w &&& 0xFFFFFF0F ≠ 0x00000001 ∧ w &&& 0xFFFFFC0F ≠ 0x00000002 ∧ w &&& 0xFFFFFC0F ≠ 0x00000003 ∧
        w &&& 0xFFFFFC0F ≠ 0x00000004)) ∧
  (∀ (s : State) (job : Job) (i : Instr), s.starts job → decode job.word = .ok i →
    i.nbits < 1 ∨ i.nbits > 8 ∨ i.kind? = some .k2 ∨ i.kind? = some .k3 →
    ∃ c, (c = .invalidBitDepth ∨ c = .unsupportedInputType) ∧ engineStep s = .next (s.finished c))

/-- 30_encoding.md R99 and 95_test_vectors.md V6: the example words decode to the commands they are written for. -/
def Obligations.ExampleWordsDecode : Prop :=
  decode 0b00000000000000000000000000100001#32 = .ok (.capacity 2) ∧
  decode 0b00000000000000000000000000100010#32 = .ok (.check 2 .raw) ∧
  decode 0b00000000000000000000000000100011#32 = .ok (.encode 2 .raw) ∧
  decode 0b00000000000000000000000100100011#32 = .ok (.encode 2 .text) ∧
  decode 0b00000000000000000000000000100100#32 = .ok (.decode 2 .raw) ∧
  decode 0b00000000000000000000000000000011#32 = .ok (.encode 0 .raw) ∧
  decode 0b00000000000000000000001100100100#32 = .ok (.decode 2 .k3) ∧
  decode 0b00000000000000000000000000000000#32 = .error .reservedOp ∧
  decode 0b00000000000000000000010000100011#32 = .error .reservedBits ∧
  decode 0b00000000000000000000000100100001#32 = .error .capacityKind

/-- 30_encoding.md R95: the first failing test on the accepted word decides the outcome, with no memory request and
without writing CAP_LO, CAP_HI or MSG_LEN. -/
def Obligations.FirstFailingWordTestDecidesTheOutcome : Prop :=
  ∀ (s : State) (job : Job), s.starts job →
    let op := job.word.extractLsb' 0 4
    let n := (job.word.extractLsb' 4 4).toNat
    let kind := (job.word.extractLsb' 8 2).toNat
    let rsv := job.word.extractLsb' 10 22
    if ¬ (op = 1 ∨ op = 2 ∨ op = 3 ∨ op = 4) then engineStep s = .next (s.finished .illegalCommand)
    else if rsv ≠ 0 then engineStep s = .next (s.finished .illegalCommand)
    else if op = 1 ∧ kind ≠ 0 then engineStep s = .next (s.finished .illegalCommand)
    else if n < 1 ∨ n > 8 then engineStep s = .next (s.finished .invalidBitDepth)
    else if (op = 2 ∨ op = 3 ∨ op = 4) ∧ kind ≥ 2 then engineStep s = .next (s.finished .unsupportedInputType)
    else ∃ i, decode job.word = .ok i ∧ i.nbits = n ∧ engineStep s = exec i s

/-! ## The register port -/

/-- 10_state.md R26, R29: what a read of STATUS gives; the code is one of 0 to 9 (60_exceptions.md R200). -/
def Obligations.StatusReadsItsFields : Prop :=
  ∀ s : State,
    let w := s.readReg .status
    w.getLsbD 0 = s.busy ∧ w.getLsbD 1 = s.done ∧ w.getLsbD 2 = decide (w.extractLsb' 4 4 ≠ 0) ∧
    w.getLsbD 3 = false ∧ w.extractLsb' 4 4 = Code.bits s.errcode ∧ (w.extractLsb' 4 4).toNat ≤ 9 ∧
    w.getLsbD 8 = s.ovr ∧ w.extractLsb' 9 23 = 0

/-- 10_state.md R32 to R38: a parameter register written while the engine is idle reads back as written, ROWS and COLS
in their low 16 bits, and every other register reads as before. -/
def Obligations.ParameterRegistersReadBack : Prop :=
  ∀ (s : State) (r r' : Reg) (w : Word), s.busy = false → isParamReg r →
    (s.writeReg r w).readReg r' =
      if r' = r then (if r = .rows ∨ r = .cols then w &&& 0xFFFF else w) else s.readReg r'

/-- 10_state.md R45: a host write to a read-only register or field is ignored, answered OKAY, and does not set
OVR. -/
def Obligations.ReadOnlyWritesAreIgnored : Prop :=
  ∀ (s : State) (w : Word),
    (∀ r : Reg, r = .id ∨ r = .capLo ∨ r = .capHi ∨ r = .msgLen →
      s.portWrite (regOffset r) .word w = { s with reply := .okay }) ∧
    (let t := s.portWrite (regOffset .status) .word w
     t.engine = s.engine ∧ t.errcode = s.errcode ∧ t.err = s.err ∧ t.reply = .okay ∧ (t.ovr = true → s.ovr = true))

/-- 10_state.md R26, R28, R30: a write of STATUS clears DONE where bit 1 is 1 and OVR where bit 8 is 1, and changes
nothing else, whether or not the engine is busy. -/
def Obligations.StatusWriteClearsDoneAndOvr : Prop :=
  ∀ (s : State) (w : Word),
    s.portWrite 0x08 .word w =
      { s with
        done := if w.getLsbD 1 then false else s.done
        ovr := if w.getLsbD 8 then false else s.ovr
        reply := .okay }

/-- 10_state.md R43: reserved offsets and reserved bits read 0 and ignore writes; a write there changes no state. -/
def Obligations.ReservedOffsetsAndBitsReadZero : Prop :=
  (∀ (s : State) (off : BitVec 8) (w : Word), 0x38 ≤ off.toNat → off.toNat % 4 = 0 →
    s.portRead off .word = { s with reply := .data 0 } ∧ s.portWrite off .word w = { s with reply := .okay }) ∧
  (∀ s : State, (s.readReg .ctrl).extractLsb' 1 31 = 0 ∧ (s.readReg .status).getLsbD 3 = false ∧
    (s.readReg .status).extractLsb' 9 23 = 0 ∧ (s.readReg .rows).extractLsb' 16 16 = 0 ∧
    (s.readReg .cols).extractLsb' 16 16 = 0) ∧
  (∀ (s : State) (w : Word), s.writeReg .ctrl w = s.writeReg .ctrl (w &&& 1) ∧
    s.writeReg .status w = s.writeReg .status (w &&& 0x102) ∧
    s.writeReg .rows w = s.writeReg .rows (w &&& 0xFFFF) ∧ s.writeReg .cols w = s.writeReg .cols (w &&& 0xFFFF))

/-- 10_state.md R44: a transaction of another width or at an offset that is no multiple of 4 is answered ERROR and
changes no state; a read of any register changes nothing. -/
def Obligations.UnadmittedAccessIsAnsweredError : Prop :=
  (∀ (s : State) (off : BitVec 8) (width : Width) (w : Word), width ≠ .word ∨ off.toNat % 4 ≠ 0 →
    s.portRead off width = { s with reply := .error } ∧ s.portWrite off width w = { s with reply := .error }) ∧
  (∀ (s : State) (off : BitVec 8), off.toNat % 4 = 0 → ∃ w, s.portRead off .word = { s with reply := .data w }) ∧
  (∀ (s : State) (r : Reg), s.portRead (regOffset r) .word = { s with reply := .data (s.readReg r) })

/-- 10_state.md R46, R25: while BUSY is 1 a write of CMD or of a parameter register is dropped, sets OVR and is answered
OKAY. A write of CTRL sets IE to its bit 0, and one of STATUS acts, whether or not the engine is busy, and each changes
nothing else. -/
def Obligations.WritesWhileBusyAreDropped : Prop :=
  ∀ (s : State) (w : Word),
    (s.busy = true → ∀ r : Reg, r = .cmd ∨ isParamReg r →
      s.portWrite (regOffset r) .word w = { s with ovr := true, reply := .okay }) ∧
    s.portWrite (regOffset .ctrl) .word w = { s with ie := w.getLsbD 0, reply := .okay } ∧
    s.portWrite (regOffset .status) .word w =
      { s with done := s.done && !w.getLsbD 1, ovr := s.ovr && !w.getLsbD 8, reply := .okay }

/-- 10_state.md R23: the registers stand at their offsets from REG_BASE. That the offset is taken modulo 2^32, so that a
window at the top of the bus address space goes on at address 0, and that a transaction outside the window leaves the
whole state alone, the host's answer too, are the model's choice (log entry 16). -/
def Obligations.RegisterWindowStandsAtRegBase : Prop :=
  ∀ (s : State) (width : Width) (data : Option Word),
    (∀ off : BitVec 8, s.access (s.platform.regBase + off.setWidth 32) width data =
      match data with
      | none => s.portRead off width
      | some w => s.portWrite off width w) ∧
    (∀ addr : Word, 0x100 ≤ (addr - s.platform.regBase).toNat → s.access addr width data = s)

/-- 10_state.md R47: irq is the level DONE AND IE. It follows a write of CTRL while DONE is 1, falls with a W1C of DONE,
with an acceptance and with reset, and after a completion it is IE. -/
def Obligations.IrqIsDoneAndIe : Prop :=
  (∀ s : State, s.irq = ((s.readReg .status).getLsbD 1 && (s.readReg .ctrl).getLsbD 0)) ∧
  (∀ (s : State) (w : Word), (s.writeReg .ctrl w).irq = (s.done && w.getLsbD 0)) ∧
  (∀ (s : State) (w : Word), (s.writeReg .status w).irq = (s.irq && !w.getLsbD 1)) ∧
  (∀ (s : State) (w : Word), s.busy = false → (s.writeReg .cmd w).irq = false) ∧
  (∀ (s : State) (landed : Bool), (s.resetEvent landed).irq = false) ∧
  (∀ s t : State, s.busy = true → engineStep s = .next t → t.busy = false → t.irq = s.ie)

/-! ## Acceptance and completion -/

/-- 10_state.md R40: a write of CMD while BUSY is 0 latches the word, whatever it is, sets BUSY, clears DONE and
ERRCODE and snapshots the parameter registers; OVR, CTRL, CAP_LO, CAP_HI, MSG_LEN and the parameters stay. While the
command runs the snapshot equals the registers. -/
def Obligations.AcceptanceLatchesTheCommand : Prop :=
  (∀ (s : State) (w : Word), s.busy = false →
    let t := s.writeReg .cmd w
    t.cmd = w ∧ t.busy = true ∧ t.done = false ∧ t.errcode = .ok ∧ t.err = false ∧
    (∃ job, t.engine = .run job ∧ job.word = w ∧ job.params = s.params ∧ job.scan.next = .start) ∧
    t.ovr = s.ovr ∧ t.ie = s.ie ∧ t.cap = s.cap ∧ t.msgLen = s.msgLen ∧ t.params = s.params) ∧
  (∀ (s : State) (job : Job), Inv s → s.engine = .run job → job.params = s.params ∧ job.word = s.cmd)

/-- 10_state.md R40 and 20_memory.md R74: where no cache line of the command's buffers waits to be written back and none
of them is a device, acceptance is exactly the latch and the command starts with a fresh scan state; over a device range
it starts open (R68), which log entry 6 codes as the mark `unfixed`. -/
def Obligations.AcceptanceOfAPreparedCommand : Prop :=
  ∀ (s : State) (w : Word), s.busy = false →
    let job : Job := { word := w, params := s.params, scan := Scan.fresh }
    s.unclean job = false →
    s.writeReg .cmd w =
      { s with
        cmd := w, done := false, errcode := .ok
        engine := .run { job with scan := { Scan.fresh with unfixed := s.onDevice job } } }

/-- 10_state.md R41, R51 and 60_exceptions.md R205: a step of the engine either keeps it running and leaves the result
registers, STATUS and the copies the host must invalidate alone, or is the completion, which sets DONE, clears BUSY and
leaves memory alone. -/
def Obligations.CompletionAloneWritesTheResults : Prop :=
  ∀ s t : State, s.busy = true → engineStep s = .next t →
    (t.busy = true ∧ t.cap = s.cap ∧ t.msgLen = s.msgLen ∧ t.done = s.done ∧ t.errcode = s.errcode ∧ t.ovr = s.ovr ∧
      t.unsynced = s.unsynced) ∨
    (t.busy = false ∧ t.done = true ∧ t.mem = s.mem ∧ t.ovr = s.ovr)

/-- 40_planner.md R111 and 10_state.md R39: the completion of every command that reached its capacity step records
CAP exactly, `CAP_HI ‖ CAP_LO`; an outcome of the prologue leaves it. -/
def Obligations.CompletionRecordsTheCapacity : Prop :=
  ∀ (i : Instr) (s t : State) (job : Job), s.engine = .run job → job.scan.unfixed = false →
    exec i s = .next t → t.engine = .idle →
    if t.errcode = .invalidBitDepth ∨ t.errcode = .unsupportedInputType ∨ t.errcode = .illegalCommand then
      t.cap = s.cap
    else
      t.cap = BitVec.ofNat 34 (job.params.rows.toNat * job.params.cols.toNat * 3 * i.nbits / 8) ∧
      (i.nbits ≤ 8 → (t.readReg .capHi).toNat * 2 ^ 32 + (t.readReg .capLo).toNat =
        job.params.rows.toNat * job.params.cols.toNat * 3 * i.nbits / 8)

/-- 10_state.md R42: only the completion of a DECODE with outcome 0 or 4 writes MSG_LEN. -/
def Obligations.OnlyDecodeWritesMsgLen : Prop :=
  ∀ (i : Instr) (s t : State) (job : Job), s.engine = .run job → job.scan.unfixed = false →
    exec i s = .next t → t.msgLen ≠ s.msgLen →
    (∃ n k, i = .decode n k) ∧ t.engine = .idle ∧ (t.errcode = .ok ∨ t.errcode = .sentinelNotFound)

/-- The frame of all four commands (10_state.md R51; 20_memory.md R60 to R64): a step of CAPACITY, CHECK, ENCODE or
DECODE leaves CTRL, OVR, CMD, the parameters, the host and everything outside alone, and every byte of memory but the
one it stores to. Where a race or a device buffer has opened the command, the byte it reads may change too (R68; log
entry 6), and none but the byte of its request. -/
def Obligations.CommandFrame : Prop :=
  ∀ (i : Instr) (s t : State) (job : Job), s.engine = .run job → exec i s = .next t →
    EngineFrame s t ∧
    (job.scan.unfixed = false → storeAddr i job = none → ∀ a, t.mem.read a = s.mem.read a) ∧
    (∀ b, storeAddr i job = some b → ∀ a, a ≠ b → t.mem.read a = s.mem.read a) ∧
    (requestAddr i job = none → ∀ a, t.mem.read a = s.mem.read a) ∧
    (∀ b, requestAddr i job = some b → ∀ a, a ≠ b → t.mem.read a = s.mem.read a)

/-! ## The planner -/

/-- 40_planner.md R112: CAPACITY completes in one step, with code 2 for an illegal bit depth and with code 0 and the
exact capacity for every other, and changes nothing else. -/
def Obligations.CapacityCompletes : Prop :=
  ∀ (n : Nat) (s : State) (job : Job), s.engine = .run job → job.scan.unfixed = false →
    exec (.capacity n) s = .next (
      if n < 1 ∨ n > 8 then s.finished .invalidBitDepth
      else { s.finished .ok with cap := BitVec.ofNat 34 (job.params.rows.toNat * job.params.cols.toNat * 3 * n / 8) })

/-- 40_planner.md R113, R114: CHECK completes in one step, with code 2 or 3 for an illegal operand, else with code 1
exactly where `PAY_LEN + 5 > CAP` and code 0 otherwise, recording CAP, and changes nothing else. -/
def Obligations.CheckCompletes : Prop :=
  ∀ (n : Nat) (kind : Kind) (s : State) (job : Job), s.engine = .run job → job.scan.unfixed = false →
    let cap := job.params.rows.toNat * job.params.cols.toNat * 3 * n / 8
    exec (.check n kind) s = .next (
      if n < 1 ∨ n > 8 then s.finished .invalidBitDepth
      else if kind = .k2 ∨ kind = .k3 then s.finished .unsupportedInputType
      else if job.params.payLen.toNat + 5 > cap then
        { s.finished .insufficientCapacity with cap := BitVec.ofNat 34 cap }
      else { s.finished .ok with cap := BitVec.ofNat 34 cap })

/-- 00_scope.md R13 and 40_planner.md R115: the derived quantities stay inside their widths, so nothing wraps. -/
def Obligations.DerivedQuantitiesNeverWrap : Prop :=
  ∀ (p : Params) (n : Nat), n ≤ 8 →
    p.channelCount = p.rows.toNat * p.cols.toNat * 3 ∧ p.channelCount < 2 ^ 34 ∧
    p.capacity n = p.channelCount * n / 8 ∧ p.capacity n < 2 ^ 34 ∧ (p.capField n).toNat = p.capacity n ∧
    p.effLen = p.payLen.toNat + 5 ∧ p.effLen < 2 ^ 33 ∧ p.totalBits = 8 * p.effLen ∧
    p.channelCount * n ≤ 103076069400

/-- 40_planner.md R116: a payload that fits has a plane bit for each of its bits, so the packer's scan never runs past
the last plane, and an ENCODE whose checks pass has a payload that fits. -/
def Obligations.FittingImpliesRoomForEveryBit : Prop :=
  ∀ (p : Params) (n : Nat),
    (p.effLen ≤ p.capacity n →
      p.totalBits ≤ 8 * p.capacity n ∧ 8 * p.capacity n ≤ p.channelCount * n ∧
      ∀ k < p.totalBits, 1 ≤ visitPlane p.channelCount k ∧ visitPlane p.channelCount k ≤ n ∧
        visitOffset p.channelCount k < p.channelCount) ∧
    (∀ kind, encodeChecks n kind p = none → p.effLen ≤ p.capacity n)

/-! ## The packer -/

/-- 60_exceptions.md R201, R203, R204 and 41_packer.md R130: the first failing check of ENCODE completes it with its
code, with no memory request; codes 1, 7 and 8 record CAP. -/
def Obligations.EncodeChecksInOrder : Prop :=
  ∀ (n : Nat) (kind : Kind) (s : State) (job : Job), s.starts job →
    let p := job.params
    let count := p.rows.toNat * p.cols.toNat * 3
    let cap := count * n / 8
    let len := p.payLen.toNat
    let img := p.imgBase.toNat
    let pay := p.payBase.toNat
    if n < 1 ∨ n > 8 then exec (.encode n kind) s = .next (s.finished .invalidBitDepth)
    else if kind = .k2 ∨ kind = .k3 then exec (.encode n kind) s = .next (s.finished .unsupportedInputType)
    else if len + 5 > cap then
      exec (.encode n kind) s = .next { s.finished .insufficientCapacity with cap := BitVec.ofNat 34 cap }
    else if img + count > 2 ^ 32 ∨ pay + len > 2 ^ 32 then
      exec (.encode n kind) s = .next { s.finished .addressRange with cap := BitVec.ofNat 34 cap }
    else if 0 < count ∧ 0 < len ∧ img < pay + len ∧ pay < img + count then
      exec (.encode n kind) s = .next { s.finished .bufferOverlap with cap := BitVec.ofNat 34 cap }
    else encodeChecks n kind p = none

/-- 41_packer.md R132: the first step of an ENCODE whose checks pass is its first request, a payload read, or an image
read where the payload is empty. -/
def Obligations.EncodeMakesItsFirstRequest : Prop :=
  ∀ (n : Nat) (kind : Kind) (s : State) (job : Job), s.starts job → s.verdict = .okay →
    encodeChecks n kind job.params = none →
    exec (.encode n kind) s = .next (
      if 0 < job.params.payLen.toNat then
        { s with
          memAnswer := .okay
          engine := .run { job with
            scan := { Scan.fresh with next := .read, pb := s.mem.read job.params.payBase.toNat } } }
      else
        { s with
          memAnswer := .okay
          engine := .run { job with
            scan := { Scan.fresh with next := .write, pb := 0x3D, v := s.mem.read job.params.imgBase.toNat } } })

/-- 41_packer.md R132: the requests of visit `k` of ENCODE: the payload byte into PB, the channel value at
`k mod N`, and that value with plane `k div N + 1` replaced by bit `7 - (k mod 8)` of PB, after which visit `k + 1`
begins, with its own payload byte or sentinel byte where it is the first of eight, or the command finishes. -/
def Obligations.EncodeRequestSequence : Prop :=
  ∀ (n : Nat) (kind : Kind) (s : State) (job : Job), s.engine = .run job → job.scan.unfixed = false →
    s.verdict = .okay →
    let p := job.params
    let sc := job.scan
    let pay := p.payBase.toNat + sc.k / 8
    let img := p.imgBase.toNat + sc.k % p.channelCount
    (sc.next = .payload → pay < 2 ^ 32 →
      exec (.encode n kind) s = .next
        { s with
          memAnswer := .okay
          engine := .run { job with scan := { sc with next := .read, pb := s.mem.read pay } } }) ∧
    (sc.next = .read → img < 2 ^ 32 →
      exec (.encode n kind) s = .next
        { s with
          memAnswer := .okay
          engine := .run { job with scan := { sc with next := .write, v := s.mem.read img } } }) ∧
    (sc.next = .write → img < 2 ^ 32 →
      exec (.encode n kind) s = .next
        { s with
          memAnswer := .okay
          mem := s.mem.write img
            (setPlane sc.v (sc.k / p.channelCount + 1) (sc.pb.getLsbD (7 - sc.k % 8)))
          stale := if s.platform.hostCoherent then s.stale else addAddr s.stale img
          engine := .run { job with
            scan :=
              if sc.k + 1 < p.totalBits then
                if (sc.k + 1) % 8 = 0 then
                  if (sc.k + 1) / 8 < p.payLen.toNat then { sc with k := sc.k + 1, next := .payload }
                  else { sc with k := sc.k + 1, next := .read, pb := 0x3D }
                else { sc with k := sc.k + 1, next := .read }
              else { sc with k := sc.k + 1, next := .finish .ok } } })

/-- 41_packer.md R131 and 60_exceptions.md R205: the last step of a scanning ENCODE is its completion, with CAP recorded
and MSG_LEN unchanged. Without HOST_COHERENT the host must invalidate its copies of the image from then on before it
reads them (20_memory.md R80), which the model keeps as a set of addresses (log entry 13). -/
def Obligations.EncodeCompletes : Prop :=
  ∀ (n : Nat) (kind : Kind) (s : State) (job : Job) (c : Code), s.engine = .run job → job.scan.unfixed = false →
    job.scan.next = .finish c → c = .ok ∨ c = .busError →
    let count := job.params.rows.toNat * job.params.cols.toNat * 3
    exec (.encode n kind) s = .next
      { s.finished c with
        cap := BitVec.ofNat 34 (count * n / 8)
        unsynced :=
          if s.platform.hostCoherent then s.unsynced
          else addRanges s.unsynced [(job.params.imgBase.toNat, count)] }

/-- 41_packer.md R131, R133, R134, R135 and 70_reset_and_hazards.md R254: an ENCODE whose checks pass and whose
requests are answered OKAY makes exactly `PAY_LEN + 2T` requests and then completes with code 0; it has replaced bit
`q - 1` of channel value `j` by `S[(q-1)*N + j]` for every plane `q` in 1..n with `(q-1)*N + j < T`, and changed no
other bit of any channel value, no byte outside the image, not MSG_LEN and nothing of what `EngineFrame` names. -/
def Obligations.EncodeEmbedsThePayload : Prop :=
  ∀ (n : Nat) (kind : Kind) (s : State) (job : Job), s.starts job → s.verdict = .okay → s.mem.wf = true →
    encodeChecks n kind job.params = none →
    let p := job.params
    let count := p.rows.toNat * p.cols.toNat * 3
    let bits := 8 * (p.payLen.toNat + 5)
    (∃ u, execTimes (.encode n kind) (p.payLen.toNat + 2 * bits) s = .next u ∧ u.busy = true) ∧
    ∃ t, execTimes (.encode n kind) (p.payLen.toNat + 2 * bits + 1) s = .next t ∧
      t.engine = .idle ∧ t.done = true ∧ t.errcode = .ok ∧
      t.cap = BitVec.ofNat 34 (count * n / 8) ∧ t.msgLen = s.msgLen ∧ EngineFrame s t ∧
      (∀ j < count, ∀ b < 8, (t.mem.read (p.imgBase.toNat + j)).getLsbD b =
        if b < n ∧ b * count + j < bits then effBit p s.mem (b * count + j)
        else (s.mem.read (p.imgBase.toNat + j)).getLsbD b) ∧
      (∀ a, ¬ inBuffer p.imgBase count a → t.mem.read a = s.mem.read a)

/-! ## The unpacker -/

/-- 60_exceptions.md R201, R203, R204 and 42_unpacker.md R150: the first failing check of DECODE completes it with its
code, with no memory request; codes 6, 7 and 8 record CAP. -/
def Obligations.DecodeChecksInOrder : Prop :=
  ∀ (n : Nat) (kind : Kind) (s : State) (job : Job), s.starts job →
    let p := job.params
    let count := p.rows.toNat * p.cols.toNat * 3
    let cap := count * n / 8
    let img := p.imgBase.toNat
    let out := p.outBase.toNat
    if n < 1 ∨ n > 8 then exec (.decode n kind) s = .next (s.finished .invalidBitDepth)
    else if kind = .k2 ∨ kind = .k3 then exec (.decode n kind) s = .next (s.finished .unsupportedInputType)
    else if p.outSize.toNat < cap then
      exec (.decode n kind) s = .next { s.finished .outputTooSmall with cap := BitVec.ofNat 34 cap }
    else if img + count > 2 ^ 32 ∨ out + cap > 2 ^ 32 then
      exec (.decode n kind) s = .next { s.finished .addressRange with cap := BitVec.ofNat 34 cap }
    else if 0 < count ∧ 0 < cap ∧ img < out + cap ∧ out < img + count then
      exec (.decode n kind) s = .next { s.finished .bufferOverlap with cap := BitVec.ofNat 34 cap }
    else decodeChecks n kind p = none

/-- 42_unpacker.md R150, R151: the first step of a DECODE whose checks pass reads the first channel value and takes its
plane 1 bit; an image of no channel values completes with code 4 and MSG_LEN 0 at once. -/
def Obligations.DecodeMakesItsFirstRequest : Prop :=
  ∀ (n : Nat) (kind : Kind) (s : State) (job : Job), s.starts job → s.verdict = .okay →
    decodeChecks n kind job.params = none →
    exec (.decode n kind) s = .next (
      if job.params.channelCount = 0 then { s.finished .sentinelNotFound with cap := 0, msgLen := 0 }
      else
        { s with
          memAnswer := .okay
          engine := .run { job with
            scan := { Scan.fresh with
              k := 1, next := .read, v := s.mem.read job.params.imgBase.toNat
              acc := if (s.mem.read job.params.imgBase.toNat).getLsbD 0 then 1 else 0 } } })

/-- 42_unpacker.md R151: the requests of visit `k` of DECODE: the read of the channel value at `k mod N`, whose bit of
plane `k div N + 1` enters ACC, and where `k mod 8 = 7` the write of ACC at `OUT_BASE + k div 8`; visit `k + 1` follows
until `k = N * n`, also after a sentinel. -/
def Obligations.DecodeRequestSequence : Prop :=
  ∀ (n : Nat) (kind : Kind) (s : State) (job : Job), s.engine = .run job → job.scan.unfixed = false →
    s.verdict = .okay →
    let p := job.params
    let sc := job.scan
    let img := p.imgBase.toNat + sc.k % p.channelCount
    let out := p.outBase.toNat + sc.k / 8
    (sc.next = .read → img < 2 ^ 32 →
      let v := s.mem.read img
      let acc := shiftIn sc.acc (plane v (sc.k / p.channelCount + 1))
      let after := fun c : Code => if sc.k + 1 < p.channelCount * n then Pending.read else Pending.finish c
      exec (.decode n kind) s = .next
        { s with
          memAnswer := .okay
          engine := .run { job with
            scan :=
              if sc.k % 8 = 7 then { sc with next := .write, v := v, acc := acc }
              else { sc with k := sc.k + 1, next := after (scanOutcome sc), v := v, acc := acc } } }) ∧
    (sc.next = .write → out < 2 ^ 32 →
      let tr := trackSent (sc.k / 8) sc.acc sc
      exec (.decode n kind) s = .next
        { s with
          memAnswer := .okay
          mem := s.mem.write out sc.acc
          stale := if s.platform.hostCoherent then s.stale else addAddr s.stale out
          engine := .run { job with
            scan := { tr with
              k := sc.k + 1
              next := if sc.k + 1 < p.channelCount * n then .read else .finish (scanOutcome tr) } } })

/-- 42_unpacker.md R153 and 10_state.md R42: the last step of a scanning DECODE is its completion, with CAP recorded;
code 0 records the sentinel's index in MSG_LEN, code 4 records CAP, and code 9 leaves MSG_LEN. Without HOST_COHERENT the
host must invalidate its copies of the image and of the output bytes from then on (20_memory.md R80; log entry 13). -/
def Obligations.DecodeCompletes : Prop :=
  ∀ (n : Nat) (kind : Kind) (s : State) (job : Job), s.engine = .run job → job.scan.unfixed = false →
    let count := job.params.rows.toNat * job.params.cols.toNat * 3
    let cap := count * n / 8
    let ended : State :=
      { s with
        cap := BitVec.ofNat 34 cap
        unsynced :=
          if s.platform.hostCoherent then s.unsynced
          else addRanges s.unsynced [(job.params.imgBase.toNat, count), (job.params.outBase.toNat, cap)] }
    (∀ m, job.scan.next = .finish .ok → job.scan.found = some m →
      exec (.decode n kind) s = .next { ended.finished .ok with msgLen := BitVec.ofNat 32 m }) ∧
    (job.scan.next = .finish .sentinelNotFound →
      exec (.decode n kind) s = .next { ended.finished .sentinelNotFound with msgLen := BitVec.ofNat 32 cap }) ∧
    (job.scan.next = .finish .busError → exec (.decode n kind) s = .next (ended.finished .busError))

/-- 42_unpacker.md R150 to R154 and 70_reset_and_hazards.md R254: a DECODE whose checks pass and whose requests are
answered OKAY makes exactly `N*n + CAP` requests and then completes; the output buffer holds the CAP extracted bytes,
no other byte of memory and nothing of what `EngineFrame` names has changed, and the outcome is code 0 with MSG_LEN the
first sentinel's index, or code 4 with MSG_LEN = CAP where there is none. -/
def Obligations.DecodeExtractsTheBytes : Prop :=
  ∀ (n : Nat) (kind : Kind) (s : State) (job : Job), s.starts job → s.verdict = .okay → s.mem.wf = true →
    decodeChecks n kind job.params = none →
    let p := job.params
    let count := p.rows.toNat * p.cols.toNat * 3
    let cap := count * n / 8
    (∃ u, execTimes (.decode n kind) (count * n + cap) s = .next u ∧ u.busy = true) ∧
    ∃ t, execTimes (.decode n kind) (count * n + cap + 1) s = .next t ∧
      t.engine = .idle ∧ t.done = true ∧ t.cap = BitVec.ofNat 34 cap ∧ EngineFrame s t ∧
      (∀ i < cap, t.mem.read (p.outBase.toNat + i) = chunkByte p s.mem i) ∧
      (∀ a, ¬ inBuffer p.outBase cap a → t.mem.read a = s.mem.read a) ∧
      (match firstSent (extracted p s.mem n) with
       | some m => t.errcode = .ok ∧ t.msgLen.toNat = m
       | none => t.errcode = .sentinelNotFound ∧ t.msgLen.toNat = cap)

/-! ## ENCODE and DECODE together -/

/-- 42_unpacker.md R157: an image encoded with payload `P` and decoded at any depth whose planes hold all of
`P ‖ SENT` gives `P ‖ SENT` back; the outcome is code 0, MSG_LEN is the first sentinel's index in `P ‖ SENT`, at most
`|P|`, and it is `|P|` exactly where `P` holds no sentinel and is empty or does not end in `=`. -/
def Obligations.DecodeRecoversWhatEncodeEmbedded : Prop :=
  ∀ (ne nd : Nat) (ke kd : Kind) (s t s2 : State) (job job2 : Job),
    s.starts job → s.verdict = .okay → s.mem.wf = true → encodeChecks ne ke job.params = none →
    execTimes (.encode ne ke) (requestCount (.encode ne ke) job.params + 1) s = .next t →
    s2.starts job2 → s2.verdict = .okay → s2.mem = t.mem → decodeChecks nd kd job2.params = none →
    job2.params.imgBase = job.params.imgBase → job2.params.rows = job.params.rows →
    job2.params.cols = job.params.cols → 8 * job.params.effLen ≤ job.params.channelCount * nd →
    let pay := payloadBytes job.params s.mem
    ∃ u, execTimes (.decode nd kd) (requestCount (.decode nd kd) job2.params + 1) s2 = .next u ∧
      u.engine = .idle ∧ u.errcode = .ok ∧
      (∀ i, i < pay.length + 5 → u.mem.read (job2.params.outAddr i) = (pay ++ sentinel).getD i 0) ∧
      firstSent (pay ++ sentinel) = some u.msgLen.toNat ∧
      u.msgLen.toNat ≤ pay.length ∧
      (u.msgLen.toNat = pay.length ↔
        firstSent pay = none ∧ (pay = [] ∨ pay.getLast? ≠ some 0x3D))

/-- 42_unpacker.md R158 (b): an image encoded with payload `P` and decoded at a depth whose planes do not hold all of
`P ‖ SENT` gives the first `CAP_d` bytes of `P ‖ SENT`, fewer than `L`; the outcome is code 0 with MSG_LEN the index
of a sentinel that starts before `|P|`, or code 4 with MSG_LEN = `CAP_d`. -/
def Obligations.DecodeAtASmallerDepthTruncates : Prop :=
  ∀ (ne nd : Nat) (ke kd : Kind) (s t s2 : State) (job job2 : Job),
    s.starts job → s.verdict = .okay → s.mem.wf = true → encodeChecks ne ke job.params = none →
    execTimes (.encode ne ke) (requestCount (.encode ne ke) job.params + 1) s = .next t →
    s2.starts job2 → s2.verdict = .okay → s2.mem = t.mem → decodeChecks nd kd job2.params = none →
    job2.params.imgBase = job.params.imgBase → job2.params.rows = job.params.rows →
    job2.params.cols = job.params.cols → job.params.channelCount * nd < 8 * job.params.effLen →
    let pay := payloadBytes job.params s.mem
    let capd := job.params.channelCount * nd / 8
    ∃ u, execTimes (.decode nd kd) (requestCount (.decode nd kd) job2.params + 1) s2 = .next u ∧
      u.engine = .idle ∧ capd < pay.length + 5 ∧
      (∀ i < capd, u.mem.read (job2.params.outAddr i) = (pay ++ sentinel).getD i 0) ∧
      ((u.errcode = .ok ∧ u.msgLen.toNat < pay.length ∧ firstSent (pay ++ sentinel) = some u.msgLen.toNat) ∨
        (u.errcode = .sentinelNotFound ∧ u.msgLen.toNat = capd))

/-- 41_packer.md R138 and 30_encoding.md R93: KIND 0 and KIND 1 give the same step of CHECK, ENCODE and DECODE in every
state. -/
def Obligations.RawAndTextAreProcessedIdentically : Prop :=
  ∀ (n : Nat) (s : State),
    exec (.check n .raw) s = exec (.check n .text) s ∧
    exec (.encode n .raw) s = exec (.encode n .text) s ∧
    exec (.decode n .raw) s = exec (.decode n .text) s

/-- 20_memory.md R70 and 60_exceptions.md R202: where BUS_ERROR_POSSIBLE does not hold every request is answered OKAY. A
request answered ERROR, the first of a command too, ends the command: a failing write has landed with the request's byte
or has not, a read changes no byte, the engine makes no further request, and its next step completes with code 9 and
records CAP. -/
def Obligations.BusErrorEndsTheCommand : Prop :=
  (∀ s : State, s.platform.busErrorPossible = false → s.verdict = .okay) ∧
  (∀ s : State, s.platform.busErrorPossible = true → s.verdict = s.memAnswer) ∧
  ∀ (i : Instr) (s : State) (job : Job) (a : Nat) (landed : Bool), s.engine = .run job → job.scan.unfixed = false →
    requestAddr i job = some a → a < 2 ^ 32 → s.verdict = .error landed →
    ∃ t u, exec i s = .next t ∧ exec i t = .next u ∧
      t.mem = (match nextWrite i job with
        | some (x, b) => if landed then s.mem.write x b else s.mem
        | none => s.mem) ∧
      (∀ x b, nextWrite i job = some (x, b) → x = a) ∧
      t.busy = true ∧ t.cap = s.cap ∧ t.msgLen = s.msgLen ∧ t.done = s.done ∧ t.errcode = s.errcode ∧
      EngineFrame s u ∧ u.engine = .idle ∧ u.done = true ∧ u.errcode = .busError ∧ u.mem = t.mem ∧
      u.msgLen = s.msgLen ∧
      u.cap = BitVec.ofNat 34 (job.params.rows.toNat * job.params.cols.toNat * 3 * i.nbits / 8)

/-! ## The helpers -/

/-- 43_bit_helpers.md R170, R171: the bits of a byte, bit 7 first; the byte of 8 bits as a base-2 integer, first bit
most significant; each undoes the other. -/
def Obligations.BitsAndBytesAreInverse : Prop :=
  (∀ b : Byte, (bitsOf b).length = 8 ∧ ∀ t < 8, (bitsOf b).getD t false = b.getLsbD (7 - t)) ∧
  bitsOf 0x48 = [false, true, false, false, true, false, false, false] ∧
  bitsOf 0x3D = [false, false, true, true, true, true, false, true] ∧
  (∀ s : List Bool, s.length = 8 →
    (byteOf s).toNat = ((List.range 8).map fun t => (s.getD t false).toNat * 2 ^ (7 - t)).sum) ∧
  (∀ b : Byte, byteOf (bitsOf b) = b) ∧
  (∀ s : List Bool, s.length = 8 → bitsOf (byteOf s) = s)

/-- 43_bit_helpers.md R174: `Plane` and `SetPlane`, which changes bit `q - 1` only, with its three laws and the rule's
examples. -/
def Obligations.SetPlaneChangesOneBit : Prop :=
  (∀ (v : Byte) (q : Nat) (b : Bool), 1 ≤ q → q ≤ 8 →
    plane v q = v.getLsbD (q - 1) ∧
    setPlane v q b = (v &&& (0xFF ^^^ (1 <<< (q - 1)))) ||| (BitVec.ofNat 8 b.toNat <<< (q - 1)) ∧
    (∀ t < 8, t ≠ q - 1 → (setPlane v q b).getLsbD t = v.getLsbD t) ∧ (setPlane v q b).getLsbD (q - 1) = b ∧
    plane (setPlane v q b) q = b ∧
    (∀ p, 1 ≤ p → p ≤ 8 → p ≠ q → plane (setPlane v q b) p = plane v p) ∧
    setPlane v q (plane v q) = v) ∧
  setPlane 0xFF 1 false = 0xFE ∧ setPlane 0x00 8 true = 0x80 ∧ setPlane 0xA5 3 false = 0xA1

/-- 43_bit_helpers.md R172: the index `k` visits each pair of a plane and a channel offset once, in the order of plane,
row, column and channel; an image of no channel values has no visits. -/
def Obligations.ScanOrderIsPlaneMajorRowMajor : Prop :=
  ∀ (rows cols n : Nat),
    let count := rows * cols * 3
    (∀ k < count * n, 1 ≤ visitPlane count k ∧ visitPlane count k ≤ n ∧ visitOffset count k < count ∧
      k = (visitPlane count k - 1) * count + visitOffset count k) ∧
    (∀ q j, 1 ≤ q → q ≤ n → j < count →
      (q - 1) * count + j < count * n ∧ visitPlane count ((q - 1) * count + j) = q ∧
      visitOffset count ((q - 1) * count + j) = j) ∧
    (∀ k k', k < k' → k' < count * n →
      visitPlane count k < visitPlane count k' ∨
        (visitPlane count k = visitPlane count k' ∧ visitOffset count k < visitOffset count k')) ∧
    (∀ j < count, pixelOf cols j = (j / (3 * cols), j / 3 % cols, j % 3) ∧
      (pixelOf cols j).1 < rows ∧ (pixelOf cols j).2.1 < cols ∧ (pixelOf cols j).2.2 < 3 ∧
      channelOffset cols (pixelOf cols j).1 (pixelOf cols j).2.1 (pixelOf cols j).2.2 = j) ∧
    (∀ r c ch, channelOffset cols r c ch = 3 * (r * cols + c) + ch) ∧
    (rows = 0 ∨ cols = 0 → ∀ k, ¬ k < count * n)

/-- 43_bit_helpers.md R173: the effective payload is the payload's bytes and then 0x3D; bit `k` of its bit string
is bit `7 - (k mod 8)` of `E(k div 8)`, and the string has length `8L`. -/
def Obligations.EffectivePayloadBitString : Prop :=
  ∀ (p : Params) (m : Memory),
    let str := (payloadBytes p m ++ sentinel).flatMap bitsOf
    (∀ i < p.effLen, (payloadBytes p m ++ sentinel).getD i 0 =
      if i < p.payLen.toNat then m.read (p.payBase.toNat + i) else 0x3D) ∧
    str.length = 8 * p.effLen ∧
    ∀ k < 8 * p.effLen, str.getD k false = effBit p m k ∧
      effBit p m k = (if k / 8 < p.payLen.toNat then m.read (p.payBase.toNat + k / 8) else 0x3D).getLsbD (7 - k % 8)

/-- 43_bit_helpers.md R175: `FirstSent` is the least index at which five bytes 0x3D stand whole in the sequence; an
engine that counts consecutive 0x3D bytes and stops at the first run of five finds the same index; the rule's
examples. -/
def Obligations.FirstSentIsTheLeastIndex : Prop :=
  (∀ (b : List Byte) (i : Nat),
    firstSent b = some i ↔
      (i + 5 ≤ b.length ∧ ∀ t < 5, b.getD (i + t) 0 = 0x3D) ∧
      ∀ j < i, ¬ (j + 5 ≤ b.length ∧ ∀ t < 5, b.getD (j + t) 0 = 0x3D)) ∧
  (∀ b : List Byte, firstSent b = none ↔ ∀ j, ¬ (j + 5 ≤ b.length ∧ ∀ t < 5, b.getD (j + t) 0 = 0x3D)) ∧
  (∀ b : List Byte, (trackAll 0 Scan.fresh b).found = firstSent b) ∧
  firstSent [0x61, 0x62, 0x3D, 0x3D, 0x3D, 0x3D, 0x3D] = some 2 ∧
  firstSent [0x61, 0x3D, 0x3D, 0x3D, 0x3D, 0x3D, 0x3D] = some 1 ∧
  firstSent [0x3D, 0x3D, 0x3D, 0x3D] = none ∧ firstSent [] = none

/-- 43_bit_helpers.md R176: a bit string groups into the bytes of its whole 8-bit chunks, the last bits form no byte;
the bit string that DECODE extracts groups into the CAP bytes it writes. -/
def Obligations.ExtractedBitsGroupIntoCapBytes : Prop :=
  (∀ d : List Bool, (groupBytes d).length = d.length / 8 ∧
    ∀ i < d.length / 8, (groupBytes d).getD i 0 = byteOf ((d.drop (8 * i)).take 8)) ∧
  (∀ (p : Params) (m : Memory) (n : Nat),
    groupBytes ((List.range (p.channelCount * n)).map (imageBit p m)) = extracted p m n ∧
    (extracted p m n).length = p.capacity n ∧ p.capacity n = p.channelCount * n / 8)

/-! ## The machine -/

/-- 10_state.md R41: when the latched word decodes to a command and the engine steps, the step is `exec` of that
command. 10_state.md R20 lets any agent step next: the schedule that says which, and that a busy engine steps where
the schedule is empty, are the model's choice (log entry 2); a scheduled step runs at the state without its event. -/
def Obligations.StepRunsTheDecodedCommand : Prop :=
  ∀ (s : State) (job : Job) (i : Instr), s.engine = .run job → decode job.word = .ok i →
    (s.schedule = [] → step s = exec i s) ∧
    (∀ answer rest, s.schedule = .engine answer :: rest →
      step s = exec i { s with schedule := rest, memAnswer := answer })

/-- 30_encoding.md R97: a word with a reserved OP, with RSV not 0, or of CAPACITY with KIND not 0 is accepted, and the
engine's step completes it with code 5 and changes nothing else. -/
def Obligations.IllegalWordCompletesWithCodeFive : Prop :=
  ∀ (s : State) (w : Word), s.busy = false →
    (w.extractLsb' 0 4).toNat = 0 ∨ 5 ≤ (w.extractLsb' 0 4).toNat ∨ w.extractLsb' 10 22 ≠ 0 ∨
      (w.extractLsb' 0 4 = 1 ∧ w.extractLsb' 8 2 ≠ 0) →
    (s.writeReg .cmd w).busy = true ∧
    engineStep (s.writeReg .cmd w) =
      .next { s with cmd := w, errcode := .illegalCommand, done := true, engine := .idle }

/-- The state after reset meets the invariant (10_state.md R52). -/
def Obligations.ResetMeetsTheInvariant : Prop := Inv State.reset

/-- Every step keeps the invariant: memory stays canonical and inside the address space (20_memory.md R60), nothing
waits for cache maintenance where HOST_COHERENT holds (R80), and a running command's snapshot, latched word and scan
state stay what 10_state.md R40, R46, R49 and R51 say. -/
def Obligations.StepKeepsTheInvariant : Prop :=
  ∀ s t : State, Inv s → step s = .next t → Inv t

/-- 20_memory.md R69 and 70_reset_and_hazards.md R253: where the invariant holds the engine always has a next state, so
it never issues an address outside `[0, 2^ADDR_W)`, and so has the machine, whoever steps and whatever the host or the
outside does. That a host access past the address space and a branch to a missing label do not stop it is log entries 11
and 12. -/
def Obligations.EngineNeverStops : Prop :=
  ∀ s : State, Inv s → (∃ t, engineStep s = .next t) ∧ ∃ t, step s = .next t

/-- 70_reset_and_hazards.md R254: whatever the memory answers, every command has completed after as many steps of the
engine as its success takes requests, and one more: it has made no more requests than that, and DONE is 1. R253: so it
has where the host and the outside act between these steps, in every order and whatever they do, but for a reset. That a
command which a race or a device has opened makes no more requests than its success takes is the model's reading (log
entry 15), and the schedule that says who steps is its choice (log entry 2). -/
def Obligations.EveryCommandCompletes : Prop :=
  (∀ (s : State) (job : Job) (answers : List BusAnswer), Inv s → s.engine = .run job →
    (match decode job.word with | .ok i => requestCount i job.params | .error _ => 0) + 1 ≤ answers.length →
    ∃ t, engineRun answers s = .next t ∧ t.engine = .idle ∧ t.done = true) ∧
  (∀ (s : State) (job : Job), Inv s → s.engine = .run job → (∀ landed, Event.reset landed ∉ s.schedule) →
    (match decode job.word with | .ok i => requestCount i job.params | .error _ => 0) + 1 ≤
      s.schedule.countP Event.isEngine →
    ∃ m ≤ s.schedule.length, ∃ t, stepTimes m s = .next t ∧ t.engine = .idle ∧ t.done = true)

/-- 10_state.md R41 and 70_reset_and_hazards.md R253: no event but a step of the engine and reset stops the machine,
ends a command or moves it: the running command keeps its word, its parameters and its scan state, but that a race
leaves its results open. -/
def Obligations.OnlyTheEngineAndResetMoveTheCommand : Prop :=
  ∀ (e : Event) (s : State) (job : Job), s.engine = .run job → (∀ answer, e ≠ .engine answer) →
    (∀ landed, e ≠ .reset landed) →
    ∃ (t : State) (u : Bool), eventStep e s = .next t ∧
      t.engine = .run { job with scan := { job.scan with unfixed := u } } ∧
      (job.scan.unfixed = true → u = true) ∧ (t.done = true → s.done = true) ∧ t.errcode = s.errcode ∧ t.cap = s.cap ∧
      t.msgLen = s.msgLen ∧ t.cmd = s.cmd ∧ t.params = s.params

/-- 10_state.md R46 and 70_reset_and_hazards.md R245: a write that is dropped while the engine is busy does not change
what the engine does next; only OVR differs. -/
def Obligations.DroppedWriteDoesNotReachTheEngine : Prop :=
  ∀ (s t : State) (r : Reg) (w : Word), s.busy = true → r = .cmd ∨ isParamReg r →
    engineStep s = .next t → engineStep (s.writeReg r w) = .next { t with ovr := true }

/-- 20_memory.md R75 and 60_exceptions.md R223: after a write of the host, or of another master (log entry 17), into a
running command's buffers every byte of them is a fresh free value, without HOST_COHERENT newer than any copy of the
host (log entry 13), memory outside them is as it was, no register changes and the command is open. An open command
(`unfixed`, also over a device range, R68) reads free values, leaves a free value in each byte it reads or writes, and
completes with free CAP, MSG_LEN and ERRCODE. That the command goes on, how free values are drawn, and a device range
are log entries 15, 7 and 6. -/
def Obligations.RacingWriteOpensTheCommand : Prop :=
  (∀ (s t : State) (job : Job) (a : Nat) (b : Byte), s.engine = .run job → inRanges a job.touched = true →
    t = s.hostStore a b ∨ t = s.busStore a b →
    t.engine = .run { job with scan := { job.scan with unfixed := true } } ∧
    (s.mem.wf = true → ∀ x, inRanges x job.touched = true →
      ∃ d, s.draws ≤ d ∧ d < t.draws ∧ t.mem.read x = Config.freeByte d) ∧
    (∀ x, inRanges x job.touched = false → t.mem.read x = s.mem.read x) ∧
    (s.platform.hostCoherent = false → ∀ x, x ∈ t.stale ↔ x ∈ s.stale ∨ inRanges x job.touched = true) ∧
    t.ie = s.ie ∧ t.done = s.done ∧ t.errcode = s.errcode ∧ t.ovr = s.ovr ∧ t.cmd = s.cmd ∧ t.params = s.params ∧
    t.cap = s.cap ∧ t.msgLen = s.msgLen) ∧
  (∀ (i : Instr) (s t : State) (job : Job), s.engine = .run job → job.scan.unfixed = true → exec i s = .next t →
    (t.engine = .idle → t.done = true ∧ t.cap = Config.freeCap s.draws ∧ t.msgLen = Config.freeLen s.draws ∧
      t.errcode = Config.freeCode s.draws ∧ s.draws < t.draws) ∧
    (∀ a, requestAddr i job = some a → s.verdict = .okay → s.mem.wf = true →
      ∃ d, s.draws ≤ d ∧ d < t.draws ∧ t.mem.read a = Config.freeByte d)) ∧
  (∀ (n : Nat) (kind : Kind) (s : State) (job : Job), s.engine = .run job → job.scan.unfixed = true →
    s.verdict = .okay →
    (job.scan.next = .payload → job.params.payBase.toNat + job.scan.k / 8 < 2 ^ 32 →
      ∃ t, exec (.encode n kind) s = .next t ∧
        t.engine = .run { job with scan := { job.scan with next := .read, pb := Config.freeByte s.draws } }) ∧
    (job.scan.next = .read → job.params.imgBase.toNat + job.scan.k % job.params.channelCount < 2 ^ 32 →
      (∃ t, exec (.encode n kind) s = .next t ∧
        t.engine = .run { job with scan := { job.scan with next := .write, v := Config.freeByte s.draws } }) ∧
      ∃ t, exec (.decode n kind) s = .next t ∧
        t.engine = .run { job with scan := decodeBit n job.params job.scan (Config.freeByte s.draws) }))

/-- 20_memory.md R75, R77: a host write outside the running command's buffers is ordinary: the byte of memory is the
written one, every other byte is as before, and the command runs on unchanged; so is the write of another master (log
entry 17). That it is no race from the completion step on, also before the host has seen BUSY = 0 or the irq, is the
model's choice (log entry 18). That the host's byte is in memory at once also without HOST_COHERENT, where it waits to
be written back, is the model's choice (log entry 13), and so is that memory holds it in a device range, of which
every read gives any byte (log entry 6). -/
def Obligations.HostWriteOutsideTheBuffersIsOrdinary : Prop :=
  ∀ (s : State) (a : Nat) (b : Byte), s.mem.wf = true → s.owned a = false →
    (∀ t : State, t = s.hostStore a b ∨ t = s.busStore a b →
      t.mem.read a = b ∧ (∀ x, x ≠ a → t.mem.read x = s.mem.read x) ∧ t.engine = s.engine ∧ t.mem.wf = true) ∧
    (∀ x, x ∈ (s.hostStore a b).stale ↔ x ∈ s.stale ∧ x ≠ a) ∧
    (∀ x, x ∈ (s.hostStore a b).dirty ↔ x ∈ s.dirty ∨ (x = a ∧ s.platform.hostCoherent = false)) ∧
    (∀ x, x ∈ (s.busStore a b).stale ↔ x ∈ s.stale ∨ (x = a ∧ s.platform.hostCoherent = false)) ∧
    (s.busStore a b).dirty = s.dirty ∧ (s.hostStore a b).unsynced = s.unsynced ∧
    (s.busStore a b).unsynced = s.unsynced

/-- 20_memory.md R74, R80: without HOST_COHERENT, a byte the host has written is not completed until its line is written
back: a command accepted before that with the byte in its buffers starts open (log entry 6), and after the cleaning it
does not. From the end of a command on, the host must invalidate its copies of the command's image and output buffers,
of each byte of them: whatever it has invalidated before does not count, and nothing but an invalidation after it ends
that (until then a read gives any byte, 92_eei_decisions.md D21). With HOST_COHERENT nothing is required. The model's
own: an open command's payload counts with them, and a reset ends a command as a completion does (log entries 13 and
14). Cleaning and invalidating act on the lines that meet their range and on no other. Cleaning keeps the host's copies
and every byte of memory but one newer than a dirty line over it, which is a free value then. Invalidating drops the
copies, so that the bytes the host wrote in those lines and did not clean are free values. Either races a running
command where it writes back a line of its buffers (R75), and else leaves the engine alone. The form of the cache is
the model's (log entry 13). -/
def Obligations.CacheMaintenanceAroundACommand : Prop :=
  (∀ (s : State) (a : Nat) (b : Byte) (w : Word), s.engine = .idle → s.platform.hostCoherent = false →
    let job : Job := { word := w, params := s.params, scan := Scan.fresh }
    (inRanges a job.touched = true →
      ∃ job', ((s.hostStore a b).writeReg .cmd w).engine = .run job' ∧ job'.scan.unfixed = true) ∧
    (s.dirty = [] → s.onDevice job = false →
      ∃ job', (((s.hostStore a b).cacheClean (a, 1)).writeReg .cmd w).engine = .run job' ∧
        job'.scan.unfixed = false)) ∧
  (∀ (s : State) (range : Nat × Nat),
    let inLines := fun x => rangesMeet (cacheLine s.platform x) range
    let clobbered := fun x =>
      x ∈ s.stale ∧ ∃ y ∈ s.dirty, inLines y = true ∧ cacheLine s.platform y = cacheLine s.platform x
    let races := fun job : Job =>
      ∃ y ∈ s.dirty, inLines y = true ∧ ∃ r ∈ job.touched, rangesMeet (cacheLine s.platform y) r = true
    let c := s.cacheClean range
    let v := s.cacheInvalidate range
    (∀ x, x ∈ c.stale ↔ x ∈ s.stale ∨ (s.platform.hostCoherent = false ∧
      ∃ job, s.engine = .run job ∧ races job ∧ inRanges x job.touched = true)) ∧
    (∀ x, x ∈ v.stale ↔ x ∈ c.stale ∧ inLines x = false) ∧ c.unsynced = s.unsynced ∧
    (∀ x, x ∈ v.unsynced ↔ x ∈ s.unsynced ∧ inLines x = false) ∧ (∀ x, x ∈ c.dirty ↔ x ∈ s.dirty ∧ inLines x = false) ∧
    (∀ x, x ∈ v.dirty ↔ x ∈ s.dirty ∧ inLines x = false) ∧
    (∀ x, clobbered x → inLines x = true) ∧
    (s.mem.wf = true → ∀ x, clobbered x → ∃ d, s.draws ≤ d ∧ d < c.draws ∧ c.mem.read x = Config.freeByte d) ∧
    (s.mem.wf = true → ∀ x, x ∈ s.dirty → inLines x = true →
      ∃ d, s.draws ≤ d ∧ d < v.draws ∧ v.mem.read x = Config.freeByte d) ∧
    ((∀ job, s.engine = .run job → ¬ races job) → c.engine = s.engine ∧ v.engine = s.engine ∧
      (∀ x, ¬ clobbered x → c.mem.read x = s.mem.read x) ∧
      (∀ x, ¬ clobbered x → ¬ (x ∈ s.dirty ∧ inLines x = true) → v.mem.read x = s.mem.read x)) ∧
    (∀ job, s.engine = .run job → races job →
      c.engine = .run { job with scan := { job.scan with unfixed := true } } ∧ v.engine = c.engine)) ∧
  (∀ (s t : State) (job : Job), Inv s → s.engine = .run job →
    (engineStep s = .next t ∧ t.engine = .idle) ∨ (∃ landed, t = s.resetEvent landed) →
    ∀ x, x ∈ t.unsynced ↔ x ∈ s.unsynced ∨
      (s.platform.hostCoherent = false ∧ ∃ i, decode job.word = .ok i ∧
        match i with
        | .capacity _ | .check _ _ => False
        | .encode n kind => encodeChecks n kind job.params = none ∧
          (inBuffer job.params.imgBase job.params.channelCount x ∨
            (job.scan.unfixed = true ∧ inBuffer job.params.payBase job.params.payLen.toNat x))
        | .decode n kind => decodeChecks n kind job.params = none ∧
          (inBuffer job.params.imgBase job.params.channelCount x ∨
            inBuffer job.params.outBase (job.params.capacity n) x))) ∧
  (∀ (e : Event) (s t : State), (∀ addr count, e ≠ .cacheInvalidate addr count) → eventStep e s = .next t →
    ∀ x ∈ s.unsynced, x ∈ t.unsynced)

/-- 10_state.md R52 and 70_reset_and_hazards.md R240: after reset ID reads 0x53544701, every other register reads 0, the
engine is idle without a scan state and irq is low, whatever the block was doing, and memory is as it was but for a
write request not answered (R241); the registers, the engine and irq of the state after reset are the same. -/
def Obligations.ResetSetsEveryRegister : Prop :=
  (∀ (s : State) (landed : Bool),
    let t := s.resetEvent landed
    t.readReg .id = 0x53544701 ∧ (∀ r : Reg, r ≠ .id → t.readReg r = 0) ∧ t.engine = .idle ∧ t.irq = false) ∧
  (∀ s : State, (s.resetEvent false).mem = s.mem) ∧
  State.reset.readReg .id = 0x53544701 ∧ (∀ r : Reg, r ≠ .id → State.reset.readReg r = 0) ∧
  State.reset.engine = .idle ∧ State.reset.irq = false

/-- 70_reset_and_hazards.md R241: reset changes no byte of memory but the one of a write request that was not answered,
which holds its old value or the value of the request, and either happens. That the unanswered request is the one the
engine's next step would make is log entry 14. -/
def Obligations.ResetKeepsMemory : Prop :=
  (∀ (s : State) (a : Nat), (s.resetEvent false).mem.read a = s.mem.read a) ∧
  (∀ (s : State) (a : Nat), (∀ job b, s.engine = .run job → job.pendingWrite ≠ some (a, b)) →
    (s.resetEvent true).mem.read a = s.mem.read a) ∧
  (∀ (s : State) (job : Job) (a : Nat) (b : Byte), s.mem.wf = true → s.engine = .run job → job.scan.unfixed = false →
    job.pendingWrite = some (a, b) → a < 2 ^ 32 → (s.resetEvent true).mem.read a = b)

/-- 30_encoding.md R100: each operation of the host completes in one step: the operations on its variables, WR and RD
on the register port, labels, HALT, the branches, and MEMW and MEMR. The model's choices: a label is a numbered
operation, a branch goes to the first of its number, a taken branch to a missing label stops the host, and a host past
HALT or past its program's end does nothing (log entry 12); MEMW and MEMR move all their bytes in one step, and an
access past the address space is answered ERROR and moves none (log entry 11). -/
def Obligations.HostOperationsComplete : Prop :=
  (∀ (s : State) (h : HVar) (r : Reg) (imm : Word) (v : HArg) (l : Nat),
    let w := match v with | .imm x => x | .var y => s.host.get y
    let next := s.host.pc + 1
    s.hostExec (.set h imm) = { s with host := { s.host.put h imm with pc := next } } ∧
    s.hostExec (.add h imm) = { s with host := { s.host.put h (s.host.get h + imm) with pc := next } } ∧
    s.hostExec (.and h imm) = { s with host := { s.host.put h (s.host.get h &&& imm) with pc := next } } ∧
    s.hostExec (.rd r h) =
      { s with reply := .data (s.readReg r), host := { s.host.put h (s.readReg r) with pc := next } } ∧
    s.hostExec (.wr r v) = { s.writeReg r w with reply := .okay, host := { s.host with pc := next } } ∧
    s.hostExec (.label l) = { s with host := { s.host with pc := next } } ∧
    s.hostExec .halt = { s with host := { s.host with halted := true } }) ∧
  (∀ (s : State) (h : HVar) (imm : Word) (target : Nat),
    let next : State := { s with host := { s.host with pc := s.host.pc + 1 } }
    let go : State := match labelIndex s.host.prog target with
      | some i => { s with host := { s.host with pc := i } }
      | none => { s with host := { s.host with halted := true } }
    s.hostExec (.beq h imm target) = (if s.host.get h = imm then go else next) ∧
    s.hostExec (.bne h imm target) = (if s.host.get h = imm then next else go)) ∧
  (∀ (s : State) (addr : Word) (bytes : List Byte) (count : Nat),
    (s.hostWrite addr bytes).host = s.host ∧ (s.hostRead addr count).host = s.host ∧
    s.hostExec (.memw addr bytes) = { s.hostWrite addr bytes with host := { s.host with pc := s.host.pc + 1 } } ∧
    s.hostExec (.memr addr count) = { s.hostRead addr count with host := { s.host with pc := s.host.pc + 1 } } ∧
    (2 ^ 32 < addr.toNat + bytes.length →
      s.hostWrite addr bytes = { s with reply := .error } ∧ s.busWrite addr bytes = { s with reply := .error }) ∧
    (2 ^ 32 < addr.toNat + count →
      s.hostRead addr count = { s with reply := .error } ∧ s.busRead addr count = { s with reply := .error })) ∧
  (∀ s : State, eventStep .host s = .next (
    if s.host.halted then s else match s.host.prog[s.host.pc]? with | some op => s.hostExec op | none => s))

/-- 30_encoding.md R100 and 20_memory.md R74, R76: while the engine is idle, on coherent ordinary memory, the host's
reads give the bytes of system memory and its writes put theirs there, and nothing else changes. That this holds from
the completion step on, also before the host has seen BUSY = 0 or the irq, is the model's choice (log entry 18), and so
is that an access of several bytes is one step (log entry 11). In every state a read changes nothing but the answer and
the free values: a byte of a running command's buffers (R75), of an ended command's buffers that the host has not
invalidated since (R80) or of an out-of-date copy (log entry 13) reads as any byte, and so does, by the model's reading
of R68, every byte of a device range (log entry 6); every other reads as memory holds it. Another master sees memory
past the host's caches, so for it the bytes not written back are the open ones (log entry 17). -/
def Obligations.HostMemoryAccessesComplete : Prop :=
  (∀ (s : State) (addr : Word), s.engine = .idle → s.platform.hostCoherent = true → s.platform.devices = [] →
    s.unsynced = [] → s.stale = [] →
    (∀ count : Nat, addr.toNat + count ≤ 2 ^ 32 →
      s.hostRead addr count =
        { s with reply := .bytes ((List.range count).map fun i => s.mem.read (addr.toNat + i)) }) ∧
    (∀ bytes : List Byte, addr.toNat + bytes.length ≤ 2 ^ 32 → s.mem.wf = true →
      ∃ m, s.hostWrite addr bytes = { s with mem := m, reply := .okay } ∧ m.wf = true ∧
        (∀ i < bytes.length, m.read (addr.toNat + i) = bytes.getD i 0) ∧
        ∀ a, a < addr.toNat ∨ addr.toNat + bytes.length ≤ a → m.read a = s.mem.read a)) ∧
  (∀ (s : State) (addr : Word) (count : Nat), addr.toNat + count ≤ 2 ^ 32 →
    (∃ l d, s.hostRead addr count = { s with reply := .bytes l, draws := d } ∧ l.length = count ∧
      ∀ i < count, let a := addr.toNat + i
        if s.owned a = true ∨ a ∈ s.unsynced ∨ a ∈ s.stale ∨ inRanges a s.platform.devices = true then
          ∃ e, s.draws ≤ e ∧ e < d ∧ l.getD i 0 = Config.freeByte e
        else l.getD i 0 = s.mem.read a) ∧
    (∃ l d, s.busRead addr count = { s with reply := .bytes l, draws := d } ∧ l.length = count ∧
      ∀ i < count, let a := addr.toNat + i
        if s.owned a = true ∨ a ∈ s.dirty ∨ inRanges a s.platform.devices = true then
          ∃ e, s.draws ≤ e ∧ e < d ∧ l.getD i 0 = Config.freeByte e
        else l.getD i 0 = s.mem.read a))

/-- 10_state.md R24 to R42: what a read of each register but STATUS gives, in every state: ID its constant, CTRL its bit
IE, CMD the latched word, the parameter registers their values, CAP_HI and CAP_LO together CAP, MSG_LEN its value. -/
def Obligations.RegistersReadTheirValues : Prop :=
  ∀ s : State,
    s.readReg .id = 0x53544701 ∧ s.readReg .ctrl = (if s.ie then 1 else 0) ∧ s.readReg .cmd = s.cmd ∧
    s.readReg .imgBase = s.params.imgBase ∧ (s.readReg .rows).toNat = s.params.rows.toNat ∧
    (s.readReg .cols).toNat = s.params.cols.toNat ∧ s.readReg .payBase = s.params.payBase ∧
    s.readReg .payLen = s.params.payLen ∧ s.readReg .outBase = s.params.outBase ∧
    s.readReg .outSize = s.params.outSize ∧
    (s.readReg .capHi).toNat * 2 ^ 32 + (s.readReg .capLo).toNat = s.cap.toNat ∧
    (s.readReg .capHi).extractLsb' 2 30 = 0 ∧ s.readReg .msgLen = s.msgLen
end

