-- ==== Sys2Proof/Laws/Memory.lean ====
section
/-! SUPPORT. The laws of system memory: a read after a write, every operation keeps the canonical form and the address
space, and what the operations on several bytes leave alone. -/

namespace Sys2Proof.Machine

/-! ## One byte -/

@[simp] theorem Memory.read_nil (a : Nat) : Memory.read [] a = initByte a := rfl

theorem Memory.read_cons (x : Nat) (b : Byte) (r : Memory) (a : Nat) :
    Memory.read ((x, b) :: r) a = if x = a then b else Memory.read r a := rfl

/-- A write leaves every other byte alone, whatever the form of the memory. -/
theorem Memory.read_write_other (m : Memory) {a a' : Nat} (b : Byte) (h : a' ≠ a) :
    (m.write a b).read a' = m.read a' := by
  induction m with
  | nil => by_cases hb : b = initByte a <;> simp [Memory.write, hb, Memory.read_cons, h.symm]
  | cons c r ih =>
    obtain ⟨x, c⟩ := c
    unfold Memory.write
    split
    · split <;> simp [Memory.read_cons, h.symm]
    · split
      · rename_i hx
        split <;> simp [Memory.read_cons, h.symm, ← hx]
      · simp [Memory.read_cons, ih]

/-- Below the first address it may list, a memory reads as unlisted. -/
theorem Memory.read_below {m : Memory} {lo a : Nat} (h : Memory.wfFrom lo m = true) (ha : a < lo) :
    m.read a = initByte a := by
  induction m generalizing lo with
  | nil => rfl
  | cons c r ih =>
    obtain ⟨x, c⟩ := c
    simp only [Memory.wfFrom, Bool.and_eq_true, decide_eq_true_eq] at h
    rw [Memory.read_cons, if_neg (by omega)]
    exact ih h.2 (by omega)

/-- The form only depends on the least address from below. -/
theorem Memory.wfFrom_mono {m : Memory} {lo lo' : Nat} (h : Memory.wfFrom lo m = true) (hl : lo' ≤ lo) :
    Memory.wfFrom lo' m = true := by
  cases m with
  | nil => rfl
  | cons c r =>
    obtain ⟨x, c⟩ := c
    simp only [Memory.wfFrom, Bool.and_eq_true, decide_eq_true_eq] at h ⊢
    exact ⟨⟨by omega, h.1.2⟩, h.2⟩

theorem Memory.read_write_same_from {m : Memory} {lo : Nat} (h : Memory.wfFrom lo m = true) (a : Nat) (b : Byte) :
    (m.write a b).read a = b := by
  induction m generalizing lo with
  | nil => by_cases hb : b = initByte a <;> simp [Memory.write, hb, Memory.read_cons]
  | cons c r ih =>
    obtain ⟨x, c⟩ := c
    simp only [Memory.wfFrom, Bool.and_eq_true, decide_eq_true_eq] at h
    unfold Memory.write
    split
    · split
      · rename_i hax hb
        rw [Memory.read_cons, if_neg (by omega), Memory.read_below h.2 (by omega), hb]
      · simp [Memory.read_cons]
    · split
      · rename_i hx
        split
        · rename_i hb
          rw [Memory.read_below h.2 (by omega), hb]
        · simp [Memory.read_cons]
      · rename_i hax hx
        rw [Memory.read_cons, if_neg (Ne.symm hx), ih h.2]

/-- A read of the byte just written gives it. -/
theorem Memory.read_write_same {m : Memory} (h : m.wf = true) (a : Nat) (b : Byte) : (m.write a b).read a = b :=
  Memory.read_write_same_from h a b

theorem Memory.wfFrom_write {m : Memory} {lo a : Nat} (h : Memory.wfFrom lo m = true) (ha : lo ≤ a) (b : Byte) :
    Memory.wfFrom lo (m.write a b) = true := by
  induction m generalizing lo with
  | nil => by_cases hb : b = initByte a <;> simp [Memory.write, hb, Memory.wfFrom, ha]
  | cons c r ih =>
    obtain ⟨x, c⟩ := c
    have h' := h
    simp only [Memory.wfFrom, Bool.and_eq_true, decide_eq_true_eq] at h
    unfold Memory.write
    split
    · split
      · exact h'
      · rename_i hax hb
        simp [Memory.wfFrom, ha, hb, h.1.2, h.2, Nat.succ_le_of_lt hax]
    · split
      · rename_i hx
        split
        · exact Memory.wfFrom_mono h.2 (by omega)
        · rename_i hb
          subst hx
          simp [Memory.wfFrom, ha, hb, h.2]
      · rename_i hax hx
        simp only [Memory.wfFrom, Bool.and_eq_true, decide_eq_true_eq]
        exact ⟨h.1, ih h.2 (by omega)⟩

/-- A write keeps the canonical form. -/
theorem Memory.wf_write {m : Memory} (h : m.wf = true) (a : Nat) (b : Byte) : (m.write a b).wf = true :=
  Memory.wfFrom_write h (Nat.zero_le a) b

theorem Memory.inSpace_cons (x : Nat) (b : Byte) (r : Memory) :
    Memory.inSpace ((x, b) :: r) = (decide (x < Config.addrSpace) && Memory.inSpace r) := rfl

/-- A write inside the address space keeps the memory inside it. -/
theorem Memory.inSpace_write {m : Memory} (h : m.inSpace = true) {a : Nat} (ha : a < Config.addrSpace) (b : Byte) :
    (m.write a b).inSpace = true := by
  induction m with
  | nil => by_cases hb : b = initByte a <;> simp [Memory.write, hb, Memory.inSpace, ha]
  | cons c r ih =>
    obtain ⟨x, c⟩ := c
    have h' := h
    rw [Memory.inSpace_cons, Bool.and_eq_true, decide_eq_true_eq] at h
    unfold Memory.write
    split
    · split
      · exact h'
      · rw [Memory.inSpace_cons, h']; simp [ha]
    · split
      · split
        · exact h.2
        · rw [Memory.inSpace_cons, h.2]; simp [ha]
      · rw [Memory.inSpace_cons, ih h.2]; simp [h.1]

/-- Two canonical memories that read the same at every address are the same memory. -/
theorem Memory.ext_of_read {m m' : Memory} {lo : Nat} (h : Memory.wfFrom lo m = true) (h' : Memory.wfFrom lo m' = true)
    (hr : ∀ a, m.read a = m'.read a) : m = m' := by
  induction m generalizing m' lo with
  | nil =>
    cases m' with
    | nil => rfl
    | cons c r =>
      obtain ⟨x, c⟩ := c
      simp only [Memory.wfFrom, Bool.and_eq_true, decide_eq_true_eq, bne_iff_ne] at h'
      have := hr x
      simp [Memory.read_cons] at this
      exact absurd this.symm h'.1.2
  | cons c r ih =>
    obtain ⟨x, c⟩ := c
    have h0 := h
    simp only [Memory.wfFrom, Bool.and_eq_true, decide_eq_true_eq, bne_iff_ne] at h
    cases m' with
    | nil =>
      have := hr x
      simp [Memory.read_cons] at this
      exact absurd this h.1.2
    | cons c' r' =>
      obtain ⟨y, d⟩ := c'
      have h0' := h'
      simp only [Memory.wfFrom, Bool.and_eq_true, decide_eq_true_eq, bne_iff_ne] at h'
      have hxy : x = y := by
        rcases Nat.lt_trichotomy x y with hlt | heq | hgt
        · have := hr x
          rw [Memory.read_cons, if_pos rfl, Memory.read_cons, if_neg (by omega), Memory.read_below h'.2 (by omega)] at this
          exact absurd this h.1.2
        · exact heq
        · have := hr y
          rw [Memory.read_cons, if_neg (by omega), Memory.read_cons, if_pos rfl, Memory.read_below h.2 (by omega)] at this
          exact absurd this.symm h'.1.2
      subst hxy
      have hcd : c = d := by simpa [Memory.read_cons] using hr x
      subst hcd
      have : r = r' := by
        refine ih h.2 h'.2 fun a => ?_
        by_cases ha : x = a
        · subst ha
          rw [Memory.read_below h.2 (by omega), Memory.read_below h'.2 (by omega)]
        · simpa [Memory.read_cons, ha] using hr a
      rw [this]

/-! ## Several bytes -/

theorem Memory.wf_scramble {m : Memory} (h : m.wf = true) (base d len : Nat) : (m.scramble base d len).wf = true := by
  induction len with
  | zero => exact h
  | succ l ih => exact Memory.wf_write ih _ _

theorem Memory.inSpace_scramble {m : Memory} (h : m.inSpace = true) (base d : Nat) {len : Nat}
    (hr : base + len ≤ Config.addrSpace) : (m.scramble base d len).inSpace = true := by
  induction len with
  | zero => exact h
  | succ l ih => exact Memory.inSpace_write (ih (by omega)) (by omega) _

/-- Scrambling a range leaves every byte outside it alone. -/
theorem Memory.read_scramble_other (m : Memory) (base d len : Nat) {a : Nat} (ha : ¬ (base ≤ a ∧ a < base + len)) :
    (m.scramble base d len).read a = m.read a := by
  induction len with
  | zero => rfl
  | succ l ih => rw [Memory.scramble, Memory.read_write_other _ _ (by omega), ih (by omega)]

/-- A scrambled byte is the free value its draw gives. -/
theorem Memory.read_scramble_same {m : Memory} (h : m.wf = true) (base d : Nat) {len j : Nat} (hj : j < len) :
    (m.scramble base d len).read (base + j) = Config.freeByte (d + j) := by
  induction len with
  | zero => omega
  | succ l ih =>
    rw [Memory.scramble]
    by_cases hl : j = l
    · subst hl; rw [Memory.read_write_same (Memory.wf_scramble h _ _ _)]
    · rw [Memory.read_write_other _ _ (by omega), ih (by omega)]

theorem Memory.wf_scrambleRanges {m : Memory} (h : m.wf = true) (d : Nat) (l : List (Nat × Nat)) :
    (m.scrambleRanges d l).1.wf = true := by
  induction l generalizing m d with
  | nil => exact h
  | cons r l ih => exact ih (Memory.wf_scramble h _ _ _) _

theorem Memory.inSpace_scrambleRanges {m : Memory} (h : m.inSpace = true) (d : Nat) {l : List (Nat × Nat)}
    (hr : ∀ r ∈ l, r.1 + r.2 ≤ Config.addrSpace) : (m.scrambleRanges d l).1.inSpace = true := by
  induction l generalizing m d with
  | nil => exact h
  | cons r l ih =>
    exact ih (Memory.inSpace_scramble h _ _ (hr r (by simp))) _ fun x hx => hr x (by simp [hx])

/-- Scrambling ranges leaves every byte outside them alone. -/
theorem Memory.read_scrambleRanges_other (m : Memory) (d : Nat) (l : List (Nat × Nat)) {a : Nat}
    (ha : inRanges a l = false) : (m.scrambleRanges d l).1.read a = m.read a := by
  induction l generalizing m d with
  | nil => rfl
  | cons r l ih =>
    simp only [inRanges, List.any_cons, Bool.or_eq_false_iff, decide_eq_false_iff_not] at ha
    rw [Memory.scrambleRanges, ih _ _ ha.2, Memory.read_scramble_other _ _ _ _ ha.1]

end Sys2Proof.Machine
end

