-- ==== Sys2Proof/Laws/State.lean ====
section
/-! SUPPORT. One lemma for each field and each update of State, so that no proof unfolds a record update. -/

namespace Sys2Proof.Machine

@[simp] theorem State.answered_ie (s : State) :
    (s.answered).ie = s.ie := rfl

@[simp] theorem State.answered_done (s : State) :
    (s.answered).done = s.done := rfl

@[simp] theorem State.answered_errcode (s : State) :
    (s.answered).errcode = s.errcode := rfl

@[simp] theorem State.answered_ovr (s : State) :
    (s.answered).ovr = s.ovr := rfl

@[simp] theorem State.answered_cmd (s : State) :
    (s.answered).cmd = s.cmd := rfl

@[simp] theorem State.answered_params (s : State) :
    (s.answered).params = s.params := rfl

@[simp] theorem State.answered_cap (s : State) :
    (s.answered).cap = s.cap := rfl

@[simp] theorem State.answered_msgLen (s : State) :
    (s.answered).msgLen = s.msgLen := rfl

@[simp] theorem State.answered_engine (s : State) :
    (s.answered).engine = s.engine := rfl

@[simp] theorem State.answered_mem (s : State) :
    (s.answered).mem = s.mem := rfl

@[simp] theorem State.answered_host (s : State) :
    (s.answered).host = s.host := rfl

@[simp] theorem State.answered_reply (s : State) :
    (s.answered).reply = s.reply := rfl

@[simp] theorem State.answered_dirty (s : State) :
    (s.answered).dirty = s.dirty := rfl

@[simp] theorem State.answered_stale (s : State) :
    (s.answered).stale = s.stale := rfl

@[simp] theorem State.answered_unsynced (s : State) :
    (s.answered).unsynced = s.unsynced := rfl

@[simp] theorem State.answered_platform (s : State) :
    (s.answered).platform = s.platform := rfl

@[simp] theorem State.answered_schedule (s : State) :
    (s.answered).schedule = s.schedule := rfl

@[simp] theorem State.answered_memAnswer (s : State) :
    (s.answered).memAnswer = .okay := rfl

@[simp] theorem State.answered_draws (s : State) :
    (s.answered).draws = s.draws := rfl

@[simp] theorem State.withScan_ie (s : State) (job : Job) (sc : Scan) :
    (s.withScan job sc).ie = s.ie := rfl

@[simp] theorem State.withScan_done (s : State) (job : Job) (sc : Scan) :
    (s.withScan job sc).done = s.done := rfl

@[simp] theorem State.withScan_errcode (s : State) (job : Job) (sc : Scan) :
    (s.withScan job sc).errcode = s.errcode := rfl

@[simp] theorem State.withScan_ovr (s : State) (job : Job) (sc : Scan) :
    (s.withScan job sc).ovr = s.ovr := rfl

@[simp] theorem State.withScan_cmd (s : State) (job : Job) (sc : Scan) :
    (s.withScan job sc).cmd = s.cmd := rfl

@[simp] theorem State.withScan_params (s : State) (job : Job) (sc : Scan) :
    (s.withScan job sc).params = s.params := rfl

@[simp] theorem State.withScan_cap (s : State) (job : Job) (sc : Scan) :
    (s.withScan job sc).cap = s.cap := rfl

@[simp] theorem State.withScan_msgLen (s : State) (job : Job) (sc : Scan) :
    (s.withScan job sc).msgLen = s.msgLen := rfl

@[simp] theorem State.withScan_engine (s : State) (job : Job) (sc : Scan) :
    (s.withScan job sc).engine = .run { job with scan := sc } := rfl

@[simp] theorem State.withScan_mem (s : State) (job : Job) (sc : Scan) :
    (s.withScan job sc).mem = s.mem := rfl

@[simp] theorem State.withScan_host (s : State) (job : Job) (sc : Scan) :
    (s.withScan job sc).host = s.host := rfl

@[simp] theorem State.withScan_reply (s : State) (job : Job) (sc : Scan) :
    (s.withScan job sc).reply = s.reply := rfl

@[simp] theorem State.withScan_dirty (s : State) (job : Job) (sc : Scan) :
    (s.withScan job sc).dirty = s.dirty := rfl

@[simp] theorem State.withScan_stale (s : State) (job : Job) (sc : Scan) :
    (s.withScan job sc).stale = s.stale := rfl

@[simp] theorem State.withScan_unsynced (s : State) (job : Job) (sc : Scan) :
    (s.withScan job sc).unsynced = s.unsynced := rfl

@[simp] theorem State.withScan_platform (s : State) (job : Job) (sc : Scan) :
    (s.withScan job sc).platform = s.platform := rfl

@[simp] theorem State.withScan_schedule (s : State) (job : Job) (sc : Scan) :
    (s.withScan job sc).schedule = s.schedule := rfl

@[simp] theorem State.withScan_memAnswer (s : State) (job : Job) (sc : Scan) :
    (s.withScan job sc).memAnswer = s.memAnswer := rfl

@[simp] theorem State.withScan_draws (s : State) (job : Job) (sc : Scan) :
    (s.withScan job sc).draws = s.draws := rfl

@[simp] theorem State.busFail_ie (s : State) (job : Job) :
    (s.busFail job).ie = s.ie := rfl

@[simp] theorem State.busFail_done (s : State) (job : Job) :
    (s.busFail job).done = s.done := rfl

@[simp] theorem State.busFail_errcode (s : State) (job : Job) :
    (s.busFail job).errcode = s.errcode := rfl

@[simp] theorem State.busFail_ovr (s : State) (job : Job) :
    (s.busFail job).ovr = s.ovr := rfl

@[simp] theorem State.busFail_cmd (s : State) (job : Job) :
    (s.busFail job).cmd = s.cmd := rfl

@[simp] theorem State.busFail_params (s : State) (job : Job) :
    (s.busFail job).params = s.params := rfl

@[simp] theorem State.busFail_cap (s : State) (job : Job) :
    (s.busFail job).cap = s.cap := rfl

@[simp] theorem State.busFail_msgLen (s : State) (job : Job) :
    (s.busFail job).msgLen = s.msgLen := rfl

@[simp] theorem State.busFail_engine (s : State) (job : Job) :
    (s.busFail job).engine = .run { job with scan := { job.scan with next := .finish .busError } } := rfl

@[simp] theorem State.busFail_mem (s : State) (job : Job) :
    (s.busFail job).mem = s.mem := rfl

@[simp] theorem State.busFail_host (s : State) (job : Job) :
    (s.busFail job).host = s.host := rfl

@[simp] theorem State.busFail_reply (s : State) (job : Job) :
    (s.busFail job).reply = s.reply := rfl

@[simp] theorem State.busFail_dirty (s : State) (job : Job) :
    (s.busFail job).dirty = s.dirty := rfl

@[simp] theorem State.busFail_stale (s : State) (job : Job) :
    (s.busFail job).stale = s.stale := rfl

@[simp] theorem State.busFail_unsynced (s : State) (job : Job) :
    (s.busFail job).unsynced = s.unsynced := rfl

@[simp] theorem State.busFail_platform (s : State) (job : Job) :
    (s.busFail job).platform = s.platform := rfl

@[simp] theorem State.busFail_schedule (s : State) (job : Job) :
    (s.busFail job).schedule = s.schedule := rfl

@[simp] theorem State.busFail_memAnswer (s : State) (job : Job) :
    (s.busFail job).memAnswer = s.memAnswer := rfl

@[simp] theorem State.busFail_draws (s : State) (job : Job) :
    (s.busFail job).draws = s.draws := rfl

@[simp] theorem State.engineStore_ie (s : State) (job : Job) (a : Nat) (b : Byte) :
    (s.engineStore job a b).ie = s.ie := rfl

@[simp] theorem State.engineStore_done (s : State) (job : Job) (a : Nat) (b : Byte) :
    (s.engineStore job a b).done = s.done := rfl

@[simp] theorem State.engineStore_errcode (s : State) (job : Job) (a : Nat) (b : Byte) :
    (s.engineStore job a b).errcode = s.errcode := rfl

@[simp] theorem State.engineStore_ovr (s : State) (job : Job) (a : Nat) (b : Byte) :
    (s.engineStore job a b).ovr = s.ovr := rfl

@[simp] theorem State.engineStore_cmd (s : State) (job : Job) (a : Nat) (b : Byte) :
    (s.engineStore job a b).cmd = s.cmd := rfl

@[simp] theorem State.engineStore_params (s : State) (job : Job) (a : Nat) (b : Byte) :
    (s.engineStore job a b).params = s.params := rfl

@[simp] theorem State.engineStore_cap (s : State) (job : Job) (a : Nat) (b : Byte) :
    (s.engineStore job a b).cap = s.cap := rfl

@[simp] theorem State.engineStore_msgLen (s : State) (job : Job) (a : Nat) (b : Byte) :
    (s.engineStore job a b).msgLen = s.msgLen := rfl

@[simp] theorem State.engineStore_engine (s : State) (job : Job) (a : Nat) (b : Byte) :
    (s.engineStore job a b).engine = s.engine := rfl

@[simp] theorem State.engineStore_mem (s : State) (job : Job) (a : Nat) (b : Byte) :
    (s.engineStore job a b).mem = s.mem.write a (if job.scan.unfixed then Config.freeByte s.draws else b) := rfl

@[simp] theorem State.engineStore_host (s : State) (job : Job) (a : Nat) (b : Byte) :
    (s.engineStore job a b).host = s.host := rfl

@[simp] theorem State.engineStore_reply (s : State) (job : Job) (a : Nat) (b : Byte) :
    (s.engineStore job a b).reply = s.reply := rfl

@[simp] theorem State.engineStore_dirty (s : State) (job : Job) (a : Nat) (b : Byte) :
    (s.engineStore job a b).dirty = s.dirty := rfl

@[simp] theorem State.engineStore_stale (s : State) (job : Job) (a : Nat) (b : Byte) :
    (s.engineStore job a b).stale = if s.platform.hostCoherent then s.stale else addAddr s.stale a := rfl

@[simp] theorem State.engineStore_unsynced (s : State) (job : Job) (a : Nat) (b : Byte) :
    (s.engineStore job a b).unsynced = s.unsynced := rfl

@[simp] theorem State.engineStore_platform (s : State) (job : Job) (a : Nat) (b : Byte) :
    (s.engineStore job a b).platform = s.platform := rfl

@[simp] theorem State.engineStore_schedule (s : State) (job : Job) (a : Nat) (b : Byte) :
    (s.engineStore job a b).schedule = s.schedule := rfl

@[simp] theorem State.engineStore_memAnswer (s : State) (job : Job) (a : Nat) (b : Byte) :
    (s.engineStore job a b).memAnswer = s.memAnswer := rfl

@[simp] theorem State.engineStore_draws (s : State) (job : Job) (a : Nat) (b : Byte) :
    (s.engineStore job a b).draws = s.draws + job.scan.drawsUsed := rfl

@[simp] theorem State.unsync_ie (s : State) (ends : List (Nat × Nat)) :
    (s.unsync ends).ie = s.ie := rfl

@[simp] theorem State.unsync_done (s : State) (ends : List (Nat × Nat)) :
    (s.unsync ends).done = s.done := rfl

@[simp] theorem State.unsync_errcode (s : State) (ends : List (Nat × Nat)) :
    (s.unsync ends).errcode = s.errcode := rfl

@[simp] theorem State.unsync_ovr (s : State) (ends : List (Nat × Nat)) :
    (s.unsync ends).ovr = s.ovr := rfl

@[simp] theorem State.unsync_cmd (s : State) (ends : List (Nat × Nat)) :
    (s.unsync ends).cmd = s.cmd := rfl

@[simp] theorem State.unsync_params (s : State) (ends : List (Nat × Nat)) :
    (s.unsync ends).params = s.params := rfl

@[simp] theorem State.unsync_cap (s : State) (ends : List (Nat × Nat)) :
    (s.unsync ends).cap = s.cap := rfl

@[simp] theorem State.unsync_msgLen (s : State) (ends : List (Nat × Nat)) :
    (s.unsync ends).msgLen = s.msgLen := rfl

@[simp] theorem State.unsync_engine (s : State) (ends : List (Nat × Nat)) :
    (s.unsync ends).engine = s.engine := rfl

@[simp] theorem State.unsync_mem (s : State) (ends : List (Nat × Nat)) :
    (s.unsync ends).mem = s.mem := rfl

@[simp] theorem State.unsync_host (s : State) (ends : List (Nat × Nat)) :
    (s.unsync ends).host = s.host := rfl

@[simp] theorem State.unsync_reply (s : State) (ends : List (Nat × Nat)) :
    (s.unsync ends).reply = s.reply := rfl

@[simp] theorem State.unsync_dirty (s : State) (ends : List (Nat × Nat)) :
    (s.unsync ends).dirty = s.dirty := rfl

@[simp] theorem State.unsync_stale (s : State) (ends : List (Nat × Nat)) :
    (s.unsync ends).stale = s.stale := rfl

@[simp] theorem State.unsync_unsynced (s : State) (ends : List (Nat × Nat)) :
    (s.unsync ends).unsynced = if s.platform.hostCoherent then s.unsynced else addRanges s.unsynced ends := rfl

@[simp] theorem State.unsync_platform (s : State) (ends : List (Nat × Nat)) :
    (s.unsync ends).platform = s.platform := rfl

@[simp] theorem State.unsync_schedule (s : State) (ends : List (Nat × Nat)) :
    (s.unsync ends).schedule = s.schedule := rfl

@[simp] theorem State.unsync_memAnswer (s : State) (ends : List (Nat × Nat)) :
    (s.unsync ends).memAnswer = s.memAnswer := rfl

@[simp] theorem State.unsync_draws (s : State) (ends : List (Nat × Nat)) :
    (s.unsync ends).draws = s.draws := rfl

@[simp] theorem State.latch_ie (s : State) (w : Word) :
    (s.latch w).ie = s.ie := rfl

@[simp] theorem State.latch_done (s : State) (w : Word) :
    (s.latch w).done = false := rfl

@[simp] theorem State.latch_errcode (s : State) (w : Word) :
    (s.latch w).errcode = .ok := rfl

@[simp] theorem State.latch_ovr (s : State) (w : Word) :
    (s.latch w).ovr = s.ovr := rfl

@[simp] theorem State.latch_cmd (s : State) (w : Word) :
    (s.latch w).cmd = w := rfl

@[simp] theorem State.latch_params (s : State) (w : Word) :
    (s.latch w).params = s.params := rfl

@[simp] theorem State.latch_cap (s : State) (w : Word) :
    (s.latch w).cap = s.cap := rfl

@[simp] theorem State.latch_msgLen (s : State) (w : Word) :
    (s.latch w).msgLen = s.msgLen := rfl

@[simp] theorem State.latch_engine (s : State) (w : Word) :
    (s.latch w).engine = .run { word := w, params := s.params, scan := Scan.fresh } := rfl

@[simp] theorem State.latch_mem (s : State) (w : Word) :
    (s.latch w).mem = s.mem := rfl

@[simp] theorem State.latch_host (s : State) (w : Word) :
    (s.latch w).host = s.host := rfl

@[simp] theorem State.latch_reply (s : State) (w : Word) :
    (s.latch w).reply = s.reply := rfl

@[simp] theorem State.latch_dirty (s : State) (w : Word) :
    (s.latch w).dirty = s.dirty := rfl

@[simp] theorem State.latch_stale (s : State) (w : Word) :
    (s.latch w).stale = s.stale := rfl

@[simp] theorem State.latch_unsynced (s : State) (w : Word) :
    (s.latch w).unsynced = s.unsynced := rfl

@[simp] theorem State.latch_platform (s : State) (w : Word) :
    (s.latch w).platform = s.platform := rfl

@[simp] theorem State.latch_schedule (s : State) (w : Word) :
    (s.latch w).schedule = s.schedule := rfl

@[simp] theorem State.latch_memAnswer (s : State) (w : Word) :
    (s.latch w).memAnswer = s.memAnswer := rfl

@[simp] theorem State.latch_draws (s : State) (w : Word) :
    (s.latch w).draws = s.draws := rfl

@[simp] theorem State.loosen_ie (s : State) (job : Job) :
    (s.loosen job).ie = s.ie := rfl

@[simp] theorem State.loosen_done (s : State) (job : Job) :
    (s.loosen job).done = s.done := rfl

@[simp] theorem State.loosen_errcode (s : State) (job : Job) :
    (s.loosen job).errcode = s.errcode := rfl

@[simp] theorem State.loosen_ovr (s : State) (job : Job) :
    (s.loosen job).ovr = s.ovr := rfl

@[simp] theorem State.loosen_cmd (s : State) (job : Job) :
    (s.loosen job).cmd = s.cmd := rfl

@[simp] theorem State.loosen_params (s : State) (job : Job) :
    (s.loosen job).params = s.params := rfl

@[simp] theorem State.loosen_cap (s : State) (job : Job) :
    (s.loosen job).cap = s.cap := rfl

@[simp] theorem State.loosen_msgLen (s : State) (job : Job) :
    (s.loosen job).msgLen = s.msgLen := rfl

@[simp] theorem State.loosen_engine (s : State) (job : Job) :
    (s.loosen job).engine = .run { job with scan := { job.scan with unfixed := true } } := rfl

@[simp] theorem State.loosen_mem (s : State) (job : Job) :
    (s.loosen job).mem = (s.mem.scrambleRanges s.draws job.touched).1 := rfl

@[simp] theorem State.loosen_host (s : State) (job : Job) :
    (s.loosen job).host = s.host := rfl

@[simp] theorem State.loosen_reply (s : State) (job : Job) :
    (s.loosen job).reply = s.reply := rfl

@[simp] theorem State.loosen_dirty (s : State) (job : Job) :
    (s.loosen job).dirty = s.dirty := rfl

@[simp] theorem State.loosen_stale (s : State) (job : Job) :
    (s.loosen job).stale = if s.platform.hostCoherent then s.stale else addRanges s.stale job.touched := rfl

@[simp] theorem State.loosen_unsynced (s : State) (job : Job) :
    (s.loosen job).unsynced = s.unsynced := rfl

@[simp] theorem State.loosen_platform (s : State) (job : Job) :
    (s.loosen job).platform = s.platform := rfl

@[simp] theorem State.loosen_schedule (s : State) (job : Job) :
    (s.loosen job).schedule = s.schedule := rfl

@[simp] theorem State.loosen_memAnswer (s : State) (job : Job) :
    (s.loosen job).memAnswer = s.memAnswer := rfl

@[simp] theorem State.loosen_draws (s : State) (job : Job) :
    (s.loosen job).draws = (s.mem.scrambleRanges s.draws job.touched).2 := rfl

@[simp] theorem State.unfix_ie (s : State) (job : Job) :
    (s.unfix job).ie = s.ie := rfl

@[simp] theorem State.unfix_done (s : State) (job : Job) :
    (s.unfix job).done = s.done := rfl

@[simp] theorem State.unfix_errcode (s : State) (job : Job) :
    (s.unfix job).errcode = s.errcode := rfl

@[simp] theorem State.unfix_ovr (s : State) (job : Job) :
    (s.unfix job).ovr = s.ovr := rfl

@[simp] theorem State.unfix_cmd (s : State) (job : Job) :
    (s.unfix job).cmd = s.cmd := rfl

@[simp] theorem State.unfix_params (s : State) (job : Job) :
    (s.unfix job).params = s.params := rfl

@[simp] theorem State.unfix_cap (s : State) (job : Job) :
    (s.unfix job).cap = s.cap := rfl

@[simp] theorem State.unfix_msgLen (s : State) (job : Job) :
    (s.unfix job).msgLen = s.msgLen := rfl

@[simp] theorem State.unfix_engine (s : State) (job : Job) :
    (s.unfix job).engine = .run { job with scan := { job.scan with unfixed := true } } := rfl

@[simp] theorem State.unfix_mem (s : State) (job : Job) :
    (s.unfix job).mem = s.mem := rfl

@[simp] theorem State.unfix_host (s : State) (job : Job) :
    (s.unfix job).host = s.host := rfl

@[simp] theorem State.unfix_reply (s : State) (job : Job) :
    (s.unfix job).reply = s.reply := rfl

@[simp] theorem State.unfix_dirty (s : State) (job : Job) :
    (s.unfix job).dirty = s.dirty := rfl

@[simp] theorem State.unfix_stale (s : State) (job : Job) :
    (s.unfix job).stale = s.stale := rfl

@[simp] theorem State.unfix_unsynced (s : State) (job : Job) :
    (s.unfix job).unsynced = s.unsynced := rfl

@[simp] theorem State.unfix_platform (s : State) (job : Job) :
    (s.unfix job).platform = s.platform := rfl

@[simp] theorem State.unfix_schedule (s : State) (job : Job) :
    (s.unfix job).schedule = s.schedule := rfl

@[simp] theorem State.unfix_memAnswer (s : State) (job : Job) :
    (s.unfix job).memAnswer = s.memAnswer := rfl

@[simp] theorem State.unfix_draws (s : State) (job : Job) :
    (s.unfix job).draws = s.draws := rfl

@[simp] theorem State.hostPut_ie (s : State) (a : Nat) (b : Byte) :
    (s.hostPut a b).ie = s.ie := rfl

@[simp] theorem State.hostPut_done (s : State) (a : Nat) (b : Byte) :
    (s.hostPut a b).done = s.done := rfl

@[simp] theorem State.hostPut_errcode (s : State) (a : Nat) (b : Byte) :
    (s.hostPut a b).errcode = s.errcode := rfl

@[simp] theorem State.hostPut_ovr (s : State) (a : Nat) (b : Byte) :
    (s.hostPut a b).ovr = s.ovr := rfl

@[simp] theorem State.hostPut_cmd (s : State) (a : Nat) (b : Byte) :
    (s.hostPut a b).cmd = s.cmd := rfl

@[simp] theorem State.hostPut_params (s : State) (a : Nat) (b : Byte) :
    (s.hostPut a b).params = s.params := rfl

@[simp] theorem State.hostPut_cap (s : State) (a : Nat) (b : Byte) :
    (s.hostPut a b).cap = s.cap := rfl

@[simp] theorem State.hostPut_msgLen (s : State) (a : Nat) (b : Byte) :
    (s.hostPut a b).msgLen = s.msgLen := rfl

@[simp] theorem State.hostPut_engine (s : State) (a : Nat) (b : Byte) :
    (s.hostPut a b).engine = s.engine := rfl

@[simp] theorem State.hostPut_mem (s : State) (a : Nat) (b : Byte) :
    (s.hostPut a b).mem = s.mem.write a b := rfl

@[simp] theorem State.hostPut_host (s : State) (a : Nat) (b : Byte) :
    (s.hostPut a b).host = s.host := rfl

@[simp] theorem State.hostPut_reply (s : State) (a : Nat) (b : Byte) :
    (s.hostPut a b).reply = s.reply := rfl

@[simp] theorem State.hostPut_dirty (s : State) (a : Nat) (b : Byte) :
    (s.hostPut a b).dirty = if s.platform.hostCoherent then s.dirty else addAddr s.dirty a := rfl

@[simp] theorem State.hostPut_stale (s : State) (a : Nat) (b : Byte) :
    (s.hostPut a b).stale = s.stale.filter (· ≠ a) := rfl

@[simp] theorem State.hostPut_unsynced (s : State) (a : Nat) (b : Byte) :
    (s.hostPut a b).unsynced = s.unsynced := rfl

@[simp] theorem State.hostPut_platform (s : State) (a : Nat) (b : Byte) :
    (s.hostPut a b).platform = s.platform := rfl

@[simp] theorem State.hostPut_schedule (s : State) (a : Nat) (b : Byte) :
    (s.hostPut a b).schedule = s.schedule := rfl

@[simp] theorem State.hostPut_memAnswer (s : State) (a : Nat) (b : Byte) :
    (s.hostPut a b).memAnswer = s.memAnswer := rfl

@[simp] theorem State.hostPut_draws (s : State) (a : Nat) (b : Byte) :
    (s.hostPut a b).draws = s.draws := rfl

@[simp] theorem State.busPut_ie (s : State) (a : Nat) (b : Byte) :
    (s.busPut a b).ie = s.ie := rfl

@[simp] theorem State.busPut_done (s : State) (a : Nat) (b : Byte) :
    (s.busPut a b).done = s.done := rfl

@[simp] theorem State.busPut_errcode (s : State) (a : Nat) (b : Byte) :
    (s.busPut a b).errcode = s.errcode := rfl

@[simp] theorem State.busPut_ovr (s : State) (a : Nat) (b : Byte) :
    (s.busPut a b).ovr = s.ovr := rfl

@[simp] theorem State.busPut_cmd (s : State) (a : Nat) (b : Byte) :
    (s.busPut a b).cmd = s.cmd := rfl

@[simp] theorem State.busPut_params (s : State) (a : Nat) (b : Byte) :
    (s.busPut a b).params = s.params := rfl

@[simp] theorem State.busPut_cap (s : State) (a : Nat) (b : Byte) :
    (s.busPut a b).cap = s.cap := rfl

@[simp] theorem State.busPut_msgLen (s : State) (a : Nat) (b : Byte) :
    (s.busPut a b).msgLen = s.msgLen := rfl

@[simp] theorem State.busPut_engine (s : State) (a : Nat) (b : Byte) :
    (s.busPut a b).engine = s.engine := rfl

@[simp] theorem State.busPut_mem (s : State) (a : Nat) (b : Byte) :
    (s.busPut a b).mem = s.mem.write a b := rfl

@[simp] theorem State.busPut_host (s : State) (a : Nat) (b : Byte) :
    (s.busPut a b).host = s.host := rfl

@[simp] theorem State.busPut_reply (s : State) (a : Nat) (b : Byte) :
    (s.busPut a b).reply = s.reply := rfl

@[simp] theorem State.busPut_dirty (s : State) (a : Nat) (b : Byte) :
    (s.busPut a b).dirty = s.dirty := rfl

@[simp] theorem State.busPut_stale (s : State) (a : Nat) (b : Byte) :
    (s.busPut a b).stale = if s.platform.hostCoherent then s.stale else addAddr s.stale a := rfl

@[simp] theorem State.busPut_unsynced (s : State) (a : Nat) (b : Byte) :
    (s.busPut a b).unsynced = s.unsynced := rfl

@[simp] theorem State.busPut_platform (s : State) (a : Nat) (b : Byte) :
    (s.busPut a b).platform = s.platform := rfl

@[simp] theorem State.busPut_schedule (s : State) (a : Nat) (b : Byte) :
    (s.busPut a b).schedule = s.schedule := rfl

@[simp] theorem State.busPut_memAnswer (s : State) (a : Nat) (b : Byte) :
    (s.busPut a b).memAnswer = s.memAnswer := rfl

@[simp] theorem State.busPut_draws (s : State) (a : Nat) (b : Byte) :
    (s.busPut a b).draws = s.draws := rfl

@[simp] theorem State.dropWrite_ie (s : State) :
    (s.dropWrite).ie = s.ie := rfl

@[simp] theorem State.dropWrite_done (s : State) :
    (s.dropWrite).done = s.done := rfl

@[simp] theorem State.dropWrite_errcode (s : State) :
    (s.dropWrite).errcode = s.errcode := rfl

@[simp] theorem State.dropWrite_ovr (s : State) :
    (s.dropWrite).ovr = true := rfl

@[simp] theorem State.dropWrite_cmd (s : State) :
    (s.dropWrite).cmd = s.cmd := rfl

@[simp] theorem State.dropWrite_params (s : State) :
    (s.dropWrite).params = s.params := rfl

@[simp] theorem State.dropWrite_cap (s : State) :
    (s.dropWrite).cap = s.cap := rfl

@[simp] theorem State.dropWrite_msgLen (s : State) :
    (s.dropWrite).msgLen = s.msgLen := rfl

@[simp] theorem State.dropWrite_engine (s : State) :
    (s.dropWrite).engine = s.engine := rfl

@[simp] theorem State.dropWrite_mem (s : State) :
    (s.dropWrite).mem = s.mem := rfl

@[simp] theorem State.dropWrite_host (s : State) :
    (s.dropWrite).host = s.host := rfl

@[simp] theorem State.dropWrite_reply (s : State) :
    (s.dropWrite).reply = s.reply := rfl

@[simp] theorem State.dropWrite_dirty (s : State) :
    (s.dropWrite).dirty = s.dirty := rfl

@[simp] theorem State.dropWrite_stale (s : State) :
    (s.dropWrite).stale = s.stale := rfl

@[simp] theorem State.dropWrite_unsynced (s : State) :
    (s.dropWrite).unsynced = s.unsynced := rfl

@[simp] theorem State.dropWrite_platform (s : State) :
    (s.dropWrite).platform = s.platform := rfl

@[simp] theorem State.dropWrite_schedule (s : State) :
    (s.dropWrite).schedule = s.schedule := rfl

@[simp] theorem State.dropWrite_memAnswer (s : State) :
    (s.dropWrite).memAnswer = s.memAnswer := rfl

@[simp] theorem State.dropWrite_draws (s : State) :
    (s.dropWrite).draws = s.draws := rfl

@[simp] theorem State.clearFlags_ie (s : State) (w : Word) :
    (s.clearFlags w).ie = s.ie := rfl

@[simp] theorem State.clearFlags_done (s : State) (w : Word) :
    (s.clearFlags w).done = (s.done && !w.getLsbD 1) := rfl

@[simp] theorem State.clearFlags_errcode (s : State) (w : Word) :
    (s.clearFlags w).errcode = s.errcode := rfl

@[simp] theorem State.clearFlags_ovr (s : State) (w : Word) :
    (s.clearFlags w).ovr = (s.ovr && !w.getLsbD 8) := rfl

@[simp] theorem State.clearFlags_cmd (s : State) (w : Word) :
    (s.clearFlags w).cmd = s.cmd := rfl

@[simp] theorem State.clearFlags_params (s : State) (w : Word) :
    (s.clearFlags w).params = s.params := rfl

@[simp] theorem State.clearFlags_cap (s : State) (w : Word) :
    (s.clearFlags w).cap = s.cap := rfl

@[simp] theorem State.clearFlags_msgLen (s : State) (w : Word) :
    (s.clearFlags w).msgLen = s.msgLen := rfl

@[simp] theorem State.clearFlags_engine (s : State) (w : Word) :
    (s.clearFlags w).engine = s.engine := rfl

@[simp] theorem State.clearFlags_mem (s : State) (w : Word) :
    (s.clearFlags w).mem = s.mem := rfl

@[simp] theorem State.clearFlags_host (s : State) (w : Word) :
    (s.clearFlags w).host = s.host := rfl

@[simp] theorem State.clearFlags_reply (s : State) (w : Word) :
    (s.clearFlags w).reply = s.reply := rfl

@[simp] theorem State.clearFlags_dirty (s : State) (w : Word) :
    (s.clearFlags w).dirty = s.dirty := rfl

@[simp] theorem State.clearFlags_stale (s : State) (w : Word) :
    (s.clearFlags w).stale = s.stale := rfl

@[simp] theorem State.clearFlags_unsynced (s : State) (w : Word) :
    (s.clearFlags w).unsynced = s.unsynced := rfl

@[simp] theorem State.clearFlags_platform (s : State) (w : Word) :
    (s.clearFlags w).platform = s.platform := rfl

@[simp] theorem State.clearFlags_schedule (s : State) (w : Word) :
    (s.clearFlags w).schedule = s.schedule := rfl

@[simp] theorem State.clearFlags_memAnswer (s : State) (w : Word) :
    (s.clearFlags w).memAnswer = s.memAnswer := rfl

@[simp] theorem State.clearFlags_draws (s : State) (w : Word) :
    (s.clearFlags w).draws = s.draws := rfl

@[simp] theorem State.setCtrl_ie (s : State) (w : Word) :
    (s.setCtrl w).ie = w.getLsbD 0 := rfl

@[simp] theorem State.setCtrl_done (s : State) (w : Word) :
    (s.setCtrl w).done = s.done := rfl

@[simp] theorem State.setCtrl_errcode (s : State) (w : Word) :
    (s.setCtrl w).errcode = s.errcode := rfl

@[simp] theorem State.setCtrl_ovr (s : State) (w : Word) :
    (s.setCtrl w).ovr = s.ovr := rfl

@[simp] theorem State.setCtrl_cmd (s : State) (w : Word) :
    (s.setCtrl w).cmd = s.cmd := rfl

@[simp] theorem State.setCtrl_params (s : State) (w : Word) :
    (s.setCtrl w).params = s.params := rfl

@[simp] theorem State.setCtrl_cap (s : State) (w : Word) :
    (s.setCtrl w).cap = s.cap := rfl

@[simp] theorem State.setCtrl_msgLen (s : State) (w : Word) :
    (s.setCtrl w).msgLen = s.msgLen := rfl

@[simp] theorem State.setCtrl_engine (s : State) (w : Word) :
    (s.setCtrl w).engine = s.engine := rfl

@[simp] theorem State.setCtrl_mem (s : State) (w : Word) :
    (s.setCtrl w).mem = s.mem := rfl

@[simp] theorem State.setCtrl_host (s : State) (w : Word) :
    (s.setCtrl w).host = s.host := rfl

@[simp] theorem State.setCtrl_reply (s : State) (w : Word) :
    (s.setCtrl w).reply = s.reply := rfl

@[simp] theorem State.setCtrl_dirty (s : State) (w : Word) :
    (s.setCtrl w).dirty = s.dirty := rfl

@[simp] theorem State.setCtrl_stale (s : State) (w : Word) :
    (s.setCtrl w).stale = s.stale := rfl

@[simp] theorem State.setCtrl_unsynced (s : State) (w : Word) :
    (s.setCtrl w).unsynced = s.unsynced := rfl

@[simp] theorem State.setCtrl_platform (s : State) (w : Word) :
    (s.setCtrl w).platform = s.platform := rfl

@[simp] theorem State.setCtrl_schedule (s : State) (w : Word) :
    (s.setCtrl w).schedule = s.schedule := rfl

@[simp] theorem State.setCtrl_memAnswer (s : State) (w : Word) :
    (s.setCtrl w).memAnswer = s.memAnswer := rfl

@[simp] theorem State.setCtrl_draws (s : State) (w : Word) :
    (s.setCtrl w).draws = s.draws := rfl

@[simp] theorem State.hostNext_ie (s : State) :
    (s.hostNext).ie = s.ie := rfl

@[simp] theorem State.hostNext_done (s : State) :
    (s.hostNext).done = s.done := rfl

@[simp] theorem State.hostNext_errcode (s : State) :
    (s.hostNext).errcode = s.errcode := rfl

@[simp] theorem State.hostNext_ovr (s : State) :
    (s.hostNext).ovr = s.ovr := rfl

@[simp] theorem State.hostNext_cmd (s : State) :
    (s.hostNext).cmd = s.cmd := rfl

@[simp] theorem State.hostNext_params (s : State) :
    (s.hostNext).params = s.params := rfl

@[simp] theorem State.hostNext_cap (s : State) :
    (s.hostNext).cap = s.cap := rfl

@[simp] theorem State.hostNext_msgLen (s : State) :
    (s.hostNext).msgLen = s.msgLen := rfl

@[simp] theorem State.hostNext_engine (s : State) :
    (s.hostNext).engine = s.engine := rfl

@[simp] theorem State.hostNext_mem (s : State) :
    (s.hostNext).mem = s.mem := rfl

@[simp] theorem State.hostNext_host (s : State) :
    (s.hostNext).host = { s.host with pc := s.host.pc + 1 } := rfl

@[simp] theorem State.hostNext_reply (s : State) :
    (s.hostNext).reply = s.reply := rfl

@[simp] theorem State.hostNext_dirty (s : State) :
    (s.hostNext).dirty = s.dirty := rfl

@[simp] theorem State.hostNext_stale (s : State) :
    (s.hostNext).stale = s.stale := rfl

@[simp] theorem State.hostNext_unsynced (s : State) :
    (s.hostNext).unsynced = s.unsynced := rfl

@[simp] theorem State.hostNext_platform (s : State) :
    (s.hostNext).platform = s.platform := rfl

@[simp] theorem State.hostNext_schedule (s : State) :
    (s.hostNext).schedule = s.schedule := rfl

@[simp] theorem State.hostNext_memAnswer (s : State) :
    (s.hostNext).memAnswer = s.memAnswer := rfl

@[simp] theorem State.hostNext_draws (s : State) :
    (s.hostNext).draws = s.draws := rfl

@[simp] theorem State.hostHalt_ie (s : State) :
    (s.hostHalt).ie = s.ie := rfl

@[simp] theorem State.hostHalt_done (s : State) :
    (s.hostHalt).done = s.done := rfl

@[simp] theorem State.hostHalt_errcode (s : State) :
    (s.hostHalt).errcode = s.errcode := rfl

@[simp] theorem State.hostHalt_ovr (s : State) :
    (s.hostHalt).ovr = s.ovr := rfl

@[simp] theorem State.hostHalt_cmd (s : State) :
    (s.hostHalt).cmd = s.cmd := rfl

@[simp] theorem State.hostHalt_params (s : State) :
    (s.hostHalt).params = s.params := rfl

@[simp] theorem State.hostHalt_cap (s : State) :
    (s.hostHalt).cap = s.cap := rfl

@[simp] theorem State.hostHalt_msgLen (s : State) :
    (s.hostHalt).msgLen = s.msgLen := rfl

@[simp] theorem State.hostHalt_engine (s : State) :
    (s.hostHalt).engine = s.engine := rfl

@[simp] theorem State.hostHalt_mem (s : State) :
    (s.hostHalt).mem = s.mem := rfl

@[simp] theorem State.hostHalt_host (s : State) :
    (s.hostHalt).host = { s.host with halted := true } := rfl

@[simp] theorem State.hostHalt_reply (s : State) :
    (s.hostHalt).reply = s.reply := rfl

@[simp] theorem State.hostHalt_dirty (s : State) :
    (s.hostHalt).dirty = s.dirty := rfl

@[simp] theorem State.hostHalt_stale (s : State) :
    (s.hostHalt).stale = s.stale := rfl

@[simp] theorem State.hostHalt_unsynced (s : State) :
    (s.hostHalt).unsynced = s.unsynced := rfl

@[simp] theorem State.hostHalt_platform (s : State) :
    (s.hostHalt).platform = s.platform := rfl

@[simp] theorem State.hostHalt_schedule (s : State) :
    (s.hostHalt).schedule = s.schedule := rfl

@[simp] theorem State.hostHalt_memAnswer (s : State) :
    (s.hostHalt).memAnswer = s.memAnswer := rfl

@[simp] theorem State.hostHalt_draws (s : State) :
    (s.hostHalt).draws = s.draws := rfl

@[simp] theorem State.resetRegs_ie (s : State) :
    (s.resetRegs).ie = false := rfl

@[simp] theorem State.resetRegs_done (s : State) :
    (s.resetRegs).done = false := rfl

@[simp] theorem State.resetRegs_errcode (s : State) :
    (s.resetRegs).errcode = .ok := rfl

@[simp] theorem State.resetRegs_ovr (s : State) :
    (s.resetRegs).ovr = false := rfl

@[simp] theorem State.resetRegs_cmd (s : State) :
    (s.resetRegs).cmd = 0 := rfl

@[simp] theorem State.resetRegs_params (s : State) :
    (s.resetRegs).params = Params.reset := rfl

@[simp] theorem State.resetRegs_cap (s : State) :
    (s.resetRegs).cap = 0 := rfl

@[simp] theorem State.resetRegs_msgLen (s : State) :
    (s.resetRegs).msgLen = 0 := rfl

@[simp] theorem State.resetRegs_engine (s : State) :
    (s.resetRegs).engine = .idle := rfl

@[simp] theorem State.resetRegs_mem (s : State) :
    (s.resetRegs).mem = s.mem := rfl

@[simp] theorem State.resetRegs_host (s : State) :
    (s.resetRegs).host = s.host := rfl

@[simp] theorem State.resetRegs_reply (s : State) :
    (s.resetRegs).reply = s.reply := rfl

@[simp] theorem State.resetRegs_dirty (s : State) :
    (s.resetRegs).dirty = s.dirty := rfl

@[simp] theorem State.resetRegs_stale (s : State) :
    (s.resetRegs).stale = s.stale := rfl

@[simp] theorem State.resetRegs_unsynced (s : State) :
    (s.resetRegs).unsynced = s.unsynced := rfl

@[simp] theorem State.resetRegs_platform (s : State) :
    (s.resetRegs).platform = s.platform := rfl

@[simp] theorem State.resetRegs_schedule (s : State) :
    (s.resetRegs).schedule = s.schedule := rfl

@[simp] theorem State.resetRegs_memAnswer (s : State) :
    (s.resetRegs).memAnswer = .okay := rfl

@[simp] theorem State.resetRegs_draws (s : State) :
    (s.resetRegs).draws = s.draws := rfl

section complete
variable (s : State) (job : Job) (ends : List (Nat × Nat)) (c : Code) (cap : Option (BitVec 34)) (len : Option Word)

@[simp] theorem State.complete_ie :
    (s.complete job ends c cap len).ie = s.ie := by
  unfold State.complete; split <;> rfl

@[simp] theorem State.complete_done :
    (s.complete job ends c cap len).done = true := by
  unfold State.complete; split <;> rfl

@[simp] theorem State.complete_errcode :
    (s.complete job ends c cap len).errcode = if job.scan.unfixed then Config.freeCode s.draws else c := by
  unfold State.complete; split <;> rfl

@[simp] theorem State.complete_ovr :
    (s.complete job ends c cap len).ovr = s.ovr := by
  unfold State.complete; split <;> rfl

@[simp] theorem State.complete_cmd :
    (s.complete job ends c cap len).cmd = s.cmd := by
  unfold State.complete; split <;> rfl

@[simp] theorem State.complete_params :
    (s.complete job ends c cap len).params = s.params := by
  unfold State.complete; split <;> rfl

@[simp] theorem State.complete_cap :
    (s.complete job ends c cap len).cap = if job.scan.unfixed then Config.freeCap s.draws else cap.getD s.cap := by
  unfold State.complete; split <;> rfl

@[simp] theorem State.complete_msgLen :
    (s.complete job ends c cap len).msgLen =
      if job.scan.unfixed then Config.freeLen s.draws else len.getD s.msgLen := by
  unfold State.complete; split <;> rfl

@[simp] theorem State.complete_engine :
    (s.complete job ends c cap len).engine = .idle := by
  unfold State.complete; split <;> rfl

@[simp] theorem State.complete_mem :
    (s.complete job ends c cap len).mem = s.mem := by
  unfold State.complete; split <;> rfl

@[simp] theorem State.complete_host :
    (s.complete job ends c cap len).host = s.host := by
  unfold State.complete; split <;> rfl

@[simp] theorem State.complete_reply :
    (s.complete job ends c cap len).reply = s.reply := by
  unfold State.complete; split <;> rfl

@[simp] theorem State.complete_dirty :
    (s.complete job ends c cap len).dirty = s.dirty := by
  unfold State.complete; split <;> rfl

@[simp] theorem State.complete_stale :
    (s.complete job ends c cap len).stale = s.stale := by
  unfold State.complete; split <;> rfl

@[simp] theorem State.complete_unsynced :
    (s.complete job ends c cap len).unsynced =
      if s.platform.hostCoherent then s.unsynced else addRanges s.unsynced ends := by
  unfold State.complete; split <;> rfl

@[simp] theorem State.complete_platform :
    (s.complete job ends c cap len).platform = s.platform := by
  unfold State.complete; split <;> rfl

@[simp] theorem State.complete_schedule :
    (s.complete job ends c cap len).schedule = s.schedule := by
  unfold State.complete; split <;> rfl

@[simp] theorem State.complete_memAnswer :
    (s.complete job ends c cap len).memAnswer = s.memAnswer := by
  unfold State.complete; split <;> rfl

@[simp] theorem State.complete_draws :
    (s.complete job ends c cap len).draws = if job.scan.unfixed then s.draws + 1 else s.draws := by
  unfold State.complete; split <;> rfl

end complete

section unsyncRunning
variable (s : State)

@[simp] theorem State.unsyncRunning_ie : s.unsyncRunning.ie = s.ie := by
  unfold State.unsyncRunning; split <;> rfl

@[simp] theorem State.unsyncRunning_done : s.unsyncRunning.done = s.done := by
  unfold State.unsyncRunning; split <;> rfl

@[simp] theorem State.unsyncRunning_errcode : s.unsyncRunning.errcode = s.errcode := by
  unfold State.unsyncRunning; split <;> rfl

@[simp] theorem State.unsyncRunning_ovr : s.unsyncRunning.ovr = s.ovr := by
  unfold State.unsyncRunning; split <;> rfl

@[simp] theorem State.unsyncRunning_cmd : s.unsyncRunning.cmd = s.cmd := by
  unfold State.unsyncRunning; split <;> rfl

@[simp] theorem State.unsyncRunning_params : s.unsyncRunning.params = s.params := by
  unfold State.unsyncRunning; split <;> rfl

@[simp] theorem State.unsyncRunning_cap : s.unsyncRunning.cap = s.cap := by
  unfold State.unsyncRunning; split <;> rfl

@[simp] theorem State.unsyncRunning_msgLen : s.unsyncRunning.msgLen = s.msgLen := by
  unfold State.unsyncRunning; split <;> rfl

@[simp] theorem State.unsyncRunning_engine : s.unsyncRunning.engine = s.engine := by
  unfold State.unsyncRunning; split <;> rfl

@[simp] theorem State.unsyncRunning_mem : s.unsyncRunning.mem = s.mem := by
  unfold State.unsyncRunning; split <;> rfl

@[simp] theorem State.unsyncRunning_host : s.unsyncRunning.host = s.host := by
  unfold State.unsyncRunning; split <;> rfl

@[simp] theorem State.unsyncRunning_reply : s.unsyncRunning.reply = s.reply := by
  unfold State.unsyncRunning; split <;> rfl

@[simp] theorem State.unsyncRunning_dirty : s.unsyncRunning.dirty = s.dirty := by
  unfold State.unsyncRunning; split <;> rfl

@[simp] theorem State.unsyncRunning_stale : s.unsyncRunning.stale = s.stale := by
  unfold State.unsyncRunning; split <;> rfl

@[simp] theorem State.unsyncRunning_platform : s.unsyncRunning.platform = s.platform := by
  unfold State.unsyncRunning; split <;> rfl

@[simp] theorem State.unsyncRunning_schedule : s.unsyncRunning.schedule = s.schedule := by
  unfold State.unsyncRunning; split <;> rfl

@[simp] theorem State.unsyncRunning_memAnswer : s.unsyncRunning.memAnswer = s.memAnswer := by
  unfold State.unsyncRunning; split <;> rfl

@[simp] theorem State.unsyncRunning_draws : s.unsyncRunning.draws = s.draws := by
  unfold State.unsyncRunning; split <;> rfl

end unsyncRunning

end Sys2Proof.Machine
end

