-- ==== Sys2Proof/Laws/HostMemory.lean ====
section
/-! SUPPORT. What the accesses from outside and the cache maintenance of the host can do to memory, said once for each
operation. -/

namespace Sys2Proof.Machine

/-! ## Sets of addresses -/

@[simp] theorem mem_addAddr {l : List Nat} {a x : Nat} : x ∈ addAddr l a ↔ x = a ∨ x ∈ l := by
  unfold addAddr
  split
  · exact ⟨.inr, fun h => h.elim (· ▸ by assumption) id⟩
  · exact List.mem_cons

theorem mem_addRange {l : List Nat} {base len x : Nat} :
    x ∈ addRange l base len ↔ x ∈ l ∨ (base ≤ x ∧ x < base + len) := by
  induction len with
  | zero => exact ⟨.inl, fun h => h.elim id fun h => absurd h (by omega)⟩
  | succ len ih =>
    have : x = base + len ∨ (base ≤ x ∧ x < base + len) ↔ base ≤ x ∧ x < base + (len + 1) := by omega
    rw [addRange, mem_addAddr, ih, ← this, or_left_comm]

@[simp] theorem mem_addRanges {l : List Nat} {ranges : List (Nat × Nat)} {x : Nat} :
    x ∈ addRanges l ranges ↔ x ∈ l ∨ inRanges x ranges = true := by
  induction ranges generalizing l with
  | nil => simp [addRanges, inRanges]
  | cons r ranges ih => simp only [addRanges, ih, mem_addRange, inRanges, List.any_cons, Bool.or_eq_true,
      decide_eq_true_eq, or_assoc]

namespace IsAddrSet

theorem nil : IsAddrSet [] := ⟨List.nodup_nil, by simp⟩

theorem addAddr {l : List Nat} (h : IsAddrSet l) {a : Nat} (ha : a < Config.addrSpace) : IsAddrSet (addAddr l a) := by
  refine ⟨?_, fun x hx => (mem_addAddr.1 hx).elim (· ▸ ha) (h.2 x)⟩
  unfold Machine.addAddr
  split
  · exact h.1
  · exact List.nodup_cons.2 ⟨by assumption, h.1⟩

theorem addRange {l : List Nat} (h : IsAddrSet l) {base len : Nat} (hr : base + len ≤ Config.addrSpace) :
    IsAddrSet (addRange l base len) := by
  induction len with
  | zero => exact h
  | succ len ih => exact (ih (by omega)).addAddr (by omega)

theorem addRanges {l : List Nat} (h : IsAddrSet l) {ranges : List (Nat × Nat)}
    (hr : ∀ r ∈ ranges, r.1 + r.2 ≤ Config.addrSpace) : IsAddrSet (addRanges l ranges) := by
  induction ranges generalizing l with
  | nil => exact h
  | cons r ranges ih => exact ih (h.addRange (hr r (by simp))) fun x hx => hr x (by simp [hx])

theorem filter {l : List Nat} (h : IsAddrSet l) (p : Nat → Bool) : IsAddrSet (l.filter p) :=
  ⟨h.1.filter p, fun x hx => h.2 x (List.mem_filter.1 hx).1⟩

/-- A set that grows only without HOST_COHERENT. -/
theorem unlessCoherent {l l' : List Nat} (c : Bool) (h : IsAddrSet l) (h' : IsAddrSet l') :
    IsAddrSet (if c then l else l') := by cases c <;> assumption

end IsAddrSet

/-! ## Reads -/

section readBytes
variable (isOpen : Nat → Bool) (m : Memory)

theorem readBytes_length (a d c : Nat) : (readBytes isOpen m a d c).1.length = c := by
  induction c generalizing a d with
  | zero => rfl
  | succ c ih => simp [readBytes, ih]

/-- A read never takes back a free value. -/
theorem readBytes_draws (a d c : Nat) : d ≤ (readBytes isOpen m a d c).2 := by
  induction c generalizing a d with
  | zero => exact Nat.le_refl _
  | succ c ih =>
    have := ih (a + 1) (if isOpen a then d + 1 else d)
    exact Nat.le_trans (by split <;> omega) this

/-- Each byte read is the byte of memory, or a fresh free value where the read is open. -/
theorem readBytes_byte {a d c i : Nat} (hi : i < c) :
    (isOpen (a + i) = false → (readBytes isOpen m a d c).1.getD i 0 = m.read (a + i)) ∧
    (isOpen (a + i) = true → ∃ e, d ≤ e ∧ e < (readBytes isOpen m a d c).2 ∧
      (readBytes isOpen m a d c).1.getD i 0 = Config.freeByte e) := by
  induction c generalizing a d i with
  | zero => omega
  | succ c ih =>
    have hd := readBytes_draws isOpen m (a + 1) (if isOpen a then d + 1 else d) c
    cases i with
    | zero =>
      refine ⟨fun h => by simp_all [readBytes], fun h => ⟨d, Nat.le_refl _, ?_, by simp_all [readBytes]⟩⟩
      simp only [Nat.add_zero] at h
      simp only [readBytes, h, if_true] at hd ⊢
      omega
    | succ i =>
      have := ih (a := a + 1) (d := if isOpen a then d + 1 else d) (i := i) (by omega)
      have ha : a + 1 + i = a + (i + 1) := by omega
      rw [ha] at this
      refine ⟨fun h => by simpa [readBytes] using this.1 h, fun h => ?_⟩
      obtain ⟨e, h1, h2, h3⟩ := this.2 h
      exact ⟨e, by split at h1 <;> omega, h2, by simpa [readBytes] using h3⟩

/-- Where no byte is open the bytes of memory are read, and no free value is used. -/
theorem readBytes_closed {a d c : Nat} (h : ∀ i < c, isOpen (a + i) = false) :
    readBytes isOpen m a d c = ((List.range c).map fun i => m.read (a + i), d) := by
  induction c generalizing a d with
  | zero => rfl
  | succ c ih =>
    have h0 : isOpen a = false := h 0 (by omega)
    have := ih (a := a + 1) (d := d) fun i hi => by
      have := h (i + 1) (by omega)
      rwa [← Nat.add_assoc, Nat.add_right_comm] at this
    simp [readBytes, h0, this, List.range_succ_eq_map, Function.comp_def, Nat.add_assoc, Nat.add_comm 1]

end readBytes

theorem inRange_iff (a n : Nat) : inRange a n = true ↔ a + n ≤ 2 ^ 32 := decide_eq_true_iff

/-- A read inside the address space gives its bytes. -/
theorem readAccess_inside (isOpen : Nat → Bool) {addr : Word} {count : Nat} (s : State)
    (h : addr.toNat + count ≤ 2 ^ 32) :
    s.readAccess isOpen addr count = { s with
      reply := .bytes (readBytes isOpen s.mem addr.toNat s.draws count).1
      draws := (readBytes isOpen s.mem addr.toNat s.draws count).2 } := by
  unfold State.readAccess
  rw [if_pos ((inRange_iff _ _).2 h)]

/-- A read that runs past the address space is answered ERROR and does nothing else. -/
theorem readAccess_outside (isOpen : Nat → Bool) {addr : Word} {count : Nat} (s : State)
    (h : 2 ^ 32 < addr.toNat + count) : s.readAccess isOpen addr count = { s with reply := .error } := by
  unfold State.readAccess
  rw [if_neg (by rw [inRange_iff]; omega)]

/-- Everything a read of memory from outside can do. -/
theorem readAccess_cases (isOpen : Nat → Bool) (addr : Word) (count : Nat) (s : State) :
    ∃ r d, s.readAccess isOpen addr count = { s with reply := r, draws := d } ∧ s.draws ≤ d := by
  by_cases h : addr.toNat + count ≤ 2 ^ 32
  · exact ⟨_, _, readAccess_inside isOpen s h, readBytes_draws _ _ _ _ _⟩
  · exact ⟨_, s.draws, readAccess_outside isOpen s (by omega), Nat.le_refl _⟩

/-! ## Writes -/

/-- A write inside the address space stores its bytes. -/
theorem writeAccess_inside (store : Nat → Byte → State → State) {addr : Word} {bytes : List Byte} (s : State)
    (h : addr.toNat + bytes.length ≤ 2 ^ 32) :
    s.writeAccess store addr bytes = { s.storeBytes store addr.toNat bytes with reply := .okay } := by
  unfold State.writeAccess
  rw [if_pos ((inRange_iff _ _).2 h)]

/-- A write that runs past the address space is answered ERROR and does nothing else. -/
theorem writeAccess_outside (store : Nat → Byte → State → State) {addr : Word} {bytes : List Byte} (s : State)
    (h : 2 ^ 32 < addr.toNat + bytes.length) : s.writeAccess store addr bytes = { s with reply := .error } := by
  unfold State.writeAccess
  rw [if_neg (by rw [inRange_iff]; omega)]

/-! ## Races -/

theorem racedIf_idle {s : State} (h : s.engine = .idle) (meets : List (Nat × Nat) → Bool) : s.racedIf meets = s := by
  simp [State.racedIf, h]

/-- A write from outside races the running command, or changes nothing more. -/
theorem racedIf_cases (meets : List (Nat × Nat) → Bool) (s : State) :
    s.racedIf meets = s ∨ ∃ job, s.engine = .run job ∧ meets job.touched = true ∧ s.racedIf meets = s.loosen job := by
  unfold State.racedIf
  cases h : s.engine with
  | idle => exact .inl rfl
  | run job =>
    cases hm : meets job.touched
    · exact .inl (by simp [hm])
    · exact .inr ⟨job, rfl, hm, by simp [hm]⟩

theorem racedIf_loosen {s : State} {job : Job} {meets : List (Nat × Nat) → Bool} (h : s.engine = .run job)
    (hm : meets job.touched = true) : s.racedIf meets = s.loosen job := by
  simp [State.racedIf, h, hm]

theorem racedIf_other {s : State} {job : Job} {meets : List (Nat × Nat) → Bool} (h : s.engine = .run job)
    (hm : meets job.touched = false) : s.racedIf meets = s := by
  simp [State.racedIf, h, hm]

/-- A race makes every byte of the command's buffers a fresh free value (20_memory.md R75). -/
theorem Memory.read_scrambleRanges_same {m : Memory} (h : m.wf = true) (d : Nat) {l : List (Nat × Nat)} {a : Nat}
    (ha : inRanges a l = true) :
    ∃ e, d ≤ e ∧ e < (m.scrambleRanges d l).2 ∧ (m.scrambleRanges d l).1.read a = Config.freeByte e := by
  have hle : ∀ (l : List (Nat × Nat)) (m : Memory) (d : Nat), d ≤ (m.scrambleRanges d l).2 := by
    intro l
    induction l with
    | nil => intro m d; exact Nat.le_refl _
    | cons r l ih => intro m d; exact Nat.le_trans (Nat.le_add_right _ _) (ih _ _)
  induction l generalizing m d with
  | nil => simp [inRanges] at ha
  | cons r l ih =>
    by_cases hl : inRanges a l = true
    · obtain ⟨e, h1, h2, h3⟩ := ih (Memory.wf_scramble h r.1 d r.2) (d + r.2) hl
      exact ⟨e, by omega, h2, h3⟩
    · have hr : r.1 ≤ a ∧ a < r.1 + r.2 := by
        simp only [inRanges, List.any_cons, Bool.or_eq_true, decide_eq_true_eq] at ha
        exact ha.resolve_right hl
      refine ⟨d + (a - r.1), by omega, ?_, ?_⟩
      · have := hle l (m.scramble r.1 d r.2) (d + r.2)
        simp only [Memory.scrambleRanges]
        omega
      · rw [Memory.scrambleRanges, Memory.read_scrambleRanges_other _ _ _ (by simpa using hl)]
        have := Memory.read_scramble_same h r.1 d (len := r.2) (j := a - r.1) (by omega)
        rwa [Nat.add_sub_cancel' hr.1] at this

/-! ## Bytes that become free -/

section freeBytes
variable (s : State) (l : List Nat)

/-- Making bytes free changes memory and the number of the next free value only. -/
theorem freeBytes_eq : ∃ m d, s.freeBytes l = { s with mem := m, draws := d } ∧ s.draws ≤ d ∧
    (s.mem.wf = true → m.wf = true) ∧
    (s.mem.inSpace = true → (∀ a ∈ l, a < Config.addrSpace) → m.inSpace = true) ∧
    (∀ a, a ∉ l → m.read a = s.mem.read a) ∧
    (s.mem.wf = true → ∀ a ∈ l, ∃ e, s.draws ≤ e ∧ e < d ∧ m.read a = Config.freeByte e) := by
  induction l generalizing s with
  | nil => exact ⟨s.mem, s.draws, rfl, Nat.le_refl _, id, fun h _ => h, fun _ _ => rfl, by simp⟩
  | cons x l ih =>
    obtain ⟨m, d, h1, h2, h3, h4, h5, h6⟩ :=
      ih { s with mem := s.mem.write x (Config.freeByte s.draws), draws := s.draws + 1 }
    refine ⟨m, d, h1, by simp only at h2; omega, fun h => h3 (Memory.wf_write h _ _),
      fun h ha => h4 (Memory.inSpace_write h (ha x (by simp)) _) (fun a hl => ha a (by simp [hl])), ?_, ?_⟩
    · intro a ha
      rw [List.mem_cons, not_or] at ha
      rw [h5 a ha.2]
      exact Memory.read_write_other _ _ ha.1
    · intro hw a ha
      by_cases hl : a ∈ l
      · obtain ⟨e, e1, e2, e3⟩ := h6 (Memory.wf_write hw _ _) a hl
        exact ⟨e, by simp only at e1; omega, e2, e3⟩
      · have hx : a = x := (List.mem_cons.1 ha).resolve_right hl
        subst hx
        exact ⟨s.draws, Nat.le_refl _, by simp only at h2; omega,
          (h5 a hl).trans (Memory.read_write_same hw _ _)⟩

end freeBytes

section freeBytesFields
variable (s : State) (l : List Nat)

@[simp] theorem freeBytes_platform : (s.freeBytes l).platform = s.platform := by
  obtain ⟨m, d, h, -⟩ := freeBytes_eq s l; rw [h]
@[simp] theorem freeBytes_dirty : (s.freeBytes l).dirty = s.dirty := by
  obtain ⟨m, d, h, -⟩ := freeBytes_eq s l; rw [h]
@[simp] theorem freeBytes_stale : (s.freeBytes l).stale = s.stale := by
  obtain ⟨m, d, h, -⟩ := freeBytes_eq s l; rw [h]
@[simp] theorem freeBytes_unsynced : (s.freeBytes l).unsynced = s.unsynced := by
  obtain ⟨m, d, h, -⟩ := freeBytes_eq s l; rw [h]

end freeBytesFields

section writeBack
variable (s : State) (range : Nat × Nat)

/-- A write-back leaves the platform alone, and of the host's cache sets all but the out-of-date copies, to which a race
adds. -/
theorem writeBack_sets : (s.writeBack range).platform = s.platform ∧ (s.writeBack range).dirty = s.dirty ∧
    (s.writeBack range).unsynced = s.unsynced := by
  unfold State.writeBack
  rcases racedIf_cases (linesMeet s.platform (s.dirtyIn range)) (s.freeBytes (s.staleBeside (s.dirtyIn range)))
    with e | ⟨job, -, -, e⟩ <;> simp [e]

@[simp] theorem writeBack_platform : (s.writeBack range).platform = s.platform := (writeBack_sets s range).1
@[simp] theorem writeBack_dirty : (s.writeBack range).dirty = s.dirty := (writeBack_sets s range).2.1
@[simp] theorem writeBack_unsynced : (s.writeBack range).unsynced = s.unsynced := (writeBack_sets s range).2.2

end writeBack

end Sys2Proof.Machine
end

