-- ==== Sys2Proof/Laws/Operands.lean ====
section
/-! SUPPORT. The laws of the derived quantities (00_scope.md R13; 40_planner.md R115) and what it means that the checks
of a command pass (60_exceptions.md R201). -/

namespace Sys2Proof.Machine

theorem rows_lt (p : Params) : p.rows.toNat < 65536 := p.rows.isLt
theorem cols_lt (p : Params) : p.cols.toNat < 65536 := p.cols.isLt
theorem payLen_lt (p : Params) : p.payLen.toNat < 4294967296 := p.payLen.isLt
theorem outSize_lt (p : Params) : p.outSize.toNat < 4294967296 := p.outSize.isLt

/-- The largest image has `65535 * 65535 * 3` channel values (40_planner.md R115). -/
theorem channelCount_le (p : Params) : p.channelCount ≤ 12884508675 := by
  have h1 := rows_lt p
  have h2 := cols_lt p
  have : p.rows.toNat * p.cols.toNat ≤ 65535 * 65535 := Nat.mul_le_mul (by omega) (by omega)
  unfold Params.channelCount Config.channels
  omega

/-- The bits of the planes up to `n` (40_planner.md R115). -/
theorem planeBits_le (p : Params) {n : Nat} (hn : n ≤ 8) : p.channelCount * n ≤ 103076069400 := by
  have := Nat.mul_le_mul (channelCount_le p) hn
  omega

/-- `CAP < 2^34` for every legal bit depth (00_scope.md R13). -/
theorem capacity_lt (p : Params) {n : Nat} (hn : n ≤ 8) : p.capacity n < 17179869184 := by
  have := planeBits_le p hn
  unfold Params.capacity
  omega

/-- The 34 bits of CAP hold the capacity exactly (10_state.md R39). -/
theorem capField_toNat (p : Params) {n : Nat} (hn : n ≤ 8) : (p.capField n).toNat = p.capacity n := by
  rw [Params.capField, BitVec.toNat_ofNat]
  exact Nat.mod_eq_of_lt (capacity_lt p hn)

/-- Eight times the capacity never exceeds the plane bits (40_planner.md R116). -/
theorem eight_capacity_le (p : Params) (n : Nat) : 8 * p.capacity n ≤ p.channelCount * n := by
  unfold Params.capacity
  omega

theorem prologue_none {n : Nat} {k : Option Kind} (h : prologue n k = none) :
    1 ≤ n ∧ n ≤ 8 ∧ ∀ kind, k = some kind → Kind.supported kind = true := by
  unfold prologue Config.nbitsMin Config.nbitsMax at h
  split at h
  · cases h
  · rename_i hn
    split at h
    · cases h
    · rename_i hk
      refine ⟨by omega, by omega, ?_⟩
      rintro kind rfl
      simpa using hk

theorem prologue_cases (n : Nat) (k : Option Kind) :
    prologue n k = none ∨ prologue n k = some .invalidBitDepth ∨ prologue n k = some .unsupportedInputType := by
  unfold prologue
  split
  · simp
  · split <;> simp

theorem prologue_depth {n : Nat} (k : Option Kind) (h : n < 1 ∨ n > 8) : prologue n k = some .invalidBitDepth := by
  unfold prologue Config.nbitsMin Config.nbitsMax
  rw [if_pos (by omega)]

theorem prologue_kind {n : Nat} {k : Kind} (h : ¬ (n < 1 ∨ n > 8)) (hk : k = .k2 ∨ k = .k3) :
    prologue n (some k) = some .unsupportedInputType := by
  unfold prologue Config.nbitsMin Config.nbitsMax
  rw [if_neg (by omega)]
  rcases hk with rfl | rfl <;> rfl

theorem prologue_legal {n : Nat} {k : Kind} (h : ¬ (n < 1 ∨ n > 8)) (hk : ¬ (k = .k2 ∨ k = .k3)) :
    prologue n (some k) = none := by
  unfold prologue Config.nbitsMin Config.nbitsMax
  rw [if_neg (by omega)]
  cases k <;> simp_all [Kind.supported]

theorem prologue_no_kind {n : Nat} (h : ¬ (n < 1 ∨ n > 8)) : prologue n none = none := by
  unfold prologue Config.nbitsMin Config.nbitsMax
  rw [if_neg (by omega)]
  rfl

/-- A kind of a field of 2 bits is unsupported exactly where the field is 2 or 3 (30_encoding.md R93). -/
theorem ofBits_unsupported (b : BitVec 2) : (Kind.ofBits b = .k2 ∨ Kind.ofBits b = .k3) ↔ 2 ≤ b.toNat := by
  revert b; decide

theorem encodeChecks_prologue {n : Nat} {k : Kind} {c : Code} (p : Params) (h : prologue n (some k) = some c) :
    encodeChecks n k p = some c := by
  unfold encodeChecks
  rw [h]

theorem decodeChecks_prologue {n : Nat} {k : Kind} {c : Code} (p : Params) (h : prologue n (some k) = some c) :
    decodeChecks n k p = some c := by
  unfold decodeChecks
  rw [h]

/-- The checks of ENCODE after the prologue, on the exact quantities (60_exceptions.md R201). -/
theorem encodeChecks_legal {n : Nat} {k : Kind} (p : Params) (h : prologue n (some k) = none) :
    encodeChecks n k p =
      if p.effLen > p.capacity n then some .insufficientCapacity
      else if p.imgBase.toNat + p.channelCount > Config.addrSpace ∨
          p.payBase.toNat + p.payLen.toNat > Config.addrSpace then some .addressRange
      else if 0 < p.channelCount ∧ 0 < p.payLen.toNat ∧ p.imgBase.toNat < p.payBase.toNat + p.payLen.toNat ∧
          p.payBase.toNat < p.imgBase.toNat + p.channelCount then some .bufferOverlap
      else none := by
  unfold encodeChecks
  rw [h]
  simp only [Params.fits, inRange, overlap, decide_eq_true_eq, Bool.and_eq_true, not_and_or, not_le]

/-- The checks of DECODE after the prologue, on the exact quantities (60_exceptions.md R201). -/
theorem decodeChecks_legal {n : Nat} {k : Kind} (p : Params) (h : prologue n (some k) = none) :
    decodeChecks n k p =
      if p.outSize.toNat < p.capacity n then some .outputTooSmall
      else if p.imgBase.toNat + p.channelCount > Config.addrSpace ∨
          p.outBase.toNat + p.capacity n > Config.addrSpace then some .addressRange
      else if 0 < p.channelCount ∧ 0 < p.capacity n ∧ p.imgBase.toNat < p.outBase.toNat + p.capacity n ∧
          p.outBase.toNat < p.imgBase.toNat + p.channelCount then some .bufferOverlap
      else none := by
  unfold decodeChecks
  rw [h]
  simp only [inRange, overlap, decide_eq_true_eq, Bool.and_eq_true, not_and_or, not_le]

/-- What holds of the operands of an ENCODE whose checks pass. -/
structure EncodeReady (n : Nat) (p : Params) : Prop where
  one_le : 1 ≤ n
  le_eight : n ≤ 8
  fits : p.effLen ≤ p.capacity n
  imgRange : p.imgBase.toNat + p.channelCount ≤ 4294967296
  payRange : p.payBase.toNat + p.payLen.toNat ≤ 4294967296
  apart : p.payLen.toNat = 0 ∨ p.imgBase.toNat + p.channelCount ≤ p.payBase.toNat ∨
    p.payBase.toNat + p.payLen.toNat ≤ p.imgBase.toNat

theorem encodeReady {n : Nat} {kind : Kind} {p : Params} (h : encodeChecks n kind p = none) : EncodeReady n p := by
  unfold encodeChecks at h
  cases hp : prologue n (some kind) with
  | some c => simp [hp] at h
  | none =>
    have ⟨h1, h8, _⟩ := prologue_none hp
    simp only [hp] at h
    split at h
    · cases h
    · rename_i hf
      split at h
      · cases h
      · rename_i hr
        split at h
        · cases h
        · rename_i ho
          simp only [Params.fits, inRange, overlap, Config.addrSpace, Bool.and_eq_true, decide_eq_true_eq,
            Decidable.not_not] at hf hr ho
          have hlen : 0 < p.effLen := by unfold Params.effLen Config.sentLen; omega
          have := eight_capacity_le p n
          have hN : 0 < p.channelCount := by
            rcases Nat.eq_zero_or_pos p.channelCount with h0 | h0
            · rw [h0] at this; omega
            · exact h0
          exact ⟨h1, h8, hf, of_decide_eq_true hr.1, of_decide_eq_true hr.2, by omega⟩

/-- A scanning ENCODE has a visit for every bit (40_planner.md R116). -/
theorem EncodeReady.totalBits_le {n : Nat} {p : Params} (h : EncodeReady n p) : p.totalBits ≤ p.channelCount * n := by
  have := eight_capacity_le p n
  have := h.fits
  unfold Params.totalBits
  omega

theorem EncodeReady.channelCount_pos {n : Nat} {p : Params} (h : EncodeReady n p) : 0 < p.channelCount := by
  have h1 := h.totalBits_le
  rcases Nat.eq_zero_or_pos p.channelCount with h0 | h0
  · rw [h0] at h1
    unfold Params.totalBits Params.effLen Config.sentLen at h1
    omega
  · exact h0

/-- What holds of the operands of a DECODE whose checks pass. -/
structure DecodeReady (n : Nat) (p : Params) : Prop where
  one_le : 1 ≤ n
  le_eight : n ≤ 8
  room : p.capacity n ≤ p.outSize.toNat
  imgRange : p.imgBase.toNat + p.channelCount ≤ 4294967296
  outRange : p.outBase.toNat + p.capacity n ≤ 4294967296
  apart : p.channelCount = 0 ∨ p.capacity n = 0 ∨ p.imgBase.toNat + p.channelCount ≤ p.outBase.toNat ∨
    p.outBase.toNat + p.capacity n ≤ p.imgBase.toNat

theorem decodeReady {n : Nat} {kind : Kind} {p : Params} (h : decodeChecks n kind p = none) : DecodeReady n p := by
  unfold decodeChecks at h
  cases hp : prologue n (some kind) with
  | some c => simp [hp] at h
  | none =>
    have ⟨h1, h8, _⟩ := prologue_none hp
    simp only [hp] at h
    split at h
    · cases h
    · rename_i hf
      split at h
      · cases h
      · rename_i hr
        split at h
        · cases h
        · rename_i ho
          simp only [inRange, overlap, Config.addrSpace, Bool.and_eq_true, decide_eq_true_eq, Decidable.not_not]
            at hf hr ho
          exact ⟨h1, h8, by omega, of_decide_eq_true hr.1, of_decide_eq_true hr.2, by omega⟩

/-- A visit's channel offset lies in the image. -/
theorem visitOffset_lt {p : Params} (h : 0 < p.channelCount) (k : Nat) :
    visitOffset p.channelCount k < p.channelCount := Nat.mod_lt _ h

/-- The plane of a visit before the end of `n` planes is one of them (43_bit_helpers.md R172). -/
theorem visitPlane_le {N n k : Nat} (h : k < N * n) : visitPlane N k ≤ n := by
  have : k / N < n := Nat.div_lt_of_lt_mul h
  unfold visitPlane
  omega

/-- A visit is fixed by its plane and its offset (43_bit_helpers.md R172). -/
theorem visit_eq (N k : Nat) : (visitPlane N k - 1) * N + visitOffset N k = k := by
  unfold visitPlane visitOffset
  rw [Nat.add_sub_cancel, Nat.mul_comm]
  exact Nat.div_add_mod k N

/-- The buffers a command touches lie in the address space (20_memory.md R69). -/
theorem touchedBuffers_inSpace (i : Instr) (p : Params) {r : Nat × Nat} (h : r ∈ touchedBuffers i p) :
    r.1 + r.2 ≤ Config.addrSpace := by
  unfold touchedBuffers at h
  cases i with
  | capacity n => simp at h
  | check n k => simp at h
  | encode n k =>
    simp only at h
    split at h
    · simp at h
    · rename_i hc
      have hr := encodeReady (n := n) (kind := k) (p := p) (by simpa using hc)
      simp only [List.mem_cons, List.not_mem_nil, or_false] at h
      rcases h with rfl | rfl
      · exact hr.imgRange
      · exact hr.payRange
  | decode n k =>
    simp only at h
    split at h
    · simp at h
    · rename_i hc
      have hr := decodeReady (n := n) (kind := k) (p := p) (by simpa using hc)
      simp only [List.mem_cons, List.not_mem_nil, or_false] at h
      rcases h with rfl | rfl
      · exact hr.imgRange
      · exact hr.outRange

theorem touched_inSpace (job : Job) {r : Nat × Nat} (h : r ∈ job.touched) : r.1 + r.2 ≤ Config.addrSpace := by
  unfold Job.touched at h
  split at h
  · exact touchedBuffers_inSpace _ _ h
  · simp at h

/-- The buffers whose copies wait to be invalidated after a command are buffers it touches. -/
theorem ends_touched {job : Job} {r : Nat × Nat} (h : r ∈ job.ends) : r ∈ job.touched := by
  unfold Job.ends at h
  unfold Job.touched
  cases hd : decode job.word with
  | error e => simp [hd] at h
  | ok i =>
    rw [hd] at h
    cases i with
    | capacity n => exact h
    | check n k => exact h
    | encode n k =>
      simp only [endBuffers, touchedBuffers] at h ⊢
      split at h <;> simp_all [Job.encodeEnds]
      rcases h with rfl | h
      · exact .inl rfl
      · exact .inr h.2
    | decode n k => exact h

end Sys2Proof.Machine
end

