-- ==== Sys2Proof/Laws/Requests.lean ====
section
/-! SUPPORT. What a memory request of the engine and an engine step can do, said once. -/

namespace Sys2Proof.Machine

/-! ## Requests -/

/-- The state after a read request answered OKAY. -/
def State.afterRead (job : Job) (a : Nat) (upd : Byte → Scan) (s : State) : State :=
  (s.answered.engineLoad job a).withScan job (upd (s.engineByte job a))

/-- A read of a command whose bytes the spec fixes changes no byte. -/
theorem engineLoad_fixed {job : Job} (hu : job.scan.unfixed = false) (a : Nat) (s : State) :
    s.engineLoad job a = s := by
  simp [State.engineLoad, hu]

/-- A read of any other command is the store of a free byte. -/
theorem engineLoad_unfixed {job : Job} (hu : job.scan.unfixed = true) (a : Nat) (s : State) :
    s.engineLoad job a = State.engineStore job a (s.mem.read a) { s with draws := s.draws + 1 } := by
  simp [State.engineLoad, hu]

theorem readRequest_okay {job : Job} {a : Nat} {upd : Byte → Scan} {s : State} (ha : a < Config.addrSpace)
    (hv : s.verdict = .okay) : readRequest job a upd s = .next (s.afterRead job a upd) := by
  unfold readRequest
  rw [if_neg (by omega), hv]
  rfl

theorem readRequest_error {job : Job} {a : Nat} {upd : Byte → Scan} {s : State} {l : Bool} (ha : a < Config.addrSpace)
    (hv : s.verdict = .error l) : readRequest job a upd s = .next (s.answered.busFail job) := by
  unfold readRequest
  rw [if_neg (by omega), hv]

/-- A read request does not depend on the scan state that the state holds. -/
theorem readRequest_withScan (job j : Job) (sc : Scan) (a : Nat) (upd : Byte → Scan) (s : State) :
    readRequest job a upd (s.withScan j sc) = readRequest job a upd s := by
  by_cases ha : a < Config.addrSpace
  · cases hv : s.verdict with
    | okay =>
      rw [readRequest_okay ha hv, readRequest_okay ha (by exact hv)]
      unfold State.afterRead State.engineLoad
      split <;> rfl
    | error l =>
      rw [readRequest_error ha hv, readRequest_error ha (by exact hv)]
      rfl
  · unfold readRequest
    rw [if_pos (by omega), if_pos (by omega)]

theorem writeRequest_okay {job : Job} {a : Nat} {b : Byte} {sc : Scan} {s : State} (ha : a < Config.addrSpace)
    (hv : s.verdict = .okay) :
    writeRequest job a b sc s = .next ((s.answered.engineStore job a b).withScan job sc) := by
  unfold writeRequest
  rw [if_neg (by omega), hv]

theorem writeRequest_error {job : Job} {a : Nat} {b : Byte} {sc : Scan} {s : State} {l : Bool}
    (ha : a < Config.addrSpace) (hv : s.verdict = .error l) :
    writeRequest job a b sc s =
      .next ((if l then s.answered.engineStore job a b else s.answered).busFail job) := by
  unfold writeRequest
  rw [if_neg (by omega), hv]

/-- Everything a read request that gives a next state can have done. -/
theorem readRequest_cases {job : Job} {a : Nat} {upd : Byte → Scan} {s t : State}
    (h : readRequest job a upd s = .next t) :
    a < Config.addrSpace ∧
      ((s.verdict = .okay ∧ t = s.afterRead job a upd) ∨ ∃ l, s.verdict = .error l ∧ t = s.answered.busFail job) := by
  by_cases ha : a < Config.addrSpace
  · refine ⟨ha, ?_⟩
    cases hv : s.verdict with
    | okay => rw [readRequest_okay ha hv] at h; cases h; exact .inl ⟨rfl, rfl⟩
    | error l => rw [readRequest_error ha hv] at h; cases h; exact .inr ⟨l, rfl, rfl⟩
  · unfold readRequest at h
    rw [if_pos (by omega)] at h
    cases h

/-- Everything a write request that gives a next state can have done. -/
theorem writeRequest_cases {job : Job} {a : Nat} {b : Byte} {sc : Scan} {s t : State}
    (h : writeRequest job a b sc s = .next t) :
    a < Config.addrSpace ∧
      ((s.verdict = .okay ∧ t = (s.answered.engineStore job a b).withScan job sc) ∨
        ∃ l, s.verdict = .error l ∧
          t = (if l then s.answered.engineStore job a b else s.answered).busFail job) := by
  by_cases ha : a < Config.addrSpace
  · refine ⟨ha, ?_⟩
    cases hv : s.verdict with
    | okay => rw [writeRequest_okay ha hv] at h; cases h; exact .inl ⟨rfl, rfl⟩
    | error l => rw [writeRequest_error ha hv] at h; cases h; exact .inr ⟨l, rfl, rfl⟩
  · unfold writeRequest at h
    rw [if_pos (by omega)] at h
    cases h

section fields
variable (s : State) (job : Job) (a : Nat) (upd : Byte → Scan)

@[simp] theorem State.engineLoad_ie : (s.engineLoad job a).ie = s.ie := by
  unfold State.engineLoad; split <;> rfl
@[simp] theorem State.engineLoad_done : (s.engineLoad job a).done = s.done := by
  unfold State.engineLoad; split <;> rfl
@[simp] theorem State.engineLoad_errcode : (s.engineLoad job a).errcode = s.errcode := by
  unfold State.engineLoad; split <;> rfl
@[simp] theorem State.engineLoad_ovr : (s.engineLoad job a).ovr = s.ovr := by
  unfold State.engineLoad; split <;> rfl
@[simp] theorem State.engineLoad_cmd : (s.engineLoad job a).cmd = s.cmd := by
  unfold State.engineLoad; split <;> rfl
@[simp] theorem State.engineLoad_params : (s.engineLoad job a).params = s.params := by
  unfold State.engineLoad; split <;> rfl
@[simp] theorem State.engineLoad_cap : (s.engineLoad job a).cap = s.cap := by
  unfold State.engineLoad; split <;> rfl
@[simp] theorem State.engineLoad_msgLen : (s.engineLoad job a).msgLen = s.msgLen := by
  unfold State.engineLoad; split <;> rfl
@[simp] theorem State.engineLoad_host : (s.engineLoad job a).host = s.host := by
  unfold State.engineLoad; split <;> rfl
@[simp] theorem State.engineLoad_reply : (s.engineLoad job a).reply = s.reply := by
  unfold State.engineLoad; split <;> rfl
@[simp] theorem State.engineLoad_dirty : (s.engineLoad job a).dirty = s.dirty := by
  unfold State.engineLoad; split <;> rfl
@[simp] theorem State.engineLoad_unsynced : (s.engineLoad job a).unsynced = s.unsynced := by
  unfold State.engineLoad; split <;> rfl
@[simp] theorem State.engineLoad_platform : (s.engineLoad job a).platform = s.platform := by
  unfold State.engineLoad; split <;> rfl
@[simp] theorem State.engineLoad_schedule : (s.engineLoad job a).schedule = s.schedule := by
  unfold State.engineLoad; split <;> rfl
@[simp] theorem State.engineLoad_memAnswer : (s.engineLoad job a).memAnswer = s.memAnswer := by
  unfold State.engineLoad; split <;> rfl

@[simp] theorem State.afterRead_ie : (s.afterRead job a upd).ie = s.ie := by simp [State.afterRead]
@[simp] theorem State.afterRead_done : (s.afterRead job a upd).done = s.done := by simp [State.afterRead]
@[simp] theorem State.afterRead_errcode : (s.afterRead job a upd).errcode = s.errcode := by simp [State.afterRead]
@[simp] theorem State.afterRead_ovr : (s.afterRead job a upd).ovr = s.ovr := by simp [State.afterRead]
@[simp] theorem State.afterRead_cmd : (s.afterRead job a upd).cmd = s.cmd := by simp [State.afterRead]
@[simp] theorem State.afterRead_params : (s.afterRead job a upd).params = s.params := by simp [State.afterRead]
@[simp] theorem State.afterRead_cap : (s.afterRead job a upd).cap = s.cap := by simp [State.afterRead]
@[simp] theorem State.afterRead_msgLen : (s.afterRead job a upd).msgLen = s.msgLen := by simp [State.afterRead]
@[simp] theorem State.afterRead_host : (s.afterRead job a upd).host = s.host := by simp [State.afterRead]
@[simp] theorem State.afterRead_reply : (s.afterRead job a upd).reply = s.reply := by simp [State.afterRead]
@[simp] theorem State.afterRead_dirty : (s.afterRead job a upd).dirty = s.dirty := by simp [State.afterRead]
@[simp] theorem State.afterRead_unsynced : (s.afterRead job a upd).unsynced = s.unsynced := by simp [State.afterRead]
@[simp] theorem State.afterRead_platform : (s.afterRead job a upd).platform = s.platform := by simp [State.afterRead]
@[simp] theorem State.afterRead_schedule : (s.afterRead job a upd).schedule = s.schedule := by simp [State.afterRead]
@[simp] theorem State.afterRead_memAnswer : (s.afterRead job a upd).memAnswer = .okay := by simp [State.afterRead]
@[simp] theorem State.afterRead_engine :
    (s.afterRead job a upd).engine = .run { job with scan := upd (s.engineByte job a) } := rfl

variable {job}

theorem State.afterRead_mem_fixed (hu : job.scan.unfixed = false) : (s.afterRead job a upd).mem = s.mem := by
  simp [State.afterRead, engineLoad_fixed hu]
theorem State.afterRead_stale_fixed (hu : job.scan.unfixed = false) : (s.afterRead job a upd).stale = s.stale := by
  simp [State.afterRead, engineLoad_fixed hu]

end fields

/-- The answer of the memory matters only where BUS_ERROR_POSSIBLE holds. -/
theorem verdict_of_memAnswer {s : State} (h : s.memAnswer = .okay) : s.verdict = .okay := by
  unfold State.verdict
  split <;> simp [h]

/-! ## Every step of the engine is one of three kinds -/

/-- What one step of the engine that runs `job` can be: a completion, a read request or a write request. -/
inductive EngineMove (job : Job) (s t : State) : Prop where
  | done (sc : Scan) (ends : List (Nat × Nat)) (c : Code) (cap : Option (BitVec 34)) (len : Option Word)
      (hu : sc.unfixed = job.scan.unfixed) (h : t = s.complete { job with scan := sc } ends c cap len)
  | read (sc : Scan) (a : Nat) (upd : Byte → Scan)
      (hu : sc.unfixed = job.scan.unfixed) (h : readRequest { job with scan := sc } a upd s = .next t)
  | write (sc sc' : Scan) (a : Nat) (b : Byte)
      (hu : sc.unfixed = job.scan.unfixed) (h : writeRequest { job with scan := sc } a b sc' s = .next t)

theorem encodeVisit_unfixed (p : Params) (k : Nat) (sc : Scan) : (encodeVisit p k sc).unfixed = sc.unfixed := by
  unfold encodeVisit
  split
  · split
    · split <;> rfl
    · rfl
  · rfl

theorem decodeVisit_unfixed (n : Nat) (p : Params) (k : Nat) (sc : Scan) :
    (decodeVisit n p k sc).unfixed = sc.unfixed := by
  unfold decodeVisit
  split <;> rfl

theorem encodeStep_move {n : Nat} {job job' : Job} {s t : State} (h : encodeStep n job s = .next t)
    (hj : job = { job' with scan := job.scan }) (hu : job.scan.unfixed = job'.scan.unfixed) : EngineMove job' s t := by
  unfold encodeStep at h
  rw [hj] at h
  split at h
  · cases h; exact .done _ _ _ _ _ hu rfl
  · exact .read _ _ _ hu h
  · exact .write _ _ _ _ hu h
  · exact .read _ _ _ hu h
  · exact .read _ _ _ hu h

theorem decodeStep_move {n : Nat} {job job' : Job} {s t : State} (h : decodeStep n job s = .next t)
    (hj : job = { job' with scan := job.scan }) (hu : job.scan.unfixed = job'.scan.unfixed) : EngineMove job' s t := by
  unfold decodeStep at h
  rw [hj] at h
  split at h
  · cases h; exact .done _ _ _ _ _ hu rfl
  · exact .write _ _ _ _ hu h
  · exact .read _ _ _ hu h
  · exact .read _ _ _ hu h
  · exact .read _ _ _ hu h

/-- Every step of a running command is a completion or one memory request (10_state.md R41). -/
theorem exec_move {i : Instr} {job : Job} {s t : State} (hj : s.engine = .run job) (h : exec i s = .next t) :
    EngineMove job s t := by
  cases i with
  | capacity n =>
    simp only [exec, execCapacity, whileRunning, hj] at h
    cases h
    exact .done job.scan _ _ _ _ rfl rfl
  | check n k =>
    simp only [exec, execCheck, whileRunning, hj] at h
    cases h
    exact .done job.scan _ _ _ _ rfl rfl
  | encode n k =>
    simp only [exec, execEncode, whileRunning, hj] at h
    split at h
    · split at h
      · cases h; exact .done job.scan _ _ _ _ rfl rfl
      · exact encodeStep_move h rfl (encodeVisit_unfixed _ _ _)
    · exact encodeStep_move h rfl rfl
    · exact encodeStep_move h rfl rfl
    · exact encodeStep_move h rfl rfl
    · exact encodeStep_move h rfl rfl
  | decode n k =>
    simp only [exec, execDecode, whileRunning, hj] at h
    split at h
    · split at h
      · cases h; exact .done job.scan _ _ _ _ rfl rfl
      · exact decodeStep_move h rfl (decodeVisit_unfixed _ _ _ _)
    · exact decodeStep_move h rfl rfl
    · exact decodeStep_move h rfl rfl
    · exact decodeStep_move h rfl rfl
    · exact decodeStep_move h rfl rfl

/-- An idle engine takes no step (10_state.md R48). -/
theorem exec_idle {i : Instr} {s : State} (h : s.engine = .idle) : exec i s = .next s := by
  cases i <;> simp [exec, execCapacity, execCheck, execEncode, execDecode, whileRunning, h]

theorem EngineFrame.refl (s : State) : EngineFrame s s := by constructor <;> rfl

theorem EngineFrame.trans {s t u : State} (h : EngineFrame s t) (h' : EngineFrame t u) : EngineFrame s u :=
  ⟨h'.ie.trans h.ie, h'.ovr.trans h.ovr, h'.cmd.trans h.cmd, h'.params.trans h.params, h'.host.trans h.host,
    h'.reply.trans h.reply, h'.platform.trans h.platform, h'.schedule.trans h.schedule, h'.dirty.trans h.dirty⟩

theorem EngineMove.frame {job : Job} {s t : State} (h : EngineMove job s t) : EngineFrame s t := by
  cases h with
  | done sc ends c cap len hu h => subst h; constructor <;> simp
  | read sc a upd hu h =>
    obtain ⟨-, ⟨-, rfl⟩ | ⟨l, -, rfl⟩⟩ := readRequest_cases h <;> constructor <;> simp
  | write sc sc' a b hu h =>
    obtain ⟨-, ⟨-, rfl⟩ | ⟨l, -, rfl⟩⟩ := writeRequest_cases h
    · constructor <;> simp
    · cases l <;> constructor <;> simp

end Sys2Proof.Machine
end

