-- ==== Sys2Proof/Laws/Exec.lean ====
section
/-! SUPPORT. The meaning of each command in each of its places: the equations that proofs rewrite with, in place of
unfolding the meanings. -/

namespace Sys2Proof.Machine

@[simp] theorem addRanges_nil (l : List Nat) : addRanges l [] = l := rfl

/-- A command that has had no buffers leaves the host's caches as they are. -/
@[simp] theorem unsync_nil (s : State) : s.unsync [] = s := by
  simp [State.unsync]

/-- The completion of a command whose results the spec fixes (60_exceptions.md R205). -/
theorem complete_fixed {job : Job} (hu : job.scan.unfixed = false) (ends : List (Nat × Nat)) (c : Code)
    (cap : Option (BitVec 34)) (len : Option Word) (s : State) :
    s.complete job ends c cap len =
      { (s.unsync ends).finished c with cap := cap.getD s.cap, msgLen := len.getD s.msgLen } := by
  unfold State.complete
  rw [if_neg (by simp [hu])]
  rfl

section encode
variable {n : Nat} {k : Kind} {s : State} {job : Job}

theorem exec_encode_failing {c : Code} (hj : s.engine = .run job) (hn : job.scan.next = .start)
    (hc : encodeChecks n k job.params = some c) :
    exec (.encode n k) s = .next (s.complete job [] c (capRecord job.params n c) none) := by
  simp only [exec, execEncode, whileRunning, hj, hn, hc, encodeComplete]

theorem exec_encode_start (hj : s.engine = .run job) (hn : job.scan.next = .start)
    (hc : encodeChecks n k job.params = none) :
    exec (.encode n k) s = encodeStep n { job with scan := encodeVisit job.params 0 job.scan } s := by
  simp only [exec, execEncode, whileRunning, hj, hn, hc]

theorem exec_encode_payload (hj : s.engine = .run job) (hn : job.scan.next = .payload) :
    exec (.encode n k) s =
      readRequest job (job.params.payAddr (job.scan.k / 8)) (fun b => { job.scan with pb := b, next := .read }) s := by
  simp only [exec, execEncode, whileRunning, hj, hn, encodeStep]

theorem exec_encode_read (hj : s.engine = .run job) (hn : job.scan.next = .read) :
    exec (.encode n k) s =
      readRequest job (visitAddr job.params job.scan) (fun b => { job.scan with v := b, next := .write }) s := by
  simp only [exec, execEncode, whileRunning, hj, hn, encodeStep]

theorem exec_encode_write (hj : s.engine = .run job) (hn : job.scan.next = .write) :
    exec (.encode n k) s =
      writeRequest job (visitAddr job.params job.scan) (encodeValue job.params job.scan)
        (encodeVisit job.params (job.scan.k + 1) job.scan) s := by
  simp only [exec, execEncode, whileRunning, hj, hn, encodeStep]

theorem exec_encode_finish {c : Code} (hj : s.engine = .run job) (hn : job.scan.next = .finish c) :
    exec (.encode n k) s = .next (s.complete job job.encodeEnds c (capRecord job.params n c) none) := by
  simp only [exec, execEncode, whileRunning, hj, hn, encodeStep, encodeComplete]

end encode

section decode
variable {n : Nat} {k : Kind} {s : State} {job : Job}

theorem exec_decode_failing {c : Code} (hj : s.engine = .run job) (hn : job.scan.next = .start)
    (hc : decodeChecks n k job.params = some c) :
    exec (.decode n k) s =
      .next (s.complete job [] c (capRecord job.params n c) (lenRecord job.params n job.scan c)) := by
  simp only [exec, execDecode, whileRunning, hj, hn, hc, decodeComplete]

theorem exec_decode_start (hj : s.engine = .run job) (hn : job.scan.next = .start)
    (hc : decodeChecks n k job.params = none) :
    exec (.decode n k) s = decodeStep n { job with scan := decodeVisit n job.params 0 job.scan } s := by
  simp only [exec, execDecode, whileRunning, hj, hn, hc]

theorem exec_decode_read (hj : s.engine = .run job) (hn : job.scan.next = .read) :
    exec (.decode n k) s =
      readRequest job (visitAddr job.params job.scan) (decodeBit n job.params job.scan) s := by
  simp only [exec, execDecode, whileRunning, hj, hn, decodeStep]

theorem exec_decode_write (hj : s.engine = .run job) (hn : job.scan.next = .write) :
    exec (.decode n k) s =
      writeRequest job (chunkAddr job.params job.scan) job.scan.acc (decodeWritten n job.params job.scan) s := by
  simp only [exec, execDecode, whileRunning, hj, hn, decodeStep]

theorem exec_decode_finish {c : Code} (hj : s.engine = .run job) (hn : job.scan.next = .finish c) :
    exec (.decode n k) s =
      .next (s.complete job (job.decodeEnds n) c (capRecord job.params n c) (lenRecord job.params n job.scan c)) := by
  simp only [exec, execDecode, whileRunning, hj, hn, decodeStep, decodeComplete]

end decode

theorem exec_capacity {n : Nat} {s : State} {job : Job} (hj : s.engine = .run job) :
    exec (.capacity n) s =
      .next (s.complete job [] (capacityCode n) (capRecord job.params n (capacityCode n)) none) := by
  simp only [exec, execCapacity, whileRunning, hj]

theorem exec_check {n : Nat} {k : Kind} {s : State} {job : Job} (hj : s.engine = .run job) :
    exec (.check n k) s =
      .next
        (s.complete job [] (checkCode n k job.params) (capRecord job.params n (checkCode n k job.params)) none) := by
  simp only [exec, execCheck, whileRunning, hj]

/-- A scan state right after acceptance. -/
@[simp] theorem fresh_next : Scan.fresh.next = .start := rfl
@[simp] theorem fresh_unfixed : Scan.fresh.unfixed = false := rfl
@[simp] theorem fresh_k : Scan.fresh.k = 0 := rfl
@[simp] theorem fresh_found : Scan.fresh.found = none := rfl
@[simp] theorem fresh_streak : Scan.fresh.streak = 0 := rfl

/-- The engine steps exactly as the latched command says. -/
theorem engineStep_command {s : State} {job : Job} {i : Instr} (hj : s.engine = .run job)
    (hd : Sys2Proof.decode job.word = .ok i) : engineStep s = exec i s := by
  simp only [engineStep, hj, hd]

theorem engineStep_illegal {s : State} {job : Job} {r : DecodeReject} (hj : s.engine = .run job)
    (hd : Sys2Proof.decode job.word = .error r) :
    engineStep s = .next (s.complete job [] .illegalCommand none none) := by
  simp only [engineStep, hj, hd]

/-! ## The request of a step -/

/-- A step that makes a request is that request, and it is a write exactly where `nextWrite` says so. -/
theorem exec_of_requestAddr {i : Instr} {s : State} {job : Job} {a : Nat} (hj : s.engine = .run job)
    (ha : requestAddr i job = some a) :
    (∃ sc upd, sc.unfixed = job.scan.unfixed ∧ nextWrite i job = none ∧
      exec i s = readRequest { job with scan := sc } a upd s) ∨
    ∃ b sc, nextWrite i job = some (a, b) ∧ exec i s = writeRequest job a b sc s := by
  cases i with
  | capacity n => cases ha
  | check n k => cases ha
  | encode n k =>
    cases hn : job.scan.next with
    | start =>
      simp only [requestAddr, hn] at ha
      cases hc : encodeChecks n k job.params with
      | some c => simp [hc] at ha
      | none =>
        refine .inl ⟨encodeVisit job.params 0 job.scan, ?_⟩
        have hT : 0 < job.params.totalBits := by unfold Params.totalBits Params.effLen Config.sentLen; omega
        rw [exec_encode_start hj hn hc]
        simp only [hc, Option.isSome_none, Bool.false_eq_true, if_false] at ha
        by_cases hp : 0 < job.params.payLen.toNat
        · have ev : encodeVisit job.params 0 job.scan = { job.scan with k := 0, next := .payload } := by
            unfold encodeVisit
            rw [if_pos hT, if_pos rfl, if_pos (by omega)]
          rw [if_pos hp] at ha
          cases ha
          refine ⟨fun b => { job.scan with k := 0, pb := b, next := .read }, by rw [ev], by simp [nextWrite, hn], ?_⟩
          rw [ev]
          simp only [encodeStep, Nat.zero_div]
        · have ev : encodeVisit job.params 0 job.scan =
              { job.scan with k := 0, pb := Config.sentByte, next := .read } := by
            unfold encodeVisit
            rw [if_pos hT, if_pos rfl, if_neg (by omega)]
          rw [if_neg hp] at ha
          cases ha
          refine ⟨fun b => { job.scan with k := 0, pb := Config.sentByte, v := b, next := .write }, by rw [ev],
            by simp [nextWrite, hn], ?_⟩
          rw [ev]
          simp only [encodeStep, visitAddr, visitOffset, Nat.zero_mod]
    | payload =>
      simp only [requestAddr, hn] at ha
      cases ha
      exact .inl ⟨job.scan, _, rfl, by simp [nextWrite, hn], exec_encode_payload hj hn⟩
    | read =>
      simp only [requestAddr, hn] at ha
      cases ha
      exact .inl ⟨job.scan, _, rfl, by simp [nextWrite, hn], exec_encode_read hj hn⟩
    | write =>
      simp only [requestAddr, hn] at ha
      cases ha
      exact .inr ⟨_, _, by simp [nextWrite, hn], exec_encode_write hj hn⟩
    | finish c => simp [requestAddr, hn] at ha
  | decode n k =>
    cases hn : job.scan.next with
    | start =>
      simp only [requestAddr, hn] at ha
      cases hc : decodeChecks n k job.params with
      | some c => simp [hc] at ha
      | none =>
        refine .inl ⟨decodeVisit n job.params 0 job.scan, ?_⟩
        rw [exec_decode_start hj hn hc]
        simp only [hc, Option.isSome_none, Bool.false_eq_true, false_or] at ha
        by_cases hT : 0 < job.params.channelCount * n
        · have ev : decodeVisit n job.params 0 job.scan = { job.scan with k := 0, next := .read } := by
            unfold decodeVisit
            rw [if_pos hT]
          rw [if_neg (by omega)] at ha
          cases ha
          refine ⟨decodeBit n job.params { job.scan with k := 0, next := .read }, by rw [ev],
            by simp [nextWrite, hn], ?_⟩
          rw [ev]
          simp only [decodeStep, visitAddr, visitOffset, Nat.zero_mod]
        · rw [if_pos (by omega)] at ha
          cases ha
    | payload =>
      simp only [requestAddr, hn] at ha
      cases ha
      refine .inl ⟨job.scan, decodeBit n job.params job.scan, rfl, by simp [nextWrite, hn], ?_⟩
      simp only [exec, execDecode, whileRunning, hj, hn, decodeStep]
    | read =>
      simp only [requestAddr, hn] at ha
      cases ha
      exact .inl ⟨job.scan, _, rfl, by simp [nextWrite, hn], exec_decode_read hj hn⟩
    | write =>
      simp only [requestAddr, hn] at ha
      cases ha
      exact .inr ⟨_, _, by simp [nextWrite, hn], exec_decode_write hj hn⟩
    | finish c => simp [requestAddr, hn] at ha

/-- A step that makes no request is a completion, and where the scan state is one the command can have, the buffers it
leaves to be invalidated are the command's (20_memory.md R80). -/
theorem exec_of_no_request {i : Instr} {s : State} {job : Job} (hj : s.engine = .run job)
    (ha : requestAddr i job = none) :
    nextWrite i job = none ∧ ∃ sc ends c cap len, sc.unfixed = job.scan.unfixed ∧
      (ScanInv i job.params job.scan → ends = endBuffers i job) ∧
      exec i s = .next (s.complete { job with scan := sc } ends c cap len) := by
  cases i with
  | capacity n => exact ⟨rfl, job.scan, _, _, _, _, rfl, fun _ => rfl, exec_capacity hj⟩
  | check n k => exact ⟨rfl, job.scan, _, _, _, _, rfl, fun _ => rfl, exec_check hj⟩
  | encode n k =>
    cases hn : job.scan.next with
    | start =>
      cases hc : encodeChecks n k job.params with
      | some c =>
        exact ⟨by simp [nextWrite, hn], job.scan, _, _, _, _, rfl, fun _ => by simp [endBuffers, hc],
          exec_encode_failing hj hn hc⟩
      | none =>
        simp only [requestAddr, hn, hc, Option.isSome_none, Bool.false_eq_true, if_false] at ha
        split at ha <;> cases ha
    | payload => simp [requestAddr, hn] at ha
    | read => simp [requestAddr, hn] at ha
    | write => simp [requestAddr, hn] at ha
    | finish c =>
      refine ⟨by simp [nextWrite, hn], job.scan, _, _, _, _, rfl, fun h => ?_, exec_encode_finish hj hn⟩
      simp only [ScanInv, hn] at h
      simp [endBuffers, h.1]
  | decode n k =>
    cases hn : job.scan.next with
    | start =>
      cases hc : decodeChecks n k job.params with
      | some c =>
        exact ⟨by simp [nextWrite, hn], job.scan, _, _, _, _, rfl, fun _ => by simp [endBuffers, hc],
          exec_decode_failing hj hn hc⟩
      | none =>
        simp only [requestAddr, hn, hc, Option.isSome_none, Bool.false_eq_true, false_or] at ha
        have hT : ¬ 0 < job.params.channelCount * n := by
          split at ha
          · omega
          · cases ha
        refine ⟨by simp [nextWrite, hn], decodeVisit n job.params 0 job.scan, job.decodeEnds n, scanOutcome job.scan,
          capRecord job.params n (scanOutcome job.scan),
          lenRecord job.params n (decodeVisit n job.params 0 job.scan) (scanOutcome job.scan),
          decodeVisit_unfixed _ _ _ _, fun _ => by simp [endBuffers, hc], ?_⟩
        rw [exec_decode_start hj hn hc]
        have h : (decodeVisit n job.params 0 job.scan).next = .finish (scanOutcome job.scan) := by
          unfold decodeVisit
          rw [if_neg hT]
        simp only [decodeStep, h, decodeComplete]
        rfl
    | payload => simp [requestAddr, hn] at ha
    | read => simp [requestAddr, hn] at ha
    | write => simp [requestAddr, hn] at ha
    | finish c =>
      refine ⟨by simp [nextWrite, hn], job.scan, _, _, _, _, rfl, fun h => ?_, exec_decode_finish hj hn⟩
      simp only [ScanInv, hn] at h
      simp [endBuffers, h.1]

/-- A step of a command whose scan state is one it can have leaves the host's copies as they are, and where it is the
completion it leaves the copies of the command's buffers to be invalidated (20_memory.md R80). -/
theorem exec_unsynced {i : Instr} {s t : State} {job : Job} (hj : s.engine = .run job)
    (hs : ScanInv i job.params job.scan) (h : exec i s = .next t) :
    t.unsynced = if t.engine = .idle then (s.unsync (endBuffers i job)).unsynced else s.unsynced := by
  cases ha : requestAddr i job with
  | none =>
    obtain ⟨-, sc, ends, c, cap, len, -, he, h'⟩ := exec_of_no_request hj ha
    rw [h'] at h
    cases h
    simp [he hs]
  | some a =>
    rcases exec_of_requestAddr hj ha with ⟨sc, upd, -, -, h'⟩ | ⟨b, sc, -, h'⟩ <;> rw [h'] at h
    · obtain ⟨-, ⟨-, rfl⟩ | ⟨l, -, rfl⟩⟩ := readRequest_cases h <;> simp
    · obtain ⟨-, ⟨-, rfl⟩ | ⟨l, -, rfl⟩⟩ := writeRequest_cases h
      · simp
      · cases l <;> simp

/-! ## Runs -/

theorem execTimes_succ {i : Instr} {m : Nat} {s t : State} (h : exec i s = .next t) :
    execTimes i (m + 1) s = execTimes i m t := by simp [execTimes, h]

theorem execTimes_one {i : Instr} {s t : State} (h : exec i s = .next t) :
    execTimes i 1 s = .next t := by
  rw [execTimes_succ h]; rfl

/-- Steps after steps. -/
theorem execTimes_add {i : Instr} {m m' : Nat} {s t : State} (h : execTimes i m s = .next t) :
    execTimes i (m + m') s = execTimes i m' t := by
  induction m generalizing s with
  | zero => cases h; simp
  | succ m ih =>
    cases he : exec i s with
    | next u => rw [execTimes_succ he] at h; rw [Nat.succ_add, execTimes_succ he, ih h]
    | fault f => simp [execTimes, he] at h
    | refused f => simp [execTimes, he] at h

theorem verdict_afterRead {s : State} {job : Job} {a : Nat} {upd : Byte → Scan} :
    (s.afterRead job a upd).verdict = .okay := by
  apply verdict_of_memAnswer; simp

theorem State.engineByte_fixed {job : Job} {a : Nat} {s : State} (hu : job.scan.unfixed = false) :
    s.engineByte job a = s.mem.read a := by
  simp [State.engineByte, hu]

/-- A step of a command leaves alone what every step of the engine leaves alone, also where the engine is idle. -/
theorem exec_frame {i : Instr} {s t : State} (h : exec i s = .next t) : EngineFrame s t := by
  cases hj : s.engine with
  | idle => rw [exec_idle hj] at h; cases h; exact .refl _
  | run job => exact (exec_move hj h).frame

/-- A run of a command leaves the same alone. -/
theorem execTimes_frame {i : Instr} {m : Nat} {s t : State} (h : execTimes i m s = .next t) : EngineFrame s t := by
  induction m generalizing s with
  | zero => cases h; exact .refl _
  | succ m ih =>
    cases he : exec i s with
    | next u => rw [execTimes_succ he] at h; exact (exec_frame he).trans (ih h)
    | fault f => simp [execTimes, he] at h
    | refused f => simp [execTimes, he] at h

end Sys2Proof.Machine
end

