-- ==== Sys2Proof/Laws/Invariant.lean ====
section
/-! SUPPORT. What a step of the engine does to memory, to the scan state and to the number of requests left, said once
for the proofs about the invariant (10_state.md R49; 20_memory.md R69; 70_reset_and_hazards.md R254). -/

namespace Sys2Proof.Machine

/-! ## Every step of the engine -/

/-- A step of the engine writes at most one byte, inside the address space (20_memory.md R60). -/
theorem EngineMove.mem {job : Job} {s t : State} (h : EngineMove job s t) :
    t.mem = s.mem ∨ ∃ a b, a < Config.addrSpace ∧ t.mem = s.mem.write a b := by
  cases h with
  | done sc ends c cap len hu h => subst h; left; simp
  | read sc a upd hu h =>
    obtain ⟨ha, ⟨-, rfl⟩ | ⟨l, -, rfl⟩⟩ := readRequest_cases h
    · cases hx : sc.unfixed
      · left; exact State.afterRead_mem_fixed _ _ _ hx
      · right; exact ⟨a, _, ha, by rw [State.afterRead, engineLoad_unfixed hx]; rfl⟩
    · left; simp
  | write sc sc' a b hu h =>
    obtain ⟨ha, ⟨-, rfl⟩ | ⟨l, -, rfl⟩⟩ := writeRequest_cases h
    · exact .inr ⟨a, _, ha, rfl⟩
    · cases l
      · left; simp
      · exact .inr ⟨a, _, ha, rfl⟩

/-- A step of the engine adds at most one address to the host's stale copies (20_memory.md R80). -/
theorem EngineMove.stale {job : Job} {s t : State} (h : EngineMove job s t) :
    t.stale = s.stale ∨
      ∃ a, a < Config.addrSpace ∧ t.stale = addAddr s.stale a ∧ s.platform.hostCoherent = false := by
  have key : ∀ (s : State) (j : Job) (a : Nat) (b : Byte), (s.engineStore j a b).stale = s.stale ∨
      ((s.engineStore j a b).stale = addAddr s.stale a ∧ s.platform.hostCoherent = false) := by
    intro s j a b
    unfold State.engineStore
    cases h : s.platform.hostCoherent <;> simp
  cases h with
  | done sc ends c cap len hu h => subst h; left; simp
  | read sc a upd hu h =>
    obtain ⟨ha, ⟨-, rfl⟩ | ⟨l, -, rfl⟩⟩ := readRequest_cases h
    · cases hx : sc.unfixed
      · left; exact State.afterRead_stale_fixed _ _ _ hx
      · rw [State.afterRead, engineLoad_unfixed hx]
        exact (key { s.answered with draws := s.draws + 1 } { job with scan := sc } a (s.answered.mem.read a)).imp id
          fun h => ⟨a, ha, h⟩
    · left; simp
  | write sc sc' a b hu h =>
    obtain ⟨ha, ⟨-, rfl⟩ | ⟨l, -, rfl⟩⟩ := writeRequest_cases h
    · exact (key s.answered { job with scan := sc } a b).imp id fun h => ⟨a, ha, h⟩
    · cases l
      · left; simp
      · exact (key s.answered { job with scan := sc } a b).imp id fun h => ⟨a, ha, h⟩

/-- A step of the engine either completes the command, or keeps its word and parameters and every result (10_state.md
R41, R51). -/
theorem EngineMove.phase {job : Job} {s t : State} (h : EngineMove job s t) :
    (t.engine = .idle ∧ t.done = true) ∨
      ((∃ sc, t.engine = .run { job with scan := sc }) ∧ t.done = s.done ∧ t.errcode = s.errcode ∧ t.cap = s.cap ∧
        t.msgLen = s.msgLen) := by
  cases h with
  | done sc ends c cap len hu h => subst h; left; simp
  | read sc a upd hu h =>
    obtain ⟨-, ⟨-, rfl⟩ | ⟨l, -, rfl⟩⟩ := readRequest_cases h
    · exact .inr ⟨⟨_, rfl⟩, by simp, by simp, by simp, by simp⟩
    · exact .inr ⟨⟨_, rfl⟩, rfl, rfl, rfl, rfl⟩
  | write sc sc' a b hu h =>
    obtain ⟨ha, ⟨-, rfl⟩ | ⟨l, -, rfl⟩⟩ := writeRequest_cases h
    · exact .inr ⟨⟨_, rfl⟩, rfl, rfl, rfl, rfl⟩
    · cases l <;> exact .inr ⟨⟨_, rfl⟩, rfl, rfl, rfl, rfl⟩

/-! ## The scan state -/

/-- The number of memory requests a command in this place can still make. -/
def requestsLeft (i : Instr) (p : Params) (sc : Scan) : Nat :=
  match i with
  | .capacity _ => 0
  | .check _ _ => 0
  | .encode _ _ =>
    match sc.next with
    | .start => p.payLen.toNat + 2 * p.totalBits
    | .payload => 2 * (p.totalBits - sc.k) + (p.payLen.toNat - sc.k / 8)
    | .read => 2 * (p.totalBits - sc.k) + (p.payLen.toNat - (sc.k / 8 + 1))
    | .write => 2 * (p.totalBits - sc.k) + (p.payLen.toNat - (sc.k / 8 + 1)) - 1
    | .finish _ => 0
  | .decode n _ =>
    match sc.next with
    | .start => p.channelCount * n + p.capacity n
    | .payload => 0
    | .read => (p.channelCount * n - sc.k) + (p.capacity n - sc.k / 8)
    | .write => (p.channelCount * n - sc.k) + (p.capacity n - sc.k / 8) - 1
    | .finish _ => 0

/-- What a step of a command whose scan state is as `ScanInv` says leads to: its completion, or one request fewer to
make. -/
def StepsOn (i : Instr) (job : Job) (s : State) : Prop :=
  ∃ t, exec i s = .next t ∧
    (t.engine = .idle ∨
      ∃ sc, t.engine = .run { job with scan := sc } ∧ ScanInv i job.params sc ∧
        requestsLeft i job.params sc < requestsLeft i job.params job.scan)

/-- The arrival at visit `k` of ENCODE keeps the invariant. -/
theorem scanInv_encodeVisit {n : Nat} {kind : Kind} {p : Params} {k : Nat} {sc : Scan}
    (hc : encodeChecks n kind p = none) (hk : k ≤ p.totalBits) :
    ScanInv (.encode n kind) p (encodeVisit p k sc) := by
  unfold encodeVisit ScanInv
  by_cases h1 : k < p.totalBits
  · rw [if_pos h1]
    by_cases h2 : k % 8 = 0
    · rw [if_pos h2]
      by_cases h3 : k / 8 < p.payLen.toNat
      · rw [if_pos h3]; exact ⟨hc, h1, h2, h3⟩
      · rw [if_neg h3]; exact ⟨hc, h1⟩
    · rw [if_neg h2]; exact ⟨hc, h1⟩
  · rw [if_neg h1]; exact ⟨hc, hk, .inr ⟨rfl, by show k = _; omega⟩⟩

/-- The requests left at the arrival at visit `k` of ENCODE. -/
theorem requestsLeft_encodeVisit {n : Nat} {kind : Kind} {p : Params} {k : Nat} {sc : Scan} :
    requestsLeft (.encode n kind) p (encodeVisit p k sc) ≤ 2 * (p.totalBits - k) + (p.payLen.toNat - (k + 7) / 8) := by
  unfold encodeVisit
  by_cases h1 : k < p.totalBits
  · rw [if_pos h1]
    by_cases h2 : k % 8 = 0
    · rw [if_pos h2]
      by_cases h3 : k / 8 < p.payLen.toNat
      · rw [if_pos h3]; show 2 * (p.totalBits - k) + (_ - k / 8) ≤ _; omega
      · rw [if_neg h3]; show 2 * (p.totalBits - k) + (_ - (k / 8 + 1)) ≤ _; omega
    · rw [if_neg h2]; show 2 * (p.totalBits - k) + (_ - (k / 8 + 1)) ≤ _; omega
  · rw [if_neg h1]; exact Nat.zero_le _

/-- The arrival at visit `k` of DECODE keeps the invariant. -/
theorem scanInv_decodeVisit {n : Nat} {kind : Kind} {p : Params} {k : Nat} {sc : Scan}
    (hc : decodeChecks n kind p = none) (hk : k ≤ p.channelCount * n) :
    ScanInv (.decode n kind) p (decodeVisit n p k sc) := by
  unfold decodeVisit ScanInv
  by_cases h1 : k < p.channelCount * n
  · rw [if_pos h1]; exact ⟨hc, h1⟩
  · rw [if_neg h1]; exact ⟨hc, hk, .inr ⟨rfl, by show k = _; omega⟩⟩

theorem requestsLeft_decodeVisit {n : Nat} {kind : Kind} {p : Params} {k : Nat} {sc : Scan} :
    requestsLeft (.decode n kind) p (decodeVisit n p k sc) ≤ (p.channelCount * n - k) + (p.capacity n - k / 8) := by
  unfold decodeVisit
  by_cases h1 : k < p.channelCount * n
  · rw [if_pos h1]; exact Nat.le_refl _
  · rw [if_neg h1]; exact Nat.zero_le _

/-- What a read request leads to. -/
theorem stepsOn_read {i : Instr} {job : Job} {sc : Scan} {a : Nat} {upd : Byte → Scan} {s : State}
    (h : exec i s = readRequest { job with scan := sc } a upd s) (ha : a < Config.addrSpace)
    (hok : ∀ b, ScanInv i job.params (upd b) ∧ requestsLeft i job.params (upd b) < requestsLeft i job.params job.scan)
    (herr : ScanInv i job.params { sc with next := .finish .busError } ∧
      requestsLeft i job.params { sc with next := .finish .busError } < requestsLeft i job.params job.scan) :
    StepsOn i job s := by
  unfold StepsOn
  rw [h]
  cases hv : s.verdict with
  | okay => exact ⟨_, readRequest_okay ha hv, .inr ⟨_, rfl, hok _⟩⟩
  | error l => exact ⟨_, readRequest_error ha hv, .inr ⟨_, rfl, herr⟩⟩

/-- What a write request leads to. -/
theorem stepsOn_write {i : Instr} {job : Job} {sc sc' : Scan} {a : Nat} {b : Byte} {s : State}
    (h : exec i s = writeRequest { job with scan := sc } a b sc' s) (ha : a < Config.addrSpace)
    (hok : ScanInv i job.params sc' ∧ requestsLeft i job.params sc' < requestsLeft i job.params job.scan)
    (herr : ScanInv i job.params { sc with next := .finish .busError } ∧
      requestsLeft i job.params { sc with next := .finish .busError } < requestsLeft i job.params job.scan) :
    StepsOn i job s := by
  unfold StepsOn
  rw [h]
  cases hv : s.verdict with
  | okay => exact ⟨_, writeRequest_okay ha hv, .inr ⟨_, rfl, hok⟩⟩
  | error l => exact ⟨_, writeRequest_error ha hv, .inr ⟨_, rfl, herr⟩⟩

/-- A completion step. -/
theorem stepsOn_done {i : Instr} {job job' : Job} {ends : List (Nat × Nat)} {c : Code} {cap : Option (BitVec 34)}
    {len : Option Word} {s : State} (h : exec i s = .next (s.complete job' ends c cap len)) : StepsOn i job s :=
  ⟨_, h, .inl (by simp)⟩

theorem visitAddr_lt_encode {n : Nat} {p : Params} (hr : EncodeReady n p) (sc : Scan) :
    visitAddr p sc < Config.addrSpace := by
  have := visitOffset_lt hr.channelCount_pos sc.k
  have := hr.imgRange
  unfold visitAddr Params.imgAddr Config.addrSpace
  omega

theorem encode_stepsOn {n : Nat} {kind : Kind} {s : State} {job : Job} (hj : s.engine = .run job)
    (h : ScanInv (.encode n kind) job.params job.scan) : StepsOn (.encode n kind) job s := by
  have hT : 0 < job.params.totalBits := by unfold Params.totalBits Params.effLen Config.sentLen; omega
  cases hn : job.scan.next with
  | finish c => exact stepsOn_done (exec_encode_finish hj hn)
  | start =>
    cases hc : encodeChecks n kind job.params with
    | some c => exact stepsOn_done (exec_encode_failing hj hn hc)
    | none =>
      have hr := encodeReady hc
      have hpr := hr.payRange
      have e := exec_encode_start hj hn hc
      have hleft : requestsLeft (.encode n kind) job.params job.scan =
          job.params.payLen.toNat + 2 * job.params.totalBits := by simp only [requestsLeft, hn]
      have herr : ∀ sc : Scan, sc.k = 0 →
          ScanInv (.encode n kind) job.params { sc with next := .finish .busError } ∧
          requestsLeft (.encode n kind) job.params { sc with next := .finish .busError } <
            requestsLeft (.encode n kind) job.params job.scan := fun sc hk =>
        ⟨⟨hc, by show sc.k ≤ _; omega, .inl rfl⟩, by rw [hleft]; show 0 < _; omega⟩
      by_cases hp : 0 < job.params.payLen.toNat
      · have ev : encodeVisit job.params 0 job.scan = { job.scan with k := 0, next := .payload } := by
          unfold encodeVisit
          rw [if_pos hT, if_pos rfl, if_pos (by omega)]
        rw [ev] at e
        simp only [encodeStep] at e
        refine stepsOn_read e (by simp only [Params.payAddr, Config.addrSpace]; omega) (fun b => ⟨⟨hc, hT⟩, ?_⟩)
          (herr _ rfl)
        rw [hleft]
        show 2 * (_ - 0) + (_ - (0 / 8 + 1)) < _
        omega
      · have ev : encodeVisit job.params 0 job.scan = { job.scan with k := 0, pb := Config.sentByte, next := .read } := by
          unfold encodeVisit
          rw [if_pos hT, if_pos rfl, if_neg (by omega)]
        rw [ev] at e
        simp only [encodeStep] at e
        refine stepsOn_read e (visitAddr_lt_encode hr _) (fun b => ⟨⟨hc, hT⟩, ?_⟩) (herr _ rfl)
        rw [hleft]
        show 2 * (_ - 0) + (_ - (0 / 8 + 1)) - 1 < _
        omega
  | payload =>
    simp only [ScanInv, hn] at h
    obtain ⟨hc, hk, h8, hp⟩ := h
    have hr := encodeReady hc
    have hpr := hr.payRange
    have hleft : requestsLeft (.encode n kind) job.params job.scan =
        2 * (job.params.totalBits - job.scan.k) + (job.params.payLen.toNat - job.scan.k / 8) := by
      simp only [requestsLeft, hn]
    refine stepsOn_read (job := job) (sc := job.scan) (exec_encode_payload hj hn)
      (by simp only [Params.payAddr, Config.addrSpace]; omega) (fun b => ⟨⟨hc, hk⟩, ?_⟩)
      ⟨⟨hc, Nat.le_of_lt hk, .inl rfl⟩, by rw [hleft]; show 0 < _; omega⟩
    rw [hleft]
    show 2 * (_ - job.scan.k) + (_ - (job.scan.k / 8 + 1)) < _
    omega
  | read =>
    simp only [ScanInv, hn] at h
    obtain ⟨hc, hk⟩ := h
    have hr := encodeReady hc
    have hleft : requestsLeft (.encode n kind) job.params job.scan =
        2 * (job.params.totalBits - job.scan.k) + (job.params.payLen.toNat - (job.scan.k / 8 + 1)) := by
      simp only [requestsLeft, hn]
    refine stepsOn_read (job := job) (sc := job.scan) (exec_encode_read hj hn) (visitAddr_lt_encode hr _)
      (fun b => ⟨⟨hc, hk⟩, ?_⟩) ⟨⟨hc, Nat.le_of_lt hk, .inl rfl⟩, by rw [hleft]; show 0 < _; omega⟩
    rw [hleft]
    show 2 * (_ - job.scan.k) + (_ - (job.scan.k / 8 + 1)) - 1 < _
    omega
  | write =>
    simp only [ScanInv, hn] at h
    obtain ⟨hc, hk⟩ := h
    have hr := encodeReady hc
    have hleft : requestsLeft (.encode n kind) job.params job.scan =
        2 * (job.params.totalBits - job.scan.k) + (job.params.payLen.toNat - (job.scan.k / 8 + 1)) - 1 := by
      simp only [requestsLeft, hn]
    refine stepsOn_write (job := job) (sc := job.scan) (exec_encode_write hj hn) (visitAddr_lt_encode hr _)
      ⟨scanInv_encodeVisit hc hk, ?_⟩ ⟨⟨hc, Nat.le_of_lt hk, .inl rfl⟩, by rw [hleft]; show 0 < _; omega⟩
    have := requestsLeft_encodeVisit (n := n) (kind := kind) (p := job.params) (k := job.scan.k + 1) (sc := job.scan)
    exact Nat.lt_of_le_of_lt this (by omega)

theorem visitAddr_lt_decode {n : Nat} {p : Params} (hr : DecodeReady n p) {sc : Scan}
    (hk : sc.k < p.channelCount * n) : visitAddr p sc < Config.addrSpace := by
  have hN : 0 < p.channelCount := Nat.pos_of_ne_zero fun h0 => by simp [h0] at hk
  have := visitOffset_lt hN sc.k
  have := hr.imgRange
  unfold visitAddr Params.imgAddr Config.addrSpace
  omega

/-- The scan after a read of DECODE keeps the invariant, with one request fewer to make. -/
theorem decodeBit_stepsOn {n : Nat} {kind : Kind} {p : Params} (sc : Scan) (b : Byte)
    (hc : decodeChecks n kind p = none) (hk : sc.k < p.channelCount * n) :
    ScanInv (.decode n kind) p (decodeBit n p sc b) ∧
      requestsLeft (.decode n kind) p (decodeBit n p sc b) <
        (p.channelCount * n - sc.k) + (p.capacity n - sc.k / 8) := by
  unfold decodeBit
  by_cases h7 : sc.k % 8 = 7
  · simp only [if_pos h7]
    refine ⟨⟨hc, hk, h7⟩, ?_⟩
    show (_ - sc.k) + (_ - sc.k / 8) - 1 < _
    omega
  · simp only [if_neg h7]
    refine ⟨scanInv_decodeVisit hc hk, Nat.lt_of_le_of_lt requestsLeft_decodeVisit ?_⟩
    omega

theorem decode_stepsOn {n : Nat} {kind : Kind} {s : State} {job : Job} (hj : s.engine = .run job)
    (h : ScanInv (.decode n kind) job.params job.scan) : StepsOn (.decode n kind) job s := by
  cases hn : job.scan.next with
  | finish c => exact stepsOn_done (exec_decode_finish hj hn)
  | start =>
    cases hc : decodeChecks n kind job.params with
    | some c => exact stepsOn_done (exec_decode_failing hj hn hc)
    | none =>
      have hr := decodeReady hc
      have e := exec_decode_start hj hn hc
      have hleft : requestsLeft (.decode n kind) job.params job.scan =
          job.params.channelCount * n + job.params.capacity n := by simp only [requestsLeft, hn]
      by_cases hT : 0 < job.params.channelCount * n
      · have ev : decodeVisit n job.params 0 job.scan = { job.scan with k := 0, next := .read } := by
          unfold decodeVisit
          rw [if_pos hT]
        rw [ev] at e
        simp only [decodeStep] at e
        refine stepsOn_read e (visitAddr_lt_decode hr (by exact hT)) (fun b => ?_)
          ⟨⟨hc, Nat.zero_le _, .inl rfl⟩, by rw [hleft]; show 0 < _; omega⟩
        have := decodeBit_stepsOn { job.scan with k := 0, next := .read } b hc (by exact hT)
        rw [hleft]
        simpa using this
      · have ev : decodeVisit n job.params 0 job.scan = { job.scan with k := 0, next := .finish (scanOutcome job.scan) } := by
          unfold decodeVisit
          rw [if_neg hT]
        rw [ev] at e
        simp only [decodeStep, decodeComplete] at e
        exact stepsOn_done e
  | payload => simp only [ScanInv, hn] at h
  | read =>
    simp only [ScanInv, hn] at h
    obtain ⟨hc, hk⟩ := h
    have hr := decodeReady hc
    have hleft : requestsLeft (.decode n kind) job.params job.scan =
        (job.params.channelCount * n - job.scan.k) + (job.params.capacity n - job.scan.k / 8) := by
      simp only [requestsLeft, hn]
    refine stepsOn_read (job := job) (sc := job.scan) (exec_decode_read hj hn) (visitAddr_lt_decode hr hk)
      (fun b => by rw [hleft]; exact decodeBit_stepsOn job.scan b hc hk)
      ⟨⟨hc, Nat.le_of_lt hk, .inl rfl⟩, by rw [hleft]; show 0 < _; omega⟩
  | write =>
    simp only [ScanInv, hn] at h
    obtain ⟨hc, hk, h7⟩ := h
    have hr := decodeReady hc
    have hor := hr.outRange
    have hcap : job.scan.k / 8 < job.params.capacity n := by unfold Params.capacity; omega
    have hleft : requestsLeft (.decode n kind) job.params job.scan =
        (job.params.channelCount * n - job.scan.k) + (job.params.capacity n - job.scan.k / 8) - 1 := by
      simp only [requestsLeft, hn]
    refine stepsOn_write (job := job) (sc := job.scan) (exec_decode_write hj hn)
      (by simp only [chunkAddr, Params.outAddr, Config.addrSpace]; omega)
      ⟨scanInv_decodeVisit hc hk, Nat.lt_of_le_of_lt requestsLeft_decodeVisit ?_⟩
      ⟨⟨hc, Nat.le_of_lt hk, .inl rfl⟩, by rw [hleft]; show 0 < _; omega⟩
    show (job.params.channelCount * n - (job.scan.k + 1)) + (job.params.capacity n - (job.scan.k + 1) / 8) < _
    omega

/-- Every command in a place it can have steps on (20_memory.md R69; 70_reset_and_hazards.md R254). -/
theorem exec_stepsOn {i : Instr} {s : State} {job : Job} (hj : s.engine = .run job)
    (h : ScanInv i job.params job.scan) : StepsOn i job s := by
  cases i with
  | capacity n => exact stepsOn_done (exec_capacity hj)
  | check n k => exact stepsOn_done (exec_check hj)
  | encode n k => exact encode_stepsOn hj h
  | decode n k => exact decode_stepsOn hj h

/-- The requests left right after acceptance are at most those of the command's success. -/
theorem requestsLeft_le {i : Instr} {p : Params} {sc : Scan} (h : ScanInv i p sc) :
    requestsLeft i p sc ≤ requestCount i p := by
  cases i with
  | capacity n => exact Nat.le_refl _
  | check n k => exact Nat.le_refl _
  | encode n k =>
    simp only [requestsLeft, requestCount]
    cases hn : sc.next <;> simp only <;> omega
  | decode n k =>
    simp only [requestsLeft, requestCount]
    cases hn : sc.next <;> simp only <;> omega

end Sys2Proof.Machine
end

