-- ==== Sys2Proof/Laws/Agents.lean ====
section
/-! SUPPORT. Each operation of the engine, of the host and of the outside keeps the invariant, and with it the canonical
form of memory: one lemma for each. -/

namespace Sys2Proof.Machine

theorem engineStep_stepsOn {s : State} (hi : Inv s) {job : Job} (hj : s.engine = .run job) :
   ∃ t, engineStep s = .next t ∧ (t.engine = .idle ∨ ∃ i sc, decode job.word = .ok i ∧
       t.engine = .run { job with scan := sc } ∧ ScanInv i job.params sc ∧
           requestsLeft i job.params sc < requestsLeft i job.params job.scan) := by
  cases hd : decode job.word with
  | error r => exact ⟨_, engineStep_illegal hj hd, .inl (by simp)⟩
  | ok i =>
    obtain ⟨t, h1, h2⟩ := exec_stepsOn hj ((hi.run job hj).scan i hd)
    refine ⟨t, by rw [engineStep_command hj hd]; exact h1, ?_⟩
    rcases h2 with h2 | ⟨sc, h2⟩
    · exact .inl h2
    · exact .inr ⟨i, sc, rfl, h2⟩

theorem engineStep_move {s t : State} {job : Job} (hj : s.engine = .run job)
    (h : engineStep s = .next t) : EngineMove job s t := by
  cases hd : decode job.word with
  | error r => rw [engineStep_illegal hj hd] at h; cases h; exact .done job.scan _ _ _ _ rfl rfl
  | ok i => rw [engineStep_command hj hd] at h; exact exec_move hj h

/-- A step of the engine leaves the host's copies as they are, and the completion leaves the copies of the command's
buffers to be invalidated (20_memory.md R80). -/
theorem engineStep_unsynced {s t : State} (hi : Inv s) {job : Job} (hj : s.engine = .run job)
    (h : engineStep s = .next t) :
    t.unsynced = if t.engine = .idle then (s.unsync job.ends).unsynced else s.unsynced := by
  unfold Job.ends
  cases hd : decode job.word with
  | error r => rw [engineStep_illegal hj hd] at h; cases h; simp
  | ok i => rw [engineStep_command hj hd] at h; exact exec_unsynced hj ((hi.run job hj).scan i hd) h

/-- The end of a command keeps the set of copies to be invalidated a set of addresses. -/
theorem unsync_set {s : State} (h : IsAddrSet s.unsynced) (job : Job) : IsAddrSet (s.unsync job.ends).unsynced :=
  h.unlessCoherent _ (h.addRanges fun _ hr => touched_inSpace job (ends_touched hr))

theorem inv_engineStep {s t : State} (hi : Inv s) (h : engineStep s = .next t) : Inv t := by
  cases hj : s.engine with
  | idle => simp [engineStep, hj] at h; subst h; exact hi
  | run job =>
    have hm := engineStep_move hj h
    have hf := hm.frame
    obtain ⟨u, hu, hrun⟩ := engineStep_stepsOn hi hj
    rw [h] at hu; cases hu
    have hus := engineStep_unsynced hi hj h
    refine ⟨?_, ?_, by rw [hf.dirty]; exact hi.dirtySet, ?_, ?_, ?_, ?_⟩
    · rcases hm.mem with e | ⟨a, b, ha, e⟩ <;> rw [e]
      · exact hi.memWf
      · exact Memory.wf_write hi.memWf _ _
    · rcases hm.mem with e | ⟨a, b, ha, e⟩ <;> rw [e]
      · exact hi.memInSpace
      · exact Memory.inSpace_write hi.memInSpace ha _
    · rcases hm.stale with e | ⟨a, ha, e, -⟩ <;> rw [e]
      · exact hi.staleSet
      · exact hi.staleSet.addAddr ha
    · rw [hus]
      split
      · exact unsync_set hi.unsyncedSet job
      · exact hi.unsyncedSet
    · intro hc
      rw [hf.platform] at hc
      have hcs := hi.coherent hc
      rcases hm.stale with e | ⟨a, -, -, e⟩
      · rw [hf.dirty, e, hus]
        simp [hcs, hc]
      · rw [e] at hc; cases hc
    · intro job' hj'
      have hr := hi.run job hj
      rcases hm.phase with ⟨hid, _⟩ | ⟨⟨sc, hsc⟩, hd, he, _⟩
      · rw [hid] at hj'; cases hj'
      · rw [hsc] at hj'; cases hj'
        refine ⟨by rw [hf.cmd]; exact hr.word, by rw [hf.params]; exact hr.params, by rw [hd]; exact hr.done,
            by rw [he]; exact hr.errcode, ?_⟩
        intro i hdec
        rcases hrun with hid | ⟨i', sc', hd', he', hs', _⟩
        · rw [hid] at hsc; cases hsc
        · rw [hsc] at he'; cases he'
          simp only at hdec; rw [hd'] at hdec; cases hdec; exact hs'

/-- The invariant reads only these fields. -/
theorem inv_of_fields {s t : State} (hi : Inv s) (h1 : t.mem = s.mem) (h2 : t.dirty = s.dirty)
    (h3 : t.stale = s.stale) (hu : t.unsynced = s.unsynced) (h4 : t.engine = s.engine)
   (h5 : t.cmd = s.cmd) (h6 : t.params = s.params) (h7 : t.done = true → s.done = true)
       (h8 : t.errcode = s.errcode) (h9 : t.platform = s.platform) : Inv t := by
  refine ⟨by rw [h1]; exact hi.memWf, by rw [h1]; exact hi.memInSpace, by rw [h2]; exact hi.dirtySet,
      by rw [h3]; exact hi.staleSet, by rw [hu]; exact hi.unsyncedSet, by rw [h9, h2, h3, hu]; exact hi.coherent, ?_⟩
  intro job hj
  rw [h4] at hj
  have := hi.run job hj
  refine ⟨by rw [h5]; exact this.word, by rw [h6]; exact this.params, ?_, by rw [h8]; exact this.errcode, this.scan⟩
  cases hd : t.done
  · rfl
  · have := h7 hd; simp_all [(hi.run job hj).done]

theorem scanInv_unfixed {i p} {sc : Scan} {u : Bool} (h : ScanInv i p sc) : ScanInv i p { sc with unfixed := u } := by
  cases i <;> exact h

theorem inv_loosen {s : State} {job : Job} (hi : Inv s) (hj : s.engine = .run job) : Inv (s.loosen job) := by
  refine ⟨Memory.wf_scrambleRanges hi.memWf _ _, Memory.inSpace_scrambleRanges hi.memInSpace _
      (fun _ hr => touched_inSpace job hr), hi.dirtySet,
      hi.staleSet.unlessCoherent _ (hi.staleSet.addRanges fun _ hr => touched_inSpace job hr), hi.unsyncedSet, ?_, ?_⟩
  · intro hc
    have := hi.coherent hc
    simp_all [State.loosen, State.unfix]
  intro job' hj'
  have hr := hi.run job hj
  cases hj'
  exact ⟨hr.word, hr.params, hr.done, hr.errcode, fun i hd => scanInv_unfixed (hr.scan i hd)⟩

theorem inv_unfix {s : State} {job : Job} (hi : Inv s) (hj : s.engine = .run job) : Inv (s.unfix job) := by
  have hr := hi.run job hj
  refine ⟨hi.memWf, hi.memInSpace, hi.dirtySet, hi.staleSet, hi.unsyncedSet, hi.coherent, ?_⟩
  intro job' hj'
  cases hj'
  exact ⟨hr.word, hr.params, hr.done, hr.errcode, fun i hd => scanInv_unfixed (hr.scan i hd)⟩

theorem inv_latch {s : State} (hi : Inv s) (w : Word) : Inv (s.latch w) := by
  refine ⟨hi.memWf, hi.memInSpace, hi.dirtySet, hi.staleSet, hi.unsyncedSet, hi.coherent, ?_⟩
  intro job hj
  cases hj
  refine ⟨rfl, rfl, rfl, rfl, ?_⟩
  intro i _
  cases i <;> trivial

theorem inv_accept {s : State} (hi : Inv s) (w : Word) : Inv (s.accept w) := by
  unfold State.accept
  simp only
  split
  · exact inv_loosen (inv_latch hi w) rfl
  · split
    · exact inv_unfix (inv_latch hi w) rfl
    · exact inv_latch hi w

theorem inv_params {s : State} (hi : Inv s) (hb : s.busy = false) (p : Params) : Inv { s with params := p } := by
  refine ⟨hi.memWf, hi.memInSpace, hi.dirtySet, hi.staleSet, hi.unsyncedSet, hi.coherent, ?_⟩
  intro job hj
  simp only at hj
  simp [State.busy, hj] at hb

theorem inv_writeReg {s : State} (hi : Inv s) (r : Reg) (w : Word) : Inv (s.writeReg r w) := by
  have hdrop : Inv s.dropWrite := inv_of_fields hi rfl rfl rfl rfl rfl rfl rfl id rfl rfl
  have hp : ∀ f, Inv (s.writeParam f) := by
    intro f
    unfold State.writeParam
    cases hb : s.busy
    · exact inv_params hi hb _
    · exact hdrop
  cases r with
  | cmd =>
    simp only [State.writeReg]
    cases hb : s.busy
    · exact inv_accept hi w
    · exact hdrop
  | status =>
    refine inv_of_fields hi rfl rfl rfl rfl rfl rfl rfl (fun h => ?_) rfl rfl
    simp only [State.writeReg, State.clearFlags, Bool.and_eq_true] at h
    exact h.1
  | ctrl => exact inv_of_fields hi rfl rfl rfl rfl rfl rfl rfl id rfl rfl
  | id => exact hi
  | capLo => exact hi
  | capHi => exact hi
  | msgLen => exact hi
  | imgBase => exact hp fun p => { p with imgBase := w }
  | rows => exact hp fun p => { p with rows := w.setWidth 16 }
  | cols => exact hp fun p => { p with cols := w.setWidth 16 }
  | payBase => exact hp fun p => { p with payBase := w }
  | payLen => exact hp fun p => { p with payLen := w }
  | outBase => exact hp fun p => { p with outBase := w }
  | outSize => exact hp fun p => { p with outSize := w }

theorem inv_reply {s : State} (hi : Inv s) (r : Reply)
    : Inv { s with reply := r } := inv_of_fields hi rfl rfl rfl rfl rfl rfl rfl id rfl rfl

theorem inv_host {s : State} (hi : Inv s) (h : HostAgent)
    : Inv { s with host := h } := inv_of_fields hi rfl rfl rfl rfl rfl rfl rfl id rfl rfl

theorem inv_portWrite {s : State} (hi : Inv s) (off : BitVec 8) (width : Width) (w : Word) : Inv
    (s.portWrite off width w) := by
  unfold State.portWrite
  split
  · apply inv_reply
    split
    · exact inv_writeReg hi _ _
    · exact hi
  · exact inv_reply hi _

theorem inv_portRead {s : State} (hi : Inv s) (off : BitVec 8) (width : Width) : Inv (s.portRead off width) := by
  unfold State.portRead
  split <;> exact inv_reply hi _

theorem inv_access {s : State} (hi : Inv s) (a width data) : Inv (s.access a width data) := by
  unfold State.access
  split
  · exact hi
  · split
    · exact inv_portRead hi _ _
    · exact inv_portWrite hi _ _ _

/-- The invariant where only memory and the host's cache sets have changed. -/
theorem inv_of_memory {s t : State} (hi : Inv s) (hw : t.mem.wf = true) (hm : t.mem.inSpace = true)
    (hd : IsAddrSet t.dirty) (hs : IsAddrSet t.stale) (hu : IsAddrSet t.unsynced)
    (hc : t.platform.hostCoherent = true → t.dirty = [] ∧ t.stale = [] ∧ t.unsynced = []) (h4 : t.engine = s.engine)
    (h5 : t.cmd = s.cmd) (h6 : t.params = s.params) (h7 : t.done = s.done) (h8 : t.errcode = s.errcode) : Inv t := by
  refine ⟨hw, hm, hd, hs, hu, hc, fun job hj => ?_⟩
  have := hi.run job (h4 ▸ hj)
  exact ⟨h5 ▸ this.word, h6 ▸ this.params, h7 ▸ this.done, h8 ▸ this.errcode, this.scan⟩

theorem inv_hostPut {s : State} (hi : Inv s) {a : Nat} (ha : a < Config.addrSpace) (b : Byte) :
    Inv (s.hostPut a b) :=
  inv_of_memory hi (Memory.wf_write hi.memWf _ _) (Memory.inSpace_write hi.memInSpace ha _)
    (hi.dirtySet.unlessCoherent _ (hi.dirtySet.addAddr ha)) (hi.staleSet.filter _) hi.unsyncedSet
    (fun hc => by have := hi.coherent hc; simp_all [State.hostPut]) rfl rfl rfl rfl rfl

theorem inv_busPut {s : State} (hi : Inv s) {a : Nat} (ha : a < Config.addrSpace) (b : Byte) :
    Inv (s.busPut a b) :=
  inv_of_memory hi (Memory.wf_write hi.memWf _ _) (Memory.inSpace_write hi.memInSpace ha _) hi.dirtySet
    (hi.staleSet.unlessCoherent _ (hi.staleSet.addAddr ha)) hi.unsyncedSet
    (fun hc => by have := hi.coherent hc; simp_all [State.busPut]) rfl rfl rfl rfl rfl

theorem inv_racedIf {s : State} (hi : Inv s) (meets : List (Nat × Nat) → Bool) : Inv (s.racedIf meets) := by
  rcases racedIf_cases meets s with h | ⟨job, hj, -, h⟩ <;> rw [h]
  · exact hi
  · exact inv_loosen hi hj

theorem inv_hostStore {s : State} (hi : Inv s) {a : Nat} (ha : a < Config.addrSpace) (b : Byte) :
    Inv (s.hostStore a b) := inv_racedIf (inv_hostPut hi ha b) _

theorem inv_busStore {s : State} (hi : Inv s) {a : Nat} (ha : a < Config.addrSpace) (b : Byte) :
    Inv (s.busStore a b) := inv_racedIf (inv_busPut hi ha b) _

theorem inv_storeBytes {store : Nat → Byte → State → State}
    (hst : ∀ {s : State}, Inv s → ∀ {a : Nat}, a < Config.addrSpace → ∀ b, Inv (store a b s)) {s : State} (hi : Inv s)
    (a : Nat) (l : List Byte) (hl : a + l.length ≤ Config.addrSpace) : Inv (s.storeBytes store a l) := by
  induction l generalizing s a with
  | nil => exact hi
  | cons b l ih =>
    simp only [List.length_cons] at hl
    exact ih (hst hi (by omega) b) (a + 1) (by omega)

theorem inv_writeAccess {store : Nat → Byte → State → State}
    (hst : ∀ {s : State}, Inv s → ∀ {a : Nat}, a < Config.addrSpace → ∀ b, Inv (store a b s)) {s : State} (hi : Inv s)
    (a : Word) (l : List Byte) : Inv (s.writeAccess store a l) := by
  by_cases h : a.toNat + l.length ≤ 2 ^ 32
  · rw [writeAccess_inside store s h]
    exact inv_reply (inv_storeBytes hst hi _ _ h) _
  · rw [writeAccess_outside store s (by omega)]
    exact inv_reply hi _

theorem inv_hostWrite {s : State} (hi : Inv s) (a : Word) (l : List Byte) : Inv (s.hostWrite a l) :=
  inv_writeAccess (fun h _ ha b => inv_hostStore h ha b) hi a l

theorem inv_busWrite {s : State} (hi : Inv s) (a : Word) (l : List Byte) : Inv (s.busWrite a l) :=
  inv_writeAccess (fun h _ ha b => inv_busStore h ha b) hi a l

theorem inv_readAccess {s : State} (hi : Inv s) (isOpen : Nat → Bool) (a : Word) (c : Nat) :
    Inv (s.readAccess isOpen a c) := by
  obtain ⟨r, d, h, -⟩ := readAccess_cases isOpen a c s
  rw [h]
  exact inv_of_fields hi rfl rfl rfl rfl rfl rfl rfl id rfl rfl

theorem inv_freeBytes {s : State} (hi : Inv s) {l : List Nat} (hl : ∀ a ∈ l, a < Config.addrSpace) :
    Inv (s.freeBytes l) := by
  obtain ⟨m, d, h, -, hw, hm, -, -⟩ := freeBytes_eq s l
  rw [h]
  exact inv_of_memory hi (hw hi.memWf) (hm hi.memInSpace hl) hi.dirtySet hi.staleSet
    hi.unsyncedSet hi.coherent rfl rfl rfl rfl rfl

theorem inv_writeBack {s : State} (hi : Inv s) (range : Nat × Nat) : Inv (s.writeBack range) :=
  inv_racedIf (inv_freeBytes hi fun a ha => hi.staleSet.2 a (List.mem_filter.1 ha).1) _

theorem inv_cacheClean {s : State} (hi : Inv s) (range : Nat × Nat) : Inv (s.cacheClean range) := by
  have h := inv_writeBack hi range
  exact inv_of_memory h h.memWf h.memInSpace (h.dirtySet.filter _) h.staleSet h.unsyncedSet
    (fun hc => ⟨by simp only [State.cacheClean, (h.coherent hc).1, List.filter_nil], (h.coherent hc).2⟩)
    rfl rfl rfl rfl rfl

theorem inv_cacheInvalidate {s : State} (hi : Inv s) (range : Nat × Nat) : Inv (s.cacheInvalidate range) := by
  have h := inv_freeBytes (inv_writeBack hi range) (l := s.dirtyIn range) fun a ha =>
    hi.dirtySet.2 a (List.mem_filter.1 ha).1
  exact inv_of_memory h h.memWf h.memInSpace (h.dirtySet.filter _) (h.staleSet.filter _) (h.unsyncedSet.filter _)
    (fun hc => by
      obtain ⟨h1, h2, h3⟩ := h.coherent hc
      simp only [State.cacheInvalidate, h1, h2, h3, List.filter_nil, and_self]) rfl rfl rfl rfl rfl

theorem inv_hostNext {s : State} (hi : Inv s) : Inv s.hostNext := inv_host hi _

theorem inv_hostSet {s : State} (hi : Inv s) (h : HVar) (w : Word) : Inv (s.hostSet h w) := inv_host hi _

/-- A branch changes the host only. -/
theorem hostBranch_eq (taken : Bool) (l : Nat) (s : State) : ∃ h, s.hostBranch taken l = { s with host := h } := by
  unfold State.hostBranch
  split
  · split
    · exact ⟨_, rfl⟩
    · exact ⟨_, rfl⟩
  · exact ⟨_, rfl⟩

theorem inv_hostBranch {s : State} (hi : Inv s) (taken : Bool) (l : Nat) : Inv (s.hostBranch taken l) := by
  obtain ⟨h, e⟩ := hostBranch_eq taken l s
  rw [e]
  exact inv_host hi h

theorem inv_hostExec {s : State} (hi : Inv s) (op : HostOp) : Inv (s.hostExec op) := by
  cases op with
  | wr r v => exact inv_hostNext (inv_portWrite hi _ _ _)
  | rd r v => exact inv_hostSet (inv_portRead hi _ _) _ _
  | memw a l => exact inv_hostNext (inv_hostWrite hi a l)
  | memr a l => exact inv_hostNext (inv_readAccess hi _ a l)
  | set v w => exact inv_hostSet hi _ _
  | add v w => exact inv_hostSet hi _ _
  | and v w => exact inv_hostSet hi _ _
  | beq v w l => exact inv_hostBranch hi _ l
  | bne v w l => exact inv_hostBranch hi _ l
  | label l => exact inv_hostNext hi
  | halt => exact inv_host hi _

theorem inv_hostStep {s : State} (hi : Inv s) : Inv s.hostStep := by
  unfold State.hostStep
  split
  · exact hi
  · exact inv_hostExec hi _

theorem inv_resetRegs {s : State} (hi : Inv s) : Inv s.resetRegs :=
  ⟨hi.memWf, hi.memInSpace, hi.dirtySet, hi.staleSet, hi.unsyncedSet, hi.coherent, fun _ hj => nomatch hj⟩

theorem inv_engineStore {s : State} (hi : Inv s) (job : Job) {a : Nat} (ha : a < Config.addrSpace) (b : Byte) :
    Inv (s.engineStore job a b) :=
  inv_of_memory hi (Memory.wf_write hi.memWf _ _) (Memory.inSpace_write hi.memInSpace ha _) hi.dirtySet
    (hi.staleSet.unlessCoherent _ (hi.staleSet.addAddr ha)) hi.unsyncedSet
    (fun hc => by have := hi.coherent hc; simp_all [State.engineStore]) rfl rfl rfl rfl rfl

theorem inv_unsyncRunning {s : State} (hi : Inv s) : Inv s.unsyncRunning := by
  unfold State.unsyncRunning
  split
  · exact hi
  · exact inv_of_memory hi hi.memWf hi.memInSpace hi.dirtySet hi.staleSet (unsync_set hi.unsyncedSet _)
      (fun hc => by have := hi.coherent hc; simp_all [State.unsync]) rfl rfl rfl rfl rfl

theorem inv_landPending {s : State} (hi : Inv s) : Inv s.landPending := by
  unfold State.landPending
  split
  · exact hi
  · split
    · exact hi
    · split
      · rename_i ha
        exact inv_engineStore hi _ ha _
      · exact hi

theorem inv_reset {s : State} (hi : Inv s) (l : Bool) : Inv (s.resetEvent l) := by
  refine inv_resetRegs (inv_unsyncRunning ?_)
  split
  · exact inv_landPending hi
  · exact hi

end Sys2Proof.Machine
end

