-- ==== Sys2Proof/Laws/Bits.lean ====
section
/-! SUPPORT. The laws of the bit-string helpers (43_bit_helpers.md) that the proofs about ENCODE and DECODE cite. -/

namespace Sys2Proof.Machine

/-! ## Planes -/

/-- `SetPlane` read bit by bit (43_bit_helpers.md R174). -/
theorem setPlane_getLsbD (v : Byte) {q : Nat} (hq : 1 ≤ q) (hq8 : q ≤ 8) (b : Bool) (t : Nat) :
    (setPlane v q b).getLsbD t = if t = q - 1 then b else v.getLsbD t := by
  have hq' : ∃ r, r < 8 ∧ q = r + 1 := ⟨q - 1, by omega, by omega⟩
  obtain ⟨r, hr, rfl⟩ := hq'
  by_cases ht : t < 8
  · have key : ∀ r < 8, ∀ t < 8, ∀ b : Bool, ∀ v : BitVec 8,
        (setPlane v (r + 1) b).getLsbD t = if t = r then b else v.getLsbD t := by
      intro r hr t ht b v
      unfold setPlane
      interval_cases r <;> interval_cases t <;> cases b <;> simp
    simpa using key r hr t ht b v
  · have h1 : (setPlane v (r + 1) b).getLsbD t = false := BitVec.getLsbD_of_ge _ _ (by omega)
    have h2 : v.getLsbD t = false := BitVec.getLsbD_of_ge _ _ (by omega)
    rw [h1, h2, if_neg (by omega)]

/-- Two bytes with the same bits are the same. -/
theorem byte_ext {a b : Byte} (h : ∀ t < 8, a.getLsbD t = b.getLsbD t) : a = b :=
  BitVec.eq_of_getLsbD_eq fun t ht => h t ht

/-! ## Bytes and bit strings -/

/-- The bits of a byte into which a bit has been shifted. -/
theorem shiftIn_getLsbD (acc : Byte) (b : Bool) (t : Nat) (ht : t < 8) :
    (shiftIn acc b).getLsbD t = if t = 0 then b else acc.getLsbD (t - 1) := by
  have key : shiftIn acc b = (acc <<< 1) ||| (BitVec.ofBool b).setWidth 8 := by
    unfold shiftIn
    revert acc b
    decide
  rw [key]
  interval_cases t <;> cases b <;> simp

theorem foldl_shiftIn_getLsbD (s : List Bool) (acc : Byte) (t : Nat) (ht : t < 8) :
    (s.foldl shiftIn acc).getLsbD t =
      if t < s.length then s.getD (s.length - 1 - t) false else acc.getLsbD (t - s.length) := by
  induction s generalizing acc with
  | nil => simp
  | cons b s ih =>
    rw [List.foldl_cons, ih]
    by_cases h1 : t < s.length
    · rw [if_pos h1, if_pos (by simp; omega)]
      have : (b :: s).length - 1 - t = (s.length - 1 - t) + 1 := by simp; omega
      rw [this, List.getD_cons_succ]
    · rw [if_neg h1, shiftIn_getLsbD _ _ _ (by omega)]
      by_cases h2 : t = s.length
      · subst h2; simp
      · rw [if_neg (by omega), if_neg (by simp; omega)]
        congr 1

/-- Bit `7 - t` of a parsed 8-bit string is its element `t` (43_bit_helpers.md R171). -/
theorem byteOf_getLsbD {s : List Bool} (hs : s.length = 8) (t : Nat) (ht : t < 8) :
    (byteOf s).getLsbD t = s.getD (7 - t) false := by
  rw [byteOf, foldl_shiftIn_getLsbD _ _ _ ht, hs, if_pos ht]

/-- The chunk byte bit by bit (42_unpacker.md R152). -/
theorem chunkByte_getLsbD (p : Params) (m : Memory) (i t : Nat) (ht : t < 8) :
    (chunkByte p m i).getLsbD t = imageBit p m (8 * i + (7 - t)) := by
  rw [chunkByte, byteOf_getLsbD (by simp) t ht, List.getD_eq_getElem?_getD, List.getElem?_map,
    List.getElem?_range (by omega)]
  rfl

/-! ## The sentinel -/

theorem startsWithSent_iff (b : List Byte) :
    startsWithSent b = true ↔ 5 ≤ b.length ∧ ∀ t < 5, b.getD t 0 = Config.sentByte := by
  unfold startsWithSent sentinel Config.sentLen
  rw [beq_iff_eq]
  constructor
  · intro h
    have hl : 5 ≤ b.length := by
      have := congrArg List.length h
      simp at this
      omega
    refine ⟨hl, fun t ht => ?_⟩
    have := congrArg (fun l => l.getD t 0) h
    simp only [List.getD_eq_getElem?_getD, List.getElem?_take, List.getElem?_replicate, if_pos ht] at this ⊢
    simpa using this
  · rintro ⟨hl, h⟩
    apply List.ext_getElem
    · simp; omega
    · intro t h1 h2
      have ht : t < 5 := by simpa using h2
      have := h t ht
      rw [List.getD_eq_getElem _ _ (by omega)] at this
      rw [List.getElem_take, List.getElem_replicate, this]

/-- Whether the sentinel stands whole at index `i` (43_bit_helpers.md R175). -/
def sentAt (b : List Byte) (i : Nat) : Prop := i + 5 ≤ b.length ∧ ∀ t < 5, b.getD (i + t) 0 = Config.sentByte

theorem sentAt_zero (b : List Byte) : sentAt b 0 ↔ startsWithSent b = true := by
  rw [startsWithSent_iff]; simp [sentAt]

theorem sentAt_succ (x : Byte) (b : List Byte) (i : Nat) : sentAt (x :: b) (i + 1) ↔ sentAt b i := by
  have h : ∀ t, i + 1 + t = i + t + 1 := fun t => by omega
  simp only [sentAt, h, List.getD_cons_succ, List.length_cons]
  constructor <;> rintro ⟨h1, h2⟩ <;> exact ⟨by omega, h2⟩

theorem not_sentAt_nil (i : Nat) : ¬ sentAt [] i := by simp [sentAt]

/-- `FirstSent` finds the least index, and nothing only where there is none (43_bit_helpers.md R175). -/
theorem firstSent_spec (b : List Byte) :
    match firstSent b with
    | some i => sentAt b i ∧ ∀ j < i, ¬ sentAt b j
    | none => ∀ j, ¬ sentAt b j := by
  induction b with
  | nil => exact not_sentAt_nil
  | cons x b ih =>
    unfold firstSent
    by_cases h : startsWithSent (x :: b) = true
    · rw [if_pos h]
      exact ⟨(sentAt_zero _).2 h, fun j hj => absurd hj (by omega)⟩
    · rw [if_neg h]
      have h0 : ¬ sentAt (x :: b) 0 := fun hs => h ((sentAt_zero _).1 hs)
      cases hf : firstSent b with
      | none =>
        rw [hf] at ih
        intro j
        cases j with
        | zero => exact h0
        | succ j => rw [sentAt_succ]; exact ih j
      | some i =>
        rw [hf] at ih
        refine ⟨(sentAt_succ _ _ _).2 ih.1, fun j (hj : j < i + 1) => ?_⟩
        cases j with
        | zero => exact h0
        | succ j => rw [sentAt_succ]; exact ih.2 j (by omega)

/-- The least index is the only one `FirstSent` can give. -/
theorem firstSent_eq_some {b : List Byte} {i : Nat} (h : sentAt b i) (hm : ∀ j < i, ¬ sentAt b j) :
    firstSent b = some i := by
  have hs := firstSent_spec b
  cases hf : firstSent b with
  | none => rw [hf] at hs; exact absurd h (hs i)
  | some k =>
    rw [hf] at hs
    rcases Nat.lt_trichotomy k i with hlt | heq | hgt
    · exact absurd hs.1 (hm k hlt)
    · rw [heq]
    · exact absurd h (hs.2 i hgt)

theorem firstSent_eq_none {b : List Byte} (h : ∀ j, ¬ sentAt b j) : firstSent b = none := by
  have hs := firstSent_spec b
  cases hf : firstSent b with
  | none => rfl
  | some k => rw [hf] at hs; exact absurd hs.1 (h k)

/-! ## Bit strings of byte sequences -/

/-- The bits of a byte, one by one (43_bit_helpers.md R170). -/
theorem bitsOf_getD (b : Byte) (t : Nat) (ht : t < 8) : (bitsOf b).getD t false = b.getLsbD (7 - t) := by
  simp [bitsOf, List.getD_eq_getElem?_getD, List.getElem?_map, List.getElem?_range ht]

@[simp] theorem bitsOf_length (b : Byte) : (bitsOf b).length = 8 := by simp [bitsOf]

/-- The bit string of a byte sequence, bit by bit. -/
theorem flatMap_bits (l : List Byte) :
    (l.flatMap bitsOf).length = 8 * l.length ∧
      ∀ k < 8 * l.length, (l.flatMap bitsOf).getD k false = (l.getD (k/8) 0).getLsbD (7 - k % 8) := by
  induction l with
  | nil => simp
  | cons b l ih =>
    obtain ⟨h1,h2⟩ := ih
    refine ⟨by simp [h1, bitsOf_length]; omega, ?_⟩
    intro k hk
    rw [List.flatMap_cons, List.getD_eq_getElem?_getD]
    by_cases h : k < 8
    · rw [List.getElem?_append_left (by rw [bitsOf_length]; exact h), ← List.getD_eq_getElem?_getD,
        bitsOf_getD _ _ h]
      have : k / 8 = 0 := by omega
      rw [this, List.getD_cons_zero, Nat.mod_eq_of_lt h]
    · rw [List.getElem?_append_right (by rw [bitsOf_length]; omega), bitsOf_length, ← List.getD_eq_getElem?_getD,
        h2 _ (by simp at hk; omega)]
      have : k / 8 = (k - 8)/8 + 1 := by omega
      rw [this, List.getD_cons_succ]; congr 2; omega

/-- The effective payload byte by byte (20_memory.md R63). -/
theorem paySent_getD (p : Params) (m : Memory) (i : Nat) (hi : i < p.effLen) :
    (payloadBytes p m ++ sentinel).getD i 0 = effByte p m i := by
  unfold effByte
  have hl : (payloadBytes p m).length = p.payLen.toNat := by simp [payloadBytes]
  split
  · rename_i h
    rw [List.getD_append _ _ _ _ (by omega)]
    simp [payloadBytes, List.getD_eq_getElem?_getD, List.getElem?_map, List.getElem?_range h]
  · rename_i h
    rw [List.getD_append_right _ _ _ _ (by omega), hl]
    unfold Params.effLen Config.sentLen at hi
    unfold sentinel Config.sentLen
    rw [List.getD_eq_getElem?_getD, List.getElem?_replicate, if_pos (by omega)]; rfl

theorem paySent_length (p : Params) (m : Memory) : (payloadBytes p m ++ sentinel).length = p.effLen := by
  simp [payloadBytes, sentinel, Params.effLen]

/-! ## The engine's search for the sentinel -/

/-- What the engine's search knows after the bytes `b`: the first sentinel, or that there is none yet and how many
sentinel bytes stand at the end (43_bit_helpers.md R175). -/
structure TrackInv (b : List Byte) (sc : Scan) : Prop where
  split : (∃ i, sc.found = some i ∧ sentAt b i ∧ ∀ j < i, ¬ sentAt b j) ∨
    (sc.found = none ∧ sc.streak < 5 ∧ sc.streak ≤ b.length ∧ (∀ j, ¬ sentAt b j) ∧
      (∀ t < sc.streak, b.getD (b.length - 1 - t) 0 = Config.sentByte) ∧
      (sc.streak < b.length → b.getD (b.length - 1 - sc.streak) 0 ≠ Config.sentByte))

theorem getD_snoc (b : List Byte) (x : Byte) (i : Nat) :
    (b ++ [x]).getD i 0 = if i < b.length then b.getD i 0 else if i = b.length then x else 0 := by
  split
  · rw [List.getD_append _ _ _ _ (by omega)]
  · rw [List.getD_append_right _ _ _ _ (by omega)]
    split
    · subst_vars; simp
    · rw [List.getD_eq_default]; simp; omega

theorem sentAt_snoc_old {b : List Byte} {x : Byte} {j : Nat} (h : j + 5 ≤ b.length) :
    sentAt (b ++ [x]) j ↔ sentAt b j := by
  unfold sentAt
  constructor
  · rintro ⟨_, h2⟩; refine ⟨h, fun t ht => ?_⟩; have := h2 t ht; rwa [getD_snoc, if_pos (by omega)] at this
  · rintro ⟨_, h2⟩; refine ⟨by simp; omega, fun t ht => ?_⟩; rw [getD_snoc, if_pos (by omega)]; exact h2 t ht

/-- One more output byte. -/
theorem track_step {b : List Byte} {sc : Scan} (h : TrackInv b sc) (x : Byte) :
    TrackInv (b ++ [x]) (trackSent b.length x sc) := by
  rcases h.split with ⟨i, hf, hs, hm⟩ | ⟨hf, h5, hl, hno, hrun, hstop⟩
  · have hb := hs.1
    refine ⟨.inl ⟨i, ?_, (sentAt_snoc_old hb).2 hs, fun j hj => ?_⟩⟩
    · simp [trackSent, hf]
    · rw [sentAt_snoc_old (by omega)]; exact hm j hj
  · have hnew : ∀ j, sentAt (b ++ [x]) j → j + 5 = b.length + 1 := by
      intro j hj
      have hle := hj.1
      simp at hle
      by_cases hx : j + 5 ≤ b.length
      · exact absurd ((sentAt_snoc_old hx).1 hj) (hno j)
      · omega
    unfold trackSent
    rw [if_neg (by simp [hf])]
    split
    · rename_i hx
      split
      · rename_i h4
        rw [Config.sentLen] at h4
        refine ⟨.inl ⟨_, rfl, ?_, ?_⟩⟩
        · rw [Config.sentLen]
          refine ⟨by simp; omega, fun t ht => ?_⟩
          rw [getD_snoc]
          split
          · rename_i hlt
            have := hrun (b.length - 1 - (b.length + 1 - 5 + t)) (by omega)
            rwa [show b.length - 1 - (b.length - 1 - (b.length + 1 - 5 + t)) = b.length + 1 - 5 + t by omega] at this
          · rw [if_pos (by omega), hx]
        · intro j hj hs
          have := hnew j hs
          rw [Config.sentLen] at hj; omega
      · rename_i h4
        rw [Config.sentLen] at h4
        refine ⟨.inr ⟨hf, by simp only; omega, by simp; omega, ?_, ?_, ?_⟩⟩
        · intro j hs
          have hj := hnew j hs
          have := hs.2 (b.length - 1 - sc.streak - j) (by omega)
          rw [getD_snoc, if_pos (by omega), 
            show j + (b.length - 1 - sc.streak - j) = b.length - 1 - sc.streak by omega] at this
          exact hstop (by omega) this
        · intro t ht
          simp only [List.length_append, List.length_singleton] at ht ⊢
          rw [getD_snoc]
          split
          · have := hrun (t - 1) (by omega)
            rwa [show b.length - 1 - (t - 1) = b.length + 1 - 1 - t by omega] at this
          · rw [if_pos (by omega), hx]
        · intro hlt
          simp only [List.length_append, List.length_singleton] at hlt ⊢
          rw [getD_snoc, if_pos (by omega)]
          have := hstop (by omega)
          rwa [show b.length - 1 - sc.streak = b.length + 1 - 1 - (sc.streak + 1) by omega] at this
    · rename_i hx
      refine ⟨.inr ⟨hf, by simp, by simp, ?_, by simp, ?_⟩⟩
      · intro j hs
        have hj := hnew j hs
        have := hs.2 4 (by omega)
        rw [getD_snoc, if_neg (by omega), if_pos (by omega)] at this
        exact hx this
      · intro _
        simp only [List.length_append, List.length_singleton]
        rw [getD_snoc, if_neg (by omega), if_pos (by omega)]; exact hx

theorem trackAll_inv (b c : List Byte) (sc : Scan) (h : TrackInv b sc) :
    TrackInv (b ++ c) (trackAll b.length sc c) := by
  induction c generalizing b sc with
  | nil => simpa [trackAll] using h
  | cons x c ih =>
    have := ih (b ++ [x]) _ (track_step h x)
    simpa [trackAll] using this

/-- The search has found what `FirstSent` finds. -/
theorem TrackInv.found {b : List Byte} {sc : Scan} (h : TrackInv b sc) : sc.found = firstSent b := by
  rcases h.split with ⟨i, hf, hs, hm⟩ | ⟨hf, _, _, hno, _⟩
  · rw [hf, firstSent_eq_some hs hm]
  · rw [hf, firstSent_eq_none hno]

theorem fresh_track : TrackInv [] Scan.fresh :=
  ⟨.inr ⟨rfl, by decide, by decide, not_sentAt_nil, by simp [Scan.fresh], by simp⟩⟩

/-- The search writes its own two fields only. -/
theorem trackSent_fields (i : Nat) (b : Byte) (sc : Scan) :
    (trackSent i b sc).k = sc.k ∧ (trackSent i b sc).unfixed = sc.unfixed ∧ (trackSent i b sc).acc = sc.acc ∧
      (trackSent i b sc).next = sc.next := by
  unfold trackSent
  split
  · simp
  · split
    · split <;> simp
    · simp

theorem TrackInv.of_fields {b : List Byte} {sc sc' : Scan} (h : TrackInv b sc) (h1 : sc'.found = sc.found)
    (h2 : sc'.streak = sc.streak) : TrackInv b sc' := by
  constructor
  rw [h1, h2]
  exact h.split

end Sys2Proof.Machine
end

