-- ==== Sys2Proof/Laws/Decode.lean ====
section
/-! SUPPORT. The laws of the fields of a command word, and what the decoder can answer. -/

namespace Sys2Proof

/-- A word is its four fields in the order of 30_encoding.md R90. -/
theorem word_eq_fields (w : Word) : w = (rsvField w ++ kindField w ++ nbitsField w ++ opField w : BitVec 32) := by
  unfold rsvField kindField nbitsField opField
  apply BitVec.eq_of_getLsbD_eq
  intro i hi
  simp only [BitVec.getLsbD_append, BitVec.getLsbD_extractLsb']
  interval_cases i <;> simp

theorem opField_bit (w : Word) {i : Nat} (h : i < 4) : (opField w).getLsbD i = w.getLsbD i := by
  simp [opField, h]

theorem rsvField_bit (w : Word) {i : Nat} (h : i < 22) : (rsvField w).getLsbD i = w.getLsbD (10 + i) := by
  simp [rsvField, h]

theorem kindField_bit (w : Word) {i : Nat} (h : i < 2) : (kindField w).getLsbD i = w.getLsbD (8 + i) := by
  simp [kindField, h]

/-- The mask of CHECK, ENCODE and DECODE keeps OP and RSV (30_encoding.md R98). -/
theorem mask_iff (w : Word) (o : BitVec 4) : w &&& 0xFFFFFC0F = o.setWidth 32 ↔ opField w = o ∧ rsvField w = 0 := by
  constructor
  · intro h
    have hb := fun i => congrArg (fun x => x.getLsbD i) h
    constructor
    · apply BitVec.eq_of_getLsbD_eq; intro i hi
      rw [opField_bit _ hi]
      have := hb i
      interval_cases i <;> simpa using this
    · apply BitVec.eq_of_getLsbD_eq; intro i hi
      rw [rsvField_bit _ hi]
      have := hb (10 + i)
      interval_cases i <;> simpa using this
  · rintro ⟨rfl, h2⟩
    apply BitVec.eq_of_getLsbD_eq; intro i hi
    have hb := fun i => congrArg (fun x => x.getLsbD i) h2
    rw [BitVec.getLsbD_and, BitVec.getLsbD_setWidth]
    by_cases h4 : i < 4
    · rw [opField_bit _ h4]; interval_cases i <;> simp
    · rw [BitVec.getLsbD_of_ge (opField w) i (by omega)]
      by_cases h10 : i < 10
      · interval_cases i <;> simp
      · have := hb (i - 10)
        simp only [rsvField_bit w (show i - 10 < 22 by omega)] at this
        rw [show 10 + (i - 10) = i by omega] at this
        rw [this]; simp

/-- The mask of CAPACITY keeps OP, RSV and KIND (30_encoding.md R98). -/
theorem mask_kind_iff (w : Word) (o : BitVec 4) :
    w &&& 0xFFFFFF0F = o.setWidth 32 ↔ opField w = o ∧ rsvField w = 0 ∧ kindField w = 0 := by
  constructor
  · intro h
    have hb := fun i => congrArg (fun x => x.getLsbD i) h
    refine ⟨?_, ?_, ?_⟩
    · apply BitVec.eq_of_getLsbD_eq; intro i hi
      rw [opField_bit _ hi]
      have := hb i
      interval_cases i <;> simpa using this
    · apply BitVec.eq_of_getLsbD_eq; intro i hi
      rw [rsvField_bit _ hi]
      have := hb (10 + i)
      interval_cases i <;> simpa using this
    · apply BitVec.eq_of_getLsbD_eq; intro i hi
      rw [kindField_bit _ hi]
      have := hb (8 + i)
      interval_cases i <;> simpa using this
  · rintro ⟨rfl, h2, h3⟩
    apply BitVec.eq_of_getLsbD_eq; intro i hi
    have hb := fun i => congrArg (fun x => x.getLsbD i) h2
    have hk := fun i => congrArg (fun x => x.getLsbD i) h3
    rw [BitVec.getLsbD_and, BitVec.getLsbD_setWidth]
    by_cases h4 : i < 4
    · rw [opField_bit _ h4]; interval_cases i <;> simp
    · rw [BitVec.getLsbD_of_ge (opField w) i (by omega)]
      by_cases h8 : i < 8
      · interval_cases i <;> simp
      · by_cases h10 : i < 10
        · have := hk (i - 8)
          simp only [kindField_bit w (show i - 8 < 2 by omega)] at this
          rw [show 8 + (i - 8) = i by omega] at this
          rw [this]; simp
        · have := hb (i - 10)
          simp only [rsvField_bit w (show i - 10 < 22 by omega)] at this
          rw [show 10 + (i - 10) = i by omega] at this
          rw [this]; simp

@[simp] theorem Kind.bits_ofBits (b : BitVec 2) : (Kind.ofBits b).bits = b := by revert b; decide

@[simp] theorem Kind.ofBits_bits (k : Kind) : Kind.ofBits k.bits = k := by cases k <;> decide

/-- A word whose reserved bits are 0 is the word its other fields make. -/
theorem formatC_of_fields {w : Word} (h : rsvField w = 0) :
    formatC (opField w) (nbitsField w).toNat (kindField w) = w := by
  conv_rhs => rw [word_eq_fields w, h]
  simp [formatC]

/-- Everything the decoder can answer on a word. -/
theorem decode_cases (w : Word) :
    (decode w = .error .reservedOp ∧ ¬ (opField w = 1 ∨ opField w = 2 ∨ opField w = 3 ∨ opField w = 4)) ∨
    (decode w = .error .reservedBits ∧ (opField w = 1 ∨ opField w = 2 ∨ opField w = 3 ∨ opField w = 4) ∧
      rsvField w ≠ 0) ∨
    (decode w = .error .capacityKind ∧ opField w = 1 ∧ rsvField w = 0 ∧ kindField w ≠ 0) ∨
    (decode w = .ok (.capacity (nbitsField w).toNat) ∧ opField w = 1 ∧ rsvField w = 0 ∧ kindField w = 0) ∨
    (decode w = .ok (.check (nbitsField w).toNat (Kind.ofBits (kindField w))) ∧ opField w = 2 ∧ rsvField w = 0) ∨
    (decode w = .ok (.encode (nbitsField w).toNat (Kind.ofBits (kindField w))) ∧ opField w = 3 ∧ rsvField w = 0) ∨
    (decode w = .ok (.decode (nbitsField w).toNat (Kind.ofBits (kindField w))) ∧ opField w = 4 ∧ rsvField w = 0) := by
  unfold decode
  simp only
  by_cases h1 : opField w = 1 ∨ opField w = 2 ∨ opField w = 3 ∨ opField w = 4
  · rw [if_neg (not_not.2 h1)]
    by_cases h2 : rsvField w = 0
    · rw [if_neg (not_not.2 h2)]
      rcases h1 with h | h | h | h
      · rw [if_pos h]
        by_cases h3 : kindField w = 0
        · rw [if_neg (not_not.2 h3)]
          exact .inr (.inr (.inr (.inl ⟨rfl, h, h2, h3⟩)))
        · rw [if_pos h3]
          exact .inr (.inr (.inl ⟨rfl, h, h2, h3⟩))
      · rw [if_neg (by rw [h]; decide), if_pos h]
        exact .inr (.inr (.inr (.inr (.inl ⟨rfl, h, h2⟩))))
      · rw [if_neg (by rw [h]; decide), if_neg (by rw [h]; decide), if_pos h]
        exact .inr (.inr (.inr (.inr (.inr (.inl ⟨rfl, h, h2⟩)))))
      · rw [if_neg (by rw [h]; decide), if_neg (by rw [h]; decide), if_neg (by rw [h]; decide)]
        exact .inr (.inr (.inr (.inr (.inr (.inr ⟨rfl, h, h2⟩)))))
    · rw [if_pos h2]
      exact .inr (.inl ⟨rfl, h1, h2⟩)
  · rw [if_pos h1]
    exact .inl ⟨rfl, h1⟩

end Sys2Proof
end

