-- ==== Sys2Proof/Laws/DecodeRun.lean ====
section
/-! SUPPORT. The run of a DECODE whose checks pass, visit by visit (42_unpacker.md R151, R152). -/

namespace Sys2Proof.Machine

/-- Memory after `c` output bytes. -/
structure OutputAt (p : Params) (m0 : Memory) (c : Nat) (m : Memory) : Prop where
  wf : m.wf = true
  bytes : ∀ i < c, m.read (p.outAddr i) = chunkByte p m0 i
  outside : ∀ a, ¬ inBuffer p.outBase c a → m.read a = m0.read a

/-- The first `c` bytes that DECODE extracts (42_unpacker.md R152). -/
def chunks (p : Params) (m0 : Memory) (c : Nat) : List Byte := (List.range c).map (chunkByte p m0)

@[simp] theorem chunks_length {p : Params} {m0 : Memory} {c : Nat} : (chunks p m0 c).length = c := by simp [chunks]

theorem chunks_succ {p : Params} {m0 : Memory} {c : Nat} :
    chunks p m0 (c + 1) = chunks p m0 c ++ [chunkByte p m0 c] := by
  simp [chunks, List.range_succ]

/-- What holds when DECODE arrives at visit `k`. -/
structure DecodeAt (n : Nat) (job : Job) (s0 : State) (k : Nat) (s : State) : Prop where
  engine : ∃ sc : Scan, s.engine = .run { job with scan := decodeVisit n job.params k sc } ∧ sc.unfixed = false ∧
    (∀ i < k % 8, sc.acc.getLsbD i = imageBit job.params s0.mem (k - 1 - i)) ∧
    TrackInv (chunks job.params s0.mem (k / 8)) sc
  verdict : s.verdict = .okay
  cap : s.cap = s0.cap
  msgLen : s.msgLen = s0.msgLen
  output : OutputAt job.params s0.mem (k / 8) s.mem

/-- The write of output byte `c`. -/
theorem OutputAt.push {p : Params} {m0 m : Memory} {c : Nat} (h : OutputAt p m0 c m) :
    OutputAt p m0 (c + 1) (m.write (p.outAddr c) (chunkByte p m0 c)) := by
  refine ⟨Memory.wf_write h.wf _ _, ?_, ?_⟩
  · intro i hi
    by_cases hc : i = c
    · subst hc; exact Memory.read_write_same h.wf _ _
    · rw [Memory.read_write_other _ _ (by unfold Params.outAddr; omega)]; exact h.bytes i (by omega)
  · intro a ha
    unfold inBuffer at ha
    rw [Memory.read_write_other _ _ (by unfold Params.outAddr; omega)]; exact h.outside a (by unfold inBuffer; omega)

/-- One visit of DECODE and what it costs. -/
theorem decode_visit {n : Nat} {kind : Kind} {job : Job} {s0 s : State} {k : Nat} (hr : DecodeReady n job.params)
    (hk : k < job.params.channelCount * n) (h : DecodeAt n job s0 k s) :
    ∃ m t, execTimes (.decode n kind) m s = .next t ∧ DecodeAt n job s0 (k + 1) t ∧
      k + k / 8 + m = (k + 1) + (k + 1) / 8 := by
  obtain ⟨⟨sc, he, hu, hacc, htr⟩, hv, hcap, hml, ho⟩ := h
  have hN : 0 < job.params.channelCount := by
    rcases Nat.eq_zero_or_pos job.params.channelCount with h0 | h0
    · simp [h0] at hk
    · exact h0
  have hoff := visitOffset_lt hN k
  have hir := hr.imgRange
  have hor := hr.outRange
  have hap := hr.apart
  have hcapd : (k + 1) / 8 ≤ job.params.capacity n := by
    unfold Params.capacity; exact Nat.div_le_div_right hk
  unfold decodeVisit at he
  rw [if_pos hk] at he
  generalize hs2 : ({ sc with k := k, next := .read } : Scan) = sc2 at he
  have hk2 : sc2.k = k := by subst hs2; rfl
  have hu2 : sc2.unfixed = false := by subst hs2; exact hu
  have hn2 : sc2.next = .read := by subst hs2; rfl
  have hacc2 : ∀ i < k % 8, sc2.acc.getLsbD i = imageBit job.params s0.mem (k - 1 - i) := by subst hs2; exact hacc
  have htr2 : TrackInv (chunks job.params s0.mem (k / 8)) sc2 := by subst hs2; exact htr.of_fields rfl rfl
  clear hs2 htr hacc hu
  have haddr : visitAddr job.params sc2 < Config.addrSpace := by
    unfold visitAddr Params.imgAddr Config.addrSpace; rw [hk2]; omega
  have e1 := exec_decode_read (n := n) (k := kind) he hn2
  rw [readRequest_okay (by exact haddr) hv] at e1
  generalize hs1 : State.afterRead _ _ _ _ = s1 at e1
  have hb : s.engineByte { job with scan := sc2 } (visitAddr job.params sc2) =
      s0.mem.read (visitAddr job.params sc2) := by
    rw [State.engineByte_fixed hu2]
    apply ho.outside
    unfold inBuffer visitAddr Params.imgAddr; rw [hk2]; omega
  have he1 : s1.engine = .run { job with
      scan := decodeBit n job.params sc2 (s0.mem.read (visitAddr job.params sc2)) } := by
    subst hs1; simp [hb]
  have hv1 : s1.verdict = .okay := by subst hs1; exact verdict_afterRead
  have hm1 : s1.mem = s.mem := by subst hs1; exact State.afterRead_mem_fixed _ _ _ hu2
  have hc1 : s1.cap = s.cap := by subst hs1; simp
  have hl1 : s1.msgLen = s.msgLen := by subst hs1; simp
  clear hs1
  have hbit : plane (s0.mem.read (visitAddr job.params sc2)) (visitPlane job.params.channelCount sc2.k) =
      imageBit job.params s0.mem k := by
    rw [hk2]; unfold imageBit visitAddr; rw [hk2]
  unfold decodeBit at he1
  simp only [hbit] at he1
  generalize hA : shiftIn sc2.acc (imageBit job.params s0.mem k) = acc at he1
  have hacc' : ∀ i ≤ k % 8, acc.getLsbD i = imageBit job.params s0.mem (k - i) := by
    intro i hi
    subst hA
    rw [shiftIn_getLsbD _ _ _ (by omega)]
    split
    · subst_vars; rfl
    · rw [hacc2 _ (by omega)]; congr 1; omega
  by_cases h7 : k % 8 = 7
  · rw [if_pos (by rw [hk2]; exact h7)] at he1
    have hchunk : acc = chunkByte job.params s0.mem (k / 8) := by
      apply byte_ext
      intro t ht
      rw [chunkByte_getLsbD _ _ _ _ ht, hacc' t (by omega)]; congr 1; omega
    generalize hs3 :
      ({ sc2 with v := s0.mem.read (visitAddr job.params sc2), acc := acc, next := .write } : Scan) = sc3 at he1
    have hk3 : sc3.k = k := by subst hs3; exact hk2
    have hu3 : sc3.unfixed = false := by subst hs3; exact hu2
    have hn3 : sc3.next = .write := by subst hs3; rfl
    have ha3 : sc3.acc = acc := by subst hs3; rfl
    have htr3 : TrackInv (chunks job.params s0.mem (k / 8)) sc3 := by subst hs3; exact htr2.of_fields rfl rfl
    clear hs3
    have hadr : chunkAddr job.params sc3 < Config.addrSpace := by
      unfold chunkAddr Params.outAddr Config.addrSpace; rw [hk3]; omega
    have e2 := exec_decode_write (n := n) (k := kind) he1 hn3
    rw [writeRequest_okay (by exact hadr) hv1] at e2
    have hk8 : (k + 1) / 8 = k / 8 + 1 := by omega
    refine ⟨2, _, (execTimes_succ e1).trans (execTimes_one e2),
      ⟨⟨trackSent (k / 8) acc sc3, ?_, ?_, ?_, ?_⟩, ?_, ?_, ?_, ?_⟩, by omega⟩
    · rw [State.withScan_engine]; simp only [decodeWritten, hk3, ha3]
    · rw [(trackSent_fields _ _ _).2.1]; exact hu3
    · intro i hi; omega
    · rw [hk8, chunks_succ, hchunk]
      have := track_step htr3 (chunkByte job.params s0.mem (k / 8))
      rwa [chunks_length] at this
    · apply verdict_of_memAnswer; rfl
    · simp [hc1, hcap]
    · simp [hl1, hml]
    · rw [hk8]
      have := ho.push
      simpa [State.engineStore, hu3, hm1, ha3, hchunk, chunkAddr, hk3] using this
  · rw [hk2, if_neg h7] at he1
    have hk8 : (k + 1) / 8 = k / 8 := by omega
    refine ⟨1, s1, execTimes_one e1, ⟨⟨_, he1, hu2, ?_, ?_⟩, hv1, by rw [hc1, hcap], by rw [hl1, hml], ?_⟩, by omega⟩
    · intro i hi
      simp only
      rw [hacc' i (by omega)]; rfl
    · rw [hk8]; exact htr2.of_fields rfl rfl
    · rw [hk8, hm1]; exact ho

theorem decode_visits {n : Nat} {kind : Kind} {job : Job} {s0 s0' : State} (hr : DecodeReady n job.params)
    (h0 : DecodeAt n job s0 0 s0') (k : Nat) (hk : k ≤ job.params.channelCount * n) :
    ∃ t, execTimes (.decode n kind) (k + k / 8) s0' = .next t ∧ DecodeAt n job s0 k t := by
  induction k with
  | zero => exact ⟨s0', by simp [execTimes], h0⟩
  | succ k ih =>
    obtain ⟨t, h1, h2⟩ := ih (by omega)
    obtain ⟨m, u, h3, h4, h5⟩ := decode_visit (kind := kind) hr (by omega) h2
    exact ⟨u, by rw [← h5, execTimes_add h1, h3], h4⟩

/-- The first step of a DECODE whose checks pass is its first request, or its completion. -/
theorem decode_start_eq {n : Nat} {kind : Kind} {job : Job} {s : State} (hs : s.starts job)
    (hc : decodeChecks n kind job.params = none) :
    exec (.decode n kind) s = exec (.decode n kind) (s.withScan job (decodeVisit n job.params 0 job.scan)) := by
  obtain ⟨hj, hsc⟩ := hs
  rw [exec_decode_start hj (by rw [hsc]; rfl) hc]
  by_cases hT : 0 < job.params.channelCount * n
  · have h : (decodeVisit n job.params 0 job.scan).next = .read := by unfold decodeVisit; rw [if_pos hT]
    rw [exec_decode_read (job := { job with scan := decodeVisit n job.params 0 job.scan }) rfl h]
    simp only [decodeStep, h, readRequest_withScan]
  · have h : (decodeVisit n job.params 0 job.scan).next = .finish (scanOutcome job.scan) := by
      unfold decodeVisit
      rw [if_neg hT]
    rw [exec_decode_finish (job := { job with scan := decodeVisit n job.params 0 job.scan }) rfl h]
    simp only [decodeStep, h, decodeComplete]
    rfl

/-- The run of a DECODE whose checks pass and whose requests are answered OKAY, up to its completion step. -/
theorem decode_run {n : Nat} {kind : Kind} {job : Job} {s : State} (hs : s.starts job) (hv : s.verdict = .okay)
    (hwf : s.mem.wf = true) (hc : decodeChecks n kind job.params = none) :
    ∃ t, execTimes (.decode n kind) (job.params.channelCount * n + job.params.capacity n)
        (s.withScan job (decodeVisit n job.params 0 job.scan)) = .next t ∧
      DecodeAt n job s (job.params.channelCount * n) t := by
  have hr := decodeReady hc
  have h0 : DecodeAt n job s 0 (s.withScan job (decodeVisit n job.params 0 job.scan)) := by
    refine ⟨⟨job.scan, rfl, by rw [hs.2]; rfl, by omega, by rw [hs.2]; exact fresh_track⟩, hv, rfl,
      rfl, hwf, by omega, fun _ _ => rfl⟩
  exact decode_visits (kind := kind) hr h0 _ (le_refl _)

end Sys2Proof.Machine
end

