-- ==== Sys2Proof/Laws/EncodeRun.lean ====
section
/-! SUPPORT. The run of an ENCODE whose checks pass, visit by visit (41_packer.md R132, R133). -/

namespace Sys2Proof.Machine

/-- The image after the visits before `k`. -/
structure ImageAt (p : Params) (m0 : Memory) (k : Nat) (m : Memory) : Prop where
  wf : m.wf = true
  image : ∀ j < p.channelCount, ∀ b < 8, (m.read (p.imgAddr j)).getLsbD b =
    if b * p.channelCount + j < k then effBit p m0 (b * p.channelCount + j) else (m0.read (p.imgAddr j)).getLsbD b
  outside : ∀ a, ¬ inBuffer p.imgBase p.channelCount a → m.read a = m0.read a

/-- Visit `k` is the visit of one plane and one offset (43_bit_helpers.md R172). -/
theorem visit_bit_iff {N k b j : Nat} (hN : 0 < N) (hj : j < N) : b * N + j = k ↔ b = k / N ∧ j = k % N := by
  constructor
  · rintro rfl
    rw [Nat.add_comm, Nat.add_mul_div_right _ _ hN, Nat.div_eq_of_lt hj, Nat.add_mul_mod_self_right,
      Nat.mod_eq_of_lt hj]
    simp
  · rintro ⟨rfl, rfl⟩
    rw [Nat.mul_comm]; exact Nat.div_add_mod k N

/-- The write of visit `k` (41_packer.md R132 step 3). -/
theorem ImageAt.visit {n : Nat} {p : Params} {m0 m : Memory} {sc : Scan} (hr : EncodeReady n p)
    (h : ImageAt p m0 sc.k m) (hk : sc.k < p.totalBits) (hpb : sc.pb = effByte p m0 (sc.k / 8))
    (hv : sc.v = m.read (visitAddr p sc)) : ImageAt p m0 (sc.k + 1) (m.write (visitAddr p sc)
        (encodeValue p sc)) := by
  have hN := hr.channelCount_pos
  have hTN := hr.totalBits_le
  have hoff := visitOffset_lt hN sc.k
  have hpl := visitPlane_le (n := n) (N := p.channelCount) (k := sc.k) (by omega)
  have h8 := hr.le_eight
  have hval : ∀ t, (encodeValue p sc).getLsbD t =
      if t = sc.k / p.channelCount then effBit p m0 sc.k else (m.read (visitAddr p sc)).getLsbD t := by
    intro t
    unfold encodeValue
    rw [setPlane_getLsbD _ (by simp [visitPlane]) (by omega), hpb, hv]
    rfl
  refine ⟨Memory.wf_write h.wf _ _, fun j hj b hb => ?_, fun a ha => ?_⟩
  · have hiff := visit_bit_iff (k := sc.k) (b := b) hN hj
    by_cases hjo : j = visitOffset p.channelCount sc.k
    · have ha : p.imgAddr j = visitAddr p sc := by rw [hjo]; rfl
      rw [ha, Memory.read_write_same h.wf, hval, ← ha, h.image j hj b hb]
      by_cases hbk : b = sc.k / p.channelCount
      · have he := hiff.2 ⟨hbk, hjo⟩
        rw [if_pos hbk, he, if_pos (Nat.lt_succ_self _)]
      · rw [if_neg hbk]
        have : b * p.channelCount + j ≠ sc.k := fun he => hbk (hiff.1 he).1
        congr 1
        simp; omega
    · have hne : p.imgAddr j ≠ visitAddr p sc := fun he => hjo (Nat.add_left_cancel he)
      rw [Memory.read_write_other _ _ hne, h.image j hj b hb]
      have : b * p.channelCount + j ≠ sc.k := fun he => hjo (hiff.1 he).2
      congr 1
      simp; omega
  · rw [Memory.read_write_other, h.outside a ha]
    intro h'; apply ha; subst h'
    simp only [visitAddr, Params.imgAddr, inBuffer]; omega

/-- What holds when ENCODE arrives at visit `k`. -/
structure EncodeAt (job : Job) (s0 : State) (k : Nat) (s : State) : Prop where
  engine : ∃ sc : Scan, s.engine = .run { job with scan := encodeVisit job.params k sc } ∧ sc.unfixed = false ∧
    (k % 8 ≠ 0 → sc.pb = effByte job.params s0.mem (k / 8))
  verdict : s.verdict = .okay
  cap : s.cap = s0.cap
  msgLen : s.msgLen = s0.msgLen
  image : ImageAt job.params s0.mem k s.mem

/-- The two requests of a visit after its payload byte (41_packer.md R132 steps 2 and 3). -/
theorem encode_visit_tail {n : Nat} {kind : Kind} {job : Job} {sc : Scan} {s0 s : State}
    (hr : EncodeReady n job.params) (he : s.engine = .run { job with scan := sc }) (hk : sc.k < job.params.totalBits)
    (hu : sc.unfixed = false) (hn : sc.next = .read) (hpb : sc.pb = effByte job.params s0.mem (sc.k / 8))
    (hv : s.verdict = .okay) (hcap : s.cap = s0.cap) (hml : s.msgLen = s0.msgLen)
    (hi : ImageAt job.params s0.mem sc.k s.mem) :
    ∃ t, execTimes (.encode n kind) 2 s = .next t ∧ EncodeAt job s0 (sc.k + 1) t := by
  have hN := hr.channelCount_pos
  have hoff := visitOffset_lt hN sc.k
  have hir := hr.imgRange
  have haddr : visitAddr job.params sc < Config.addrSpace := by
    unfold visitAddr Params.imgAddr Config.addrSpace; omega
  have e1 := exec_encode_read (n := n) (k := kind) he hn
  rw [readRequest_okay haddr hv] at e1
  generalize hs1 : State.afterRead _ _ _ _ = s1 at e1
  have hb : s.engineByte { job with scan := sc } (visitAddr job.params sc) = s.mem.read
      (visitAddr job.params sc) := by
    simp [State.engineByte, hu]
  have he1 : s1.engine = .run { job with
      scan := { sc with v := s.mem.read (visitAddr job.params sc), next := .write } } := by
    subst hs1; simp [hb]
  have hv1 : s1.verdict = .okay := by subst hs1; exact verdict_afterRead
  have hm1 : s1.mem = s.mem := by subst hs1; exact State.afterRead_mem_fixed _ _ _ hu
  have hc1 : s1.cap = s.cap := by subst hs1; simp
  have hl1 : s1.msgLen = s.msgLen := by subst hs1; simp
  clear hs1
  have e2 := exec_encode_write (n := n) (k := kind) he1 rfl
  rw [writeRequest_okay (by exact haddr) hv1] at e2
  refine ⟨_, (execTimes_succ e1).trans (execTimes_one e2), ⟨_, State.withScan_engine .., hu, ?_⟩, ?_, ?_, ?_, ?_⟩
  · intro h; simp only; rw [hpb]; congr 1; omega
  · apply verdict_of_memAnswer; rfl
  · simp [hc1, hcap]
  · simp [hl1, hml]
  · have := hi.visit (sc := { sc with v := s.mem.read (visitAddr job.params sc), next := .write }) hr hk hpb rfl
    simpa [State.engineStore, hu, hm1] using this

/-- The requests of the visits before `k` (41_packer.md R135). -/
def encodeCost (p : Params) (k : Nat) : Nat := 2 * k + min ((k + 7) / 8) p.payLen.toNat

/-- One visit of ENCODE and what it costs. -/
theorem encode_visit {n : Nat} {kind : Kind} {job : Job} {s0 s : State} {k : Nat} (hr : EncodeReady n job.params)
    (hk : k < job.params.totalBits) (h : EncodeAt job s0 k s) :
    ∃ m t, execTimes (.encode n kind) m s = .next t ∧ EncodeAt job s0 (k + 1) t ∧
      encodeCost job.params k + m = encodeCost job.params (k + 1) := by
  obtain ⟨⟨sc, he, hu, hpb⟩, hv, hcap, hml, hi⟩ := h
  unfold encodeVisit at he
  rw [if_pos hk] at he
  by_cases h8 : k % 8 = 0
  · rw [if_pos h8] at he
    by_cases hp : k / 8 < job.params.payLen.toNat
    · rw [if_pos hp] at he
      have hpr := hr.payRange
      have hap := hr.apart
      have e0 := exec_encode_payload (n := n) (k := kind) he rfl
      rw [readRequest_okay (by simp only [Params.payAddr, Config.addrSpace]; omega) hv] at e0
      have hpay : s.mem.read (job.params.payAddr (k / 8)) = effByte job.params s0.mem (k / 8) := by
        rw [effByte, if_pos hp]
        apply hi.outside
        simp only [inBuffer, Params.payAddr]; omega
      rw [← State.engineByte_fixed (job := { job with scan := { sc with k := k, next := .payload } }) hu] at hpay
      obtain ⟨t, h1, h2⟩ := encode_visit_tail (n := n) (kind := kind) (s0 := s0) hr
        (sc := { sc with k := k, pb := _, next := .read })
        (State.afterRead_engine s { job with scan := { sc with k := k, next := .payload } }
          (job.params.payAddr (k / 8)) (fun b => { sc with k := k, pb := b, next := .read }))
        hk hu rfl hpay verdict_afterRead (by simpa using hcap) (by simpa using hml)
        (by rw [State.afterRead_mem_fixed _ _ _ (by exact hu)]; exact hi)
      exact ⟨3, t, (execTimes_succ e0).trans h1, h2, by unfold encodeCost; omega⟩
    · rw [if_neg hp] at he
      obtain ⟨t, h1, h2⟩ := encode_visit_tail (n := n) (kind := kind) (s0 := s0) hr he hk hu rfl
        (by simp [effByte, hp]) hv hcap hml hi
      exact ⟨2, t, h1, h2, by unfold encodeCost; omega⟩
  · rw [if_neg h8] at he
    obtain ⟨t, h1, h2⟩ := encode_visit_tail (n := n) (kind := kind) (s0 := s0) hr he hk hu rfl (hpb h8) hv hcap hml hi
    exact ⟨2, t, h1, h2, by unfold encodeCost; omega⟩

theorem encode_visits {n : Nat} {kind : Kind} {job : Job} {s0 s0' : State} (hr : EncodeReady n job.params)
    (h0 : EncodeAt job s0 0 s0') (k : Nat) (hk : k ≤ job.params.totalBits) :
    ∃ t, execTimes (.encode n kind) (encodeCost job.params k) s0' = .next t ∧ EncodeAt job s0 k t := by
  induction k with
  | zero => exact ⟨s0', by simp [encodeCost, execTimes], h0⟩
  | succ k ih =>
    obtain ⟨t, h1, h2⟩ := ih (by omega)
    obtain ⟨m, u, h3, h4, h5⟩ := encode_visit (kind := kind) hr (by omega) h2
    exact ⟨u, by rw [← h5, execTimes_add h1, h3], h4⟩

theorem encodeStep_of_start {n : Nat} {job : Job} {s : State} {sc : Scan}
    (hs : sc.next = .payload ∨ sc.next = .read) :
    encodeStep n { job with scan := sc } s = encodeStep n { job with scan := sc } (s.withScan job sc) := by
  rcases hs with hs | hs <;> simp only [encodeStep, hs, readRequest_withScan]

/-- The first step of an ENCODE whose checks pass is its first request. -/
theorem encode_start_eq {n : Nat} {kind : Kind} {job : Job} {s : State} (hs : s.starts job)
    (hc : encodeChecks n kind job.params = none) :
    exec (.encode n kind) s = exec (.encode n kind) (s.withScan job (encodeVisit job.params 0 job.scan)) := by
  obtain ⟨hj, hsc⟩ := hs
  have hT : 0 < job.params.totalBits := by unfold Params.totalBits Params.effLen Config.sentLen; omega
  rw [exec_encode_start hj (by rw [hsc]; rfl) hc]
  have hnext : (encodeVisit job.params 0 job.scan).next = .payload ∨
      (encodeVisit job.params 0 job.scan).next = .read := by
    unfold encodeVisit
    rw [if_pos hT, if_pos (by omega)]
    split <;> simp
  rw [encodeStep_of_start hnext]
  rcases hnext with h | h
  · rw [exec_encode_payload (job := { job with scan := encodeVisit job.params 0 job.scan }) rfl h]
    simp only [encodeStep, h]
  · rw [exec_encode_read (job := { job with scan := encodeVisit job.params 0 job.scan }) rfl h]
    simp only [encodeStep, h]

/-- The run of an ENCODE whose checks pass and whose requests are answered OKAY, up to its completion step. -/
theorem encode_run {n : Nat} {kind : Kind} {job : Job} {s : State} (hs : s.starts job) (hv : s.verdict = .okay)
 (hwf : s.mem.wf = true)
    (hc : encodeChecks n kind job.params = none) :
    ∃ t, execTimes (.encode n kind) (requestCount (.encode n kind) job.params) s = .next t ∧
      EncodeAt job s job.params.totalBits t := by
  have hr := encodeReady hc
  have hcost : encodeCost job.params job.params.totalBits = requestCount (.encode n kind) job.params := by
    simp only [encodeCost, requestCount, Params.totalBits, Params.effLen, Config.sentLen]; omega
  have h0 : EncodeAt job s 0 (s.withScan job (encodeVisit job.params 0 job.scan)) := by
    refine ⟨⟨job.scan, rfl, by rw [hs.2]; rfl, by omega⟩, hv, rfl, rfl, hwf, ?_, fun _ _ => rfl⟩
    intro j _ b _; simp
  obtain ⟨t, h1, h2⟩ := encode_visits (kind := kind) hr h0 _ (le_refl _)
  refine ⟨t, ?_, h2⟩
  rw [← hcost, ← h1]
  obtain ⟨m, hm⟩ : ∃ m, encodeCost job.params job.params.totalBits = m + 1 :=
    ⟨encodeCost job.params job.params.totalBits - 1, by
      rw [hcost]; simp only [requestCount, Params.totalBits, Params.effLen, Config.sentLen]; omega⟩
  rw [hm]
  simp only [execTimes, encode_start_eq hs hc]

end Sys2Proof.Machine
end

