-- ==== Sys2Proof/Laws/PerInstr.lean ====
section
/-! SUPPORT. Statements made for each constructor of Instr. Family OpcodeRow: the word of a command matches its row of
the opcode map (30_encoding.md R98). -/

namespace Sys2Proof

/-- OP of an assembled word (30_encoding.md R90). -/
theorem opField_formatC (op : BitVec 4) (n : Nat) (k : BitVec 2) : opField (formatC op n k) = op := by
  apply BitVec.eq_of_getLsbD_eq
  intro i hi
  rw [opField_bit _ hi]
  unfold formatC
  rw [BitVec.getLsbD_append]
  simp [hi]

/-- RSV of an assembled word is 0 (30_encoding.md R90). -/
theorem rsvField_formatC (op : BitVec 4) (n : Nat) (k : BitVec 2) : rsvField (formatC op n k) = 0 := by
  apply BitVec.eq_of_getLsbD_eq
  intro i hi
  rw [rsvField_bit _ hi]
  unfold formatC
  rw [BitVec.getLsbD_append, if_neg (by omega), BitVec.getLsbD_append, if_neg (by omega), BitVec.getLsbD_append,
    if_neg (by omega)]
  simp

/-- KIND of an assembled word (30_encoding.md R90). -/
theorem kindField_formatC (op : BitVec 4) (n : Nat) (k : BitVec 2) : kindField (formatC op n k) = k := by
  apply BitVec.eq_of_getLsbD_eq
  intro i hi
  rw [kindField_bit _ hi]
  unfold formatC
  rw [BitVec.getLsbD_append, if_neg (by omega), BitVec.getLsbD_append, if_neg (by omega), BitVec.getLsbD_append,
    if_pos (by omega)]
  congr 1
  omega

namespace Laws.OpcodeRow

/-- The mask of a command's row (30_encoding.md R98). -/
def rowMask : Instr → Word
  | .capacity _ => 0xFFFFFF0F
  | .check _ _ => 0xFFFFFC0F
  | .encode _ _ => 0xFFFFFC0F
  | .decode _ _ => 0xFFFFFC0F

/-- The pattern of a command's row (30_encoding.md R98). -/
def rowMatch : Instr → Word
  | .capacity _ => 0x00000001
  | .check _ _ => 0x00000002
  | .encode _ _ => 0x00000003
  | .decode _ _ => 0x00000004

/-- The word of the command matches its row. -/
def Statement (i : Instr) : Prop := Sys2Proof.encode i &&& rowMask i = rowMatch i

theorem capacity (n : Nat) : Statement (.capacity n) :=
  (mask_kind_iff _ 1).2 ⟨opField_formatC _ _ _, rsvField_formatC _ _ _, kindField_formatC _ _ _⟩

theorem check (n : Nat) (k : Kind) : Statement (.check n k) :=
  (mask_iff _ 2).2 ⟨opField_formatC _ _ _, rsvField_formatC _ _ _⟩

theorem encode (n : Nat) (k : Kind) : Statement (.encode n k) :=
  (mask_iff _ 3).2 ⟨opField_formatC _ _ _, rsvField_formatC _ _ _⟩

theorem decode (n : Nat) (k : Kind) : Statement (.decode n k) :=
  (mask_iff _ 4).2 ⟨opField_formatC _ _ _, rsvField_formatC _ _ _⟩

end Laws.OpcodeRow

end Sys2Proof
end

