-- ==== Sys2Proof/Laws/Port.lean ====
section
/-! SUPPORT. The register port: STATUS bit by bit, and the transactions at a register's own offset. -/

namespace Sys2Proof.Machine

theorem flagBit_getLsbD (b : Bool) (p t : Nat) (ht : t < 32) :
    (flagBit b p).getLsbD t = (decide (t = p) && b) := by
  unfold flagBit
  rw [BitVec.getLsbD_shiftLeft]
  by_cases h : t = p
  · subst h; simp [ht]
  · by_cases h2 : t < p
    · simp [h2, h]
    · have : t - p ≠ 0 := by omega
      simp [h, this]

/-- STATUS bit by bit (10_state.md R26). -/
theorem statusBit (s : State) (t : Nat) (ht : t < 32) :
    s.statusWord.getLsbD t =
    if t = 0 then s.busy else if t = 1 then s.done else if t = 2 then s.err else
    if 4 ≤ t ∧ t < 8 then (Code.bits s.errcode).getLsbD (t - 4) else if t = 8 then s.ovr else false := by
  unfold State.statusWord
  simp only [BitVec.getLsbD_or, flagBit_getLsbD _ _ _ ht]
  cases s.errcode <;> interval_cases t <;> simp [Code.bits]

theorem portWrite_reg (s : State) (r : Reg) (w : Word) :
    s.portWrite (regOffset r) .word w = { s.writeReg r w with reply := .okay } := by
  cases r <;> rfl

theorem portRead_reg (s : State) (r : Reg) :
    s.portRead (regOffset r) .word = { s with reply := .data (s.readReg r) } := by
  cases r <;> rfl

end Sys2Proof.Machine
end

