-- ==== Sys2Proof/Tests/Slice0.lean ====
section
/-! SUPPORT. The tests: the well-formedness check, words written out from 30_encoding.md, single steps with the results
of 95_test_vectors.md, and for each statement with hypotheses a witness that meets them. -/

namespace Sys2Proof.Tests

open Sys2Proof Sys2Proof.Machine

/-! ## WellFormed refuses what the format cannot write (30_encoding.md R90, R92) -/

theorem test_wellFormed_refuses_capacity : (Instr.capacity 16).wellFormed = false := by decide
theorem test_wellFormed_refuses_check : (Instr.check 16 .raw).wellFormed = false := by decide
theorem test_wellFormed_refuses_encode : (Instr.encode 16 .text).wellFormed = false := by decide
theorem test_wellFormed_refuses_decode : (Instr.decode 17 .k3).wellFormed = false := by decide
theorem test_wellFormed_accepts_the_largest_field : (Instr.decode 15 .k3).wellFormed = true := by decide

/-! ## Words written out bit by bit: RSV, KIND, NBITS, OP (30_encoding.md R90, R99; 95_test_vectors.md V6) -/

theorem test_decode_capacity : decode 0b0000000000000000000000_00_0010_0001#32 = .ok (.capacity 2) := by decide
theorem test_decode_check : decode 0b0000000000000000000000_00_0010_0010#32 = .ok (.check 2 .raw) := by decide
theorem test_decode_encode : decode 0b0000000000000000000000_01_0010_0011#32 = .ok (.encode 2 .text) := by decide
theorem test_decode_decode : decode 0b0000000000000000000000_11_1000_0100#32 = .ok (.decode 8 .k3) := by decide
theorem test_decode_reserved_op : decode 0b0000000000000000000000_00_0010_0101#32 = .error .reservedOp := by decide
theorem test_decode_reserved_bits : decode 0b1000000000000000000000_00_0010_0100#32 = .error .reservedBits
    := by decide
theorem test_decode_capacity_kind : decode 0b0000000000000000000000_01_0000_0001#32 = .error .capacityKind
    := by decide
theorem test_encode_words :
    encode (.capacity 2) = 0x21 ∧ encode (.check 2 .raw) = 0x22 ∧ encode (.encode 2 .text) = 0x123 ∧
      encode (.decode 1 .raw) = 0x14 ∧ encode (.encode 8 .raw) = 0x83 := by decide
theorem test_decodeTableWord : decodeTableWord 32 0x223 = some (.encode 2 .k2) ∧ decodeTableWord 32 0x423 = none := by
  decide

/-! ## States -/

/-- The parameter registers of an image of the given shape at 0x1000 (95_test_vectors.md V9). -/
def shape (rows cols : BitVec 16) (payBase payLen outBase outSize : Word) : Params :=
  { imgBase := 0x1000, rows := rows, cols := cols, payBase := payBase, payLen := payLen, outBase := outBase,
    outSize := outSize }

/-- The engine runs word `w` in the place `sc`, everything else as after reset. -/
def running (w : Word) (p : Params) (sc : Scan) : State :=
  { State.reset with cmd := w, params := p, engine := .run { word := w, params := p, scan := sc } }

/-- The job of `running`. -/
def jobOf (w : Word) (p : Params) (sc : Scan) : Job := { word := w, params := p, scan := sc }

/-- A place inside a visit. -/
def place (next : Pending) (k : Nat) (pb v acc : Byte) : Scan :=
  { Scan.fresh with next := next, k := k, pb := pb, v := v, acc := acc }

/-- The register `r` after a step. -/
def regAfter (o : Host.Outcome State Fault Refusal) (r : Reg) : Option Word :=
  match o with
  | .next t => some (t.readReg r)
  | .fault _ => none
  | .refused _ => none

/-- The byte at an address after a step. -/
def byteAfter (o : Host.Outcome State Fault Refusal) (a : Nat) : Option Byte :=
  match o with
  | .next t => some (t.mem.read a)
  | .fault _ => none
  | .refused _ => none

/-- The scan state after a step that leaves the engine running. -/
def scanAfter (o : Host.Outcome State Fault Refusal) : Option Scan :=
  match o with
  | .next t => match t.engine with | .run job => some job.scan | .idle => none
  | .fault _ => none
  | .refused _ => none

/-- The engine of `running` runs the command its word names. -/
theorem running_steps {w : Word} {i : Instr} (p : Params) (sc : Scan) (hd : decode w = .ok i) :
    engineStep (running w p sc) = exec i (running w p sc) := engineStep_command rfl hd

/-- The place with the mark of a command that the spec does not fix. -/
def opened (sc : Scan) : Scan := { sc with unfixed := true }

/-- A platform with cache lines of 16 bytes and no HOST_COHERENT, the host's cache sets as given. -/
def cached (s : State) (dirty stale : List Nat) : State :=
  { s with
    dirty := dirty, stale := stale
    platform := { s.platform with hostCoherent := false, cacheLineLog := 4 } }

/-- A platform whose memory may answer ERROR. -/
def failing (s : State) (landed : Bool) : State :=
  { s with platform := { s.platform with busErrorPossible := true }, memAnswer := .error landed }

/-! ## Single steps with the results of 95_test_vectors.md -/

/-- V2, first row: the largest capacity. -/
theorem test_capacity_largest :
    let o := exec (.capacity 8) (running 0x81 (shape 65535 65535 0 0 0 0) Scan.fresh)
    regAfter o .capHi = some 2 ∧ regAfter o .capLo = some 0xFFFA0003 ∧ regAfter o .status = some 0x02 := by decide

/-- V2, the row of a 1 × 3 image: 9 bits give one byte. -/
theorem test_capacity_floor :
    regAfter (exec (.capacity 1) (running 0x11 (shape 1 3 0 0 0 0) Scan.fresh)) .capLo = some 1 := by decide

/-- V3: the payload and its sentinel fill the capacity exactly. -/
theorem test_check_boundary :
    let o := exec (.check 2 .raw) (running 0x22 (shape 100 100 0 7495 0 0) Scan.fresh)
    regAfter o .status = some 0x02 ∧ regAfter o .capLo = some 7500 := by decide

/-- V4: one byte more is InsufficientCapacity, with CAP recorded. -/
theorem test_check_one_too_many :
    let o := exec (.check 2 .raw) (running 0x22 (shape 100 100 0 7496 0 0) Scan.fresh)
    regAfter o .status = some 0x16 ∧ regAfter o .capLo = some 7500 := by decide

/-- V9, fourth row: the payload overlaps the image. -/
theorem test_encode_overlap :
    let o := exec (.encode 8 .raw) (running 0x83 (shape 3 2 0x1010 4 0 0) Scan.fresh)
    regAfter o .status = some 0x86 ∧ regAfter o .capLo = some 18 := by decide

/-- V13: visit 43 puts bit 3 of the first sentinel byte's string, a 1, into plane 2 of image byte 1, whose plane 1 holds
a 1 already; the result is the second byte of V13's image, 0x03. -/
theorem test_encode_second_plane :
    byteAfter (exec (.encode 2 .raw) (running 0x23 (shape 1 14 0x2000 5 0 0) (place .write 43 0x3D 0x01 0))) 0x1001 =
      some 0x03 := by decide

/-- V19: the eighth bit of the 1 × 1 image `07 00 05` at depth 3 completes the chunk 10110010. -/
theorem test_decode_eighth_bit :
    let s := running 0x34 (shape 1 1 0 0 0x2000 1) (place .read 7 0 0 0x59)
    scanAfter (exec (.decode 3 .raw) { s with mem := [(0x1000, 0x07), (0x1002, 0x05)] }) =
      some (place .write 7 0 0x00 0xB2) := by decide

/-- V7 decode: no channel values, so code 4 and MSG_LEN 0 with no request. -/
theorem test_decode_no_pixels :
    let o := exec (.decode 2 .raw) (running 0x24 (shape 0 10 0 0 0x2000 0) Scan.fresh)
    regAfter o .status = some 0x46 ∧ regAfter o .msgLen = some 0 := by decide

/-- V22: a halfword access and a word access at offset 2 are answered ERROR. -/
theorem test_port_refuses :
    State.reset.portRead 0x04 .half = { State.reset with reply := .error } ∧
      State.reset.portWrite 0x02 .word 1 = { State.reset with reply := .error } := by decide

/-- V24: PAY_LEN = 9 and CMD = 0x21 are dropped while a DECODE runs, and OVR is set. -/
theorem test_port_drops_while_busy :
    let s := running 0x24 (shape 3 2 0 0 0x1012 18) Scan.fresh
    (s.portWrite 0x20 .word 9).readReg .payLen = 0 ∧ (s.portWrite 0x0C .word 0x21).readReg .status = 0x101
        := by decide

/-- V25: reset abandons a running ENCODE. -/
theorem test_reset_abandons :
    let s := running 0x23 (shape 1 14 0x2000 5 0 0) (place .write 1 0x41 0 0)
    (s.resetEvent false).readReg .status = 0 ∧ (s.resetEvent false).engine = .idle := by decide

/-! ## The platform: no choice of a value is tested, only what the rules fix -/

/-- 20_memory.md R68 and 93_implementation_defined.md U8: accepting a command over a device range changes no byte. -/
theorem test_device_acceptance_keeps_memory :
    let s := { State.reset with
      params := shape 3 2 0x2000 4 0 0
      mem := [(0x1001, 0x5A)]
      platform := { platformReset with devices := [(0x1000, 4)] } }
    (s.writeReg .cmd 0x83).mem = [(0x1001, 0x5A)] := by decide

/-- R80: invalidating the line of one byte keeps the host's unwritten bytes of every other line, in the cache and in
memory. -/
theorem test_invalidate_keeps_other_lines :
    let s := cached { State.reset with mem := [(0x1010, 7), (0x1021, 8)] } [0x1010, 0x1021] [0x100F, 0x1022]
    let t := s.cacheInvalidate (0x1000, 1)
    t.dirty = [0x1010, 0x1021] ∧ t.stale = [0x1022] ∧ t.mem = [(0x1010, 7), (0x1021, 8)] := by decide

/-- R80: cleaning a range cleans every line that meets it, and keeps the bytes. -/
theorem test_clean_by_line :
    let s := cached { State.reset with mem := [(0x1010, 7), (0x1021, 8)] } [0x1010, 0x1021] []
    let t := s.cacheClean (0x101F, 1)
    t.dirty = [0x1021] ∧ t.mem = [(0x1010, 7), (0x1021, 8)] := by decide

/-- R80: after a DECODE the host reads any byte of its image and output until it has invalidated their lines; a byte it
writes does not end that. -/
theorem test_reads_wait_for_invalidation :
    let t := { (cached State.reset [] []) with unsynced := [0x1002, 0x2000] }
    let u := (t.hostStore 0x2000 7).cacheInvalidate (0x1000, 3)
    t.hostReadIsOpen 0x1002 = true ∧ t.hostReadIsOpen 0x2000 = true ∧ t.hostReadIsOpen 0x1003 = false ∧
      u.hostReadIsOpen 0x1002 = false ∧ u.hostReadIsOpen 0x2000 = true := by decide

/-- R80: an invalidation before the completion does not count, and one after it does. -/
theorem test_early_invalidation_does_not_count :
    let p := shape 1 1 0 0 0x2000 1
    let s := cached (running 0x34 p (place (.finish .sentinelNotFound) 9 0 0 0)) [] []
    ∃ t, exec (.decode 3 .raw) (s.cacheInvalidate (0x1000, 3)) = .next t ∧
      (t.hostReadIsOpen 0x1002 = true ∧ (t.cacheInvalidate (0x1000, 3)).hostReadIsOpen 0x1002 = false) :=
  ⟨_, rfl, by decide⟩

/-- 70_reset_and_hazards.md R253: a branch to a missing label and an access past the address space hold neither the
engine nor the machine. -/
theorem test_host_holds_nothing :
    let s := { running 0x23 (shape 1 14 0x2000 5 0 0) Scan.fresh with
      host := { HostAgent.reset with prog := [.memr 0xFFFFFFFF 2, .memw 0xFFFFFFFF [1, 2], .beq .h0 0 7] } }
    let t := s.hostStep.hostStep.hostStep
    t.engine = s.engine ∧ t.mem = s.mem ∧ t.host.halted = true ∧ s.hostStep.reply = .error := by decide

/-! ## Witnesses: command words -/

theorem witness_DecodeOfEncodeIsTheCommand : (Instr.encode 15 .k3).wellFormed = true := by decide

theorem witness_EncodeOfDecodeIsTheWord : decode 0x3F4 = .ok (.decode 15 .k3) := by decide

theorem witness_OpcodeMapByMatchAndMask_depth :
    (running 0x93 Params.reset Scan.fresh).starts (jobOf 0x93 Params.reset Scan.fresh) ∧
      decode (jobOf 0x93 Params.reset Scan.fresh).word = .ok (.encode 9 .raw) ∧ (Instr.encode 9 .raw).nbits > 8 :=
  ⟨⟨rfl, rfl⟩, by decide, by decide⟩

theorem witness_OpcodeMapByMatchAndMask_kind :
    (running 0x222 Params.reset Scan.fresh).starts (jobOf 0x222 Params.reset Scan.fresh) ∧
      decode (jobOf 0x222 Params.reset Scan.fresh).word = .ok (.check 2 .k2) ∧
      (Instr.check 2 .k2).kind? = some .k2 :=
  ⟨⟨rfl, rfl⟩, by decide, by decide⟩

/-- A start state for every word: the hypothesis of the statements about the first step. -/
theorem witness_starts (w : Word) (p : Params) : (running w p Scan.fresh).starts (jobOf w p Scan.fresh) := ⟨rfl, rfl⟩

/-- One word for each branch of 30_encoding.md R95, at the boundary values of its fields. -/
theorem witness_FirstFailingWordTest_branches :
    opField 0x0 = 0 ∧ opField 0x5 = 5 ∧ (opField 0x424 = 4 ∧ rsvField 0x424 ≠ 0) ∧
      (opField 0x101 = 1 ∧ rsvField 0x101 = 0 ∧ kindField 0x101 ≠ 0) ∧
      (opField 0x203 = 3 ∧ (nbitsField 0x203).toNat < 1) ∧ (opField 0x94 = 4 ∧ (nbitsField 0x94).toNat > 8) ∧
      (opField 0x312 = 2 ∧ (nbitsField 0x312).toNat = 1 ∧ (kindField 0x312).toNat ≥ 2) ∧
      (opField 0x81 = 1 ∧ (nbitsField 0x81).toNat = 8 ∧ kindField 0x81 = 0) := by decide

/-! ## Witnesses: the register port -/

theorem witness_ParameterRegistersReadBack : State.reset.busy = false ∧ isParamReg .rows ∧ isParamReg .outSize :=
  ⟨rfl, by simp [isParamReg], by simp [isParamReg]⟩

theorem witness_ReservedOffsetsAndBitsReadZero :
    0x38 ≤ (0x38 : BitVec 8).toNat ∧ (0x38 : BitVec 8).toNat % 4 = 0 ∧ 0x38 ≤ (0xFC : BitVec 8).toNat ∧
      (0xFC : BitVec 8).toNat % 4 = 0 := by decide

theorem witness_UnadmittedAccessIsAnsweredError :
    Width.byte ≠ .word ∧ (0x02 : BitVec 8).toNat % 4 ≠ 0 ∧ (0xFC : BitVec 8).toNat % 4 = 0 := by decide

theorem witness_WritesWhileBusyAreDropped : (running 0x24 Params.reset Scan.fresh).busy = true := rfl

theorem witness_RegisterWindowStandsAtRegBase :
    0x100 ≤ ((0x100 : Word) - State.reset.platform.regBase).toNat ∧
      0x100 ≤ ((0xFFFFFFFF : Word) - State.reset.platform.regBase).toNat := by decide

theorem witness_IrqIsDoneAndIe :
    State.reset.busy = false ∧
      ∃ t, engineStep (running 0x21 Params.reset Scan.fresh) = .next t ∧ t.busy = false :=
  ⟨rfl, _, (running_steps _ _ (by decide : decode 0x21 = .ok (.capacity 2))).trans rfl, rfl⟩

/-! ## Witnesses: acceptance and completion -/

/-- A running ENCODE that has just been accepted meets the invariant. -/
theorem inv_running_start (p : Params) : Inv (running 0x23 p Scan.fresh) := by
  refine ⟨rfl, rfl, .nil, .nil, .nil, fun _ => ⟨rfl, rfl, rfl⟩, ?_⟩
  intro job h
  cases h
  refine ⟨rfl, rfl, rfl, rfl, fun i hd => ?_⟩
  have : i = .encode 2 .raw := by
    have h2 : decode 0x23 = .ok (.encode 2 .raw) := by decide
    rw [h2] at hd
    cases hd
    rfl
  subst this
  trivial

theorem witness_AcceptanceLatchesTheCommand :
    State.reset.busy = false ∧ Inv (running 0x23 Params.reset Scan.fresh) ∧
      (running 0x23 Params.reset Scan.fresh).engine = .run (jobOf 0x23 Params.reset Scan.fresh) :=
  ⟨rfl, inv_running_start _, rfl⟩

/-- An idle engine whose command has no unwritten line in its buffers though the host has unwritten bytes elsewhere,
beside no device and over one. -/
theorem witness_AcceptanceOfAPreparedCommand :
    let s := cached { State.reset with params := shape 3 2 0x2000 4 0 0 } [0x0FFF, 0x1020, 0x2010] []
    let t := { s with platform := { s.platform with devices := [(0x2003, 1)] } }
    let job := jobOf 0x83 (shape 3 2 0x2000 4 0 0) Scan.fresh
    s.busy = false ∧ s.unclean job = false ∧ s.onDevice job = false ∧
      t.busy = false ∧ t.unclean job = false ∧ t.onDevice job = true := by decide

theorem witness_CompletionAloneWritesTheResults :
    (∃ t, (running 0x23 (shape 1 14 0x2000 5 0 0) (place .read 1 0x41 0 0)).busy = true ∧
      engineStep (running 0x23 (shape 1 14 0x2000 5 0 0) (place .read 1 0x41 0 0)) = .next t ∧ t.busy = true) ∧
    ∃ t, (running 0x21 Params.reset Scan.fresh).busy = true ∧
      engineStep (running 0x21 Params.reset Scan.fresh) = .next t ∧ t.busy = false :=
  ⟨⟨_, rfl, (running_steps _ _ (by decide : decode 0x23 = .ok (.encode 2 .raw))).trans rfl, rfl⟩,
    ⟨_, rfl, (running_steps _ _ (by decide : decode 0x21 = .ok (.capacity 2))).trans rfl, rfl⟩⟩

theorem witness_CompletionRecordsTheCapacity :
    (∃ t, exec (.check 2 .raw) (running 0x22 (shape 1 14 0 5 0 0) Scan.fresh) = .next t ∧ t.engine = .idle ∧
      t.errcode = .ok) ∧
    ∃ t, exec (.check 9 .raw) (running 0x92 (shape 1 14 0 5 0 0) Scan.fresh) = .next t ∧ t.engine = .idle ∧
      t.errcode = .invalidBitDepth :=
  ⟨⟨_, rfl, rfl, rfl⟩, ⟨_, rfl, rfl, rfl⟩⟩

theorem witness_OnlyDecodeWritesMsgLen :
    ∃ t, exec (.decode 2 .raw)
        (running 0x24 (shape 1 14 0 0 0x2000 10) { place (.finish .ok) 84 0 0 0 with found := some 5 }) = .next t ∧
      t.msgLen ≠ (running 0x24 (shape 1 14 0 0 0x2000 10) Scan.fresh).msgLen :=
  ⟨_, rfl, by decide⟩

theorem witness_CommandFrame :
    (∃ t, exec (.encode 2 .raw) (running 0x23 (shape 1 14 0x2000 5 0 0) (place .read 1 0x41 0 0)) = .next t ∧
      storeAddr (.encode 2 .raw) (jobOf 0x23 (shape 1 14 0x2000 5 0 0) (place .read 1 0x41 0 0)) = none) ∧
    (∃ t, exec (.encode 2 .raw) (running 0x23 (shape 1 14 0x2000 5 0 0) (place .write 1 0x41 0 0)) = .next t ∧
      storeAddr (.encode 2 .raw) (jobOf 0x23 (shape 1 14 0x2000 5 0 0) (place .write 1 0x41 0 0)) = some 0x1001) ∧
    ∃ t, exec (.decode 2 .raw) (running 0x24 (shape 1 14 0 0 0x2000 10) (place .write 79 0 0 0x3D)) = .next t ∧
      storeAddr (.decode 2 .raw) (jobOf 0x24 (shape 1 14 0 0 0x2000 10) (place .write 79 0 0 0x3D)) = some 0x2009 :=
  ⟨⟨_, rfl, rfl⟩, ⟨_, rfl, rfl⟩, ⟨_, rfl, rfl⟩⟩

/-- The two clauses about the request of a step, of an opened command too. -/
theorem witness_CommandFrame_requests :
    let p := shape 1 14 0x2000 5 0 0
    (∃ t, exec (.encode 2 .raw) (running 0x23 p (opened (place .payload 8 0x41 0 0))) = .next t ∧
      requestAddr (.encode 2 .raw) (jobOf 0x23 p (opened (place .payload 8 0x41 0 0))) = some 0x2001) ∧
    (∃ t, exec (.encode 2 .raw) (running 0x23 p Scan.fresh) = .next t ∧
      requestAddr (.encode 2 .raw) (jobOf 0x23 p Scan.fresh) = some 0x2000) ∧
    ∃ t, exec (.encode 2 .raw) (running 0x23 p (place (.finish .ok) 80 0 0 0)) = .next t ∧
      requestAddr (.encode 2 .raw) (jobOf 0x23 p (place (.finish .ok) 80 0 0 0)) = none :=
  ⟨⟨_, rfl, rfl⟩, ⟨_, rfl, rfl⟩, ⟨_, rfl, rfl⟩⟩

/-! ## Witnesses: the planner -/

/-- A running command whose results the spec fixes: the hypotheses of the statements about CAPACITY and CHECK, for every
operand. -/
theorem witness_runs (w : Word) (p : Params) :
    (running w p Scan.fresh).engine = .run (jobOf w p Scan.fresh) ∧ (jobOf w p Scan.fresh).scan.unfixed = false :=
  ⟨rfl, rfl⟩

/-- The engine of `running` is in the given place, for every statement about a running command. -/
theorem witness_engine (w : Word) (p : Params) (sc : Scan) : (running w p sc).engine = .run (jobOf w p sc) := rfl

theorem witness_DerivedQuantitiesNeverWrap : (8 : Nat) ≤ 8 ∧
    (shape 65535 65535 0 0xFFFFFFFF 0 0).capacity 8 = 12884508675 := by
  decide

theorem witness_FittingImpliesRoomForEveryBit :
    (shape 100 100 0 7495 0 0).effLen ≤ (shape 100 100 0 7495 0 0).capacity 2 ∧
      encodeChecks 2 .raw (shape 100 100 0x10000 7495 0 0) = none := by decide

/-! ## Witnesses: ENCODE -/

/-- One set of operands for each branch of the checks of ENCODE (95_test_vectors.md V9). -/
theorem witness_EncodeChecksInOrder_branches :
    encodeChecks 0 .k2 (shape 3 2 0x2000 0 0 0) = some .invalidBitDepth ∧
    encodeChecks 9 .raw (shape 3 2 0x2000 0 0 0) = some .invalidBitDepth ∧
    encodeChecks 8 .k2 (shape 3 2 0x2000 0 0 0) = some .unsupportedInputType ∧
    encodeChecks 8 .raw (shape 3 2 0x1010 14 0 0) = some .insufficientCapacity ∧
    encodeChecks 8 .raw { shape 3 2 0x2000 0 0 0 with imgBase := 0xFFFFFFF0 } = some .addressRange ∧
    encodeChecks 8 .raw { shape 3 2 0x2000 0 0 0 with imgBase := 0xFFFFFFEE } = none ∧
    encodeChecks 8 .raw (shape 3 2 0xFFFFFFFE 4 0 0) = some .addressRange ∧
    encodeChecks 8 .raw (shape 3 2 0x1011 4 0 0) = some .bufferOverlap ∧
    encodeChecks 8 .text (shape 3 2 0x1012 4 0 0) = none ∧
    encodeChecks 8 .raw (shape 3 2 0x1005 0 0 0) = none := by decide

theorem witness_EncodeMakesItsFirstRequest :
    (running 0x83 (shape 3 2 0x1012 4 0 0) Scan.fresh).starts (jobOf 0x83 (shape 3 2 0x1012 4 0 0) Scan.fresh) ∧
      (running 0x83 (shape 3 2 0x1012 4 0 0) Scan.fresh).verdict = .okay ∧
      encodeChecks 8 .raw (jobOf 0x83 (shape 3 2 0x1012 4 0 0) Scan.fresh).params = none ∧
      0 < (jobOf 0x83 (shape 3 2 0x1012 4 0 0) Scan.fresh).params.payLen.toNat :=
  ⟨⟨rfl, rfl⟩, rfl, by decide, by decide⟩

/-- The three places of the request sequence of ENCODE. -/
theorem witness_EncodeRequestSequence :
    let p := shape 3 2 0x1012 4 0 0
    (running 0x83 p (place .payload 24 0 0 0)).verdict = .okay ∧ (place .payload 24 0 0 0).unfixed = false ∧
      (place .payload 24 0 0 0).next = .payload ∧ p.payBase.toNat + 24 / 8 < 2 ^ 32 ∧
      (place .read 71 0 0 0).next = .read ∧ (place .write 71 0x3D 0xFF 0).next = .write ∧
      p.imgBase.toNat + 71 % p.channelCount < 2 ^ 32 := by decide

theorem witness_EncodeCompletes :
    (running 0x83 (shape 3 2 0x1012 4 0 0) (place (.finish .ok) 72 0 0 0)).engine =
      .run (jobOf 0x83 (shape 3 2 0x1012 4 0 0) (place (.finish .ok) 72 0 0 0)) ∧
      (place (.finish .ok) 72 0 0 0).unfixed = false ∧ (place (.finish .ok) 72 0 0 0).next = .finish .ok ∧
      (place (.finish .busError) 3 0 0 0).next = .finish .busError := by decide

theorem witness_EncodeEmbedsThePayload :
    (running 0x83 (shape 3 2 0x1012 4 0 0) Scan.fresh).starts (jobOf 0x83 (shape 3 2 0x1012 4 0 0) Scan.fresh) ∧
      (running 0x83 (shape 3 2 0x1012 4 0 0) Scan.fresh).verdict = .okay ∧
      (running 0x83 (shape 3 2 0x1012 4 0 0) Scan.fresh).mem.wf = true ∧
      encodeChecks 8 .raw (jobOf 0x83 (shape 3 2 0x1012 4 0 0) Scan.fresh).params = none :=
  ⟨⟨rfl, rfl⟩, rfl, rfl, by decide⟩

/-! ## Witnesses: DECODE -/

/-- One set of operands for each branch of the checks of DECODE (95_test_vectors.md V9 decode). -/
theorem witness_DecodeChecksInOrder_branches :
    decodeChecks 0 .k3 (shape 3 2 0 0 0x1012 18) = some .invalidBitDepth ∧
    decodeChecks 9 .raw (shape 3 2 0 0 0x1012 18) = some .invalidBitDepth ∧
    decodeChecks 8 .k3 (shape 3 2 0 0 0x1012 18) = some .unsupportedInputType ∧
    decodeChecks 8 .raw (shape 3 2 0 0 0x1012 17) = some .outputTooSmall ∧
    decodeChecks 8 .raw (shape 3 2 0 0 0xFFFFFFF0 18) = some .addressRange ∧
    decodeChecks 8 .raw (shape 3 2 0 0 0x1011 18) = some .bufferOverlap ∧
    decodeChecks 8 .raw (shape 3 2 0 0 0x0FEF 18) = some .bufferOverlap ∧
    decodeChecks 8 .raw (shape 3 2 0 0 0x1012 18) = none ∧
    decodeChecks 8 .text (shape 3 2 0 0 0x0FEE 18) = none := by decide

theorem witness_DecodeMakesItsFirstRequest :
    ((running 0x84 (shape 3 2 0 0 0x1012 18) Scan.fresh).starts (jobOf 0x84 (shape 3 2 0 0 0x1012 18) Scan.fresh) ∧
      (running 0x84 (shape 3 2 0 0 0x1012 18) Scan.fresh).verdict = .okay ∧
      decodeChecks 8 .raw (jobOf 0x84 (shape 3 2 0 0 0x1012 18) Scan.fresh).params = none ∧
      (shape 3 2 0 0 0x1012 18).channelCount ≠ 0) ∧
    decodeChecks 8 .raw (shape 0 2 0 0 0x1012 0) = none ∧ (shape 0 2 0 0 0x1012 0).channelCount = 0 :=
  ⟨⟨⟨rfl, rfl⟩, rfl, by decide, by decide⟩, by decide, by decide⟩

/-- The two places of the request sequence of DECODE. -/
theorem witness_DecodeRequestSequence :
    let p := shape 3 2 0 0 0x1012 18
    (running 0x84 p (place .read 143 0 0 0)).verdict = .okay ∧ (place .read 143 0 0 0).unfixed = false ∧
      (place .read 143 0 0 0).next = .read ∧ p.imgBase.toNat + 143 % p.channelCount < 2 ^ 32 ∧
      (place .write 143 0 0 0x3D).next = .write ∧ p.outBase.toNat + 143 / 8 < 2 ^ 32 := by decide

theorem witness_DecodeCompletes :
    (place (.finish .ok) 144 0 0 0).unfixed = false ∧ (place (.finish .ok) 144 0 0 0).next = .finish .ok ∧
      ({ place (.finish .ok) 144 0 0 0 with found := some 13 } : Scan).found = some 13 ∧
      (place (.finish .sentinelNotFound) 144 0 0 0).next = .finish .sentinelNotFound ∧
      (place (.finish .busError) 5 0 0 0).next = .finish .busError := by decide

theorem witness_DecodeExtractsTheBytes :
    (running 0x84 (shape 3 2 0 0 0x1012 18) Scan.fresh).starts (jobOf 0x84 (shape 3 2 0 0 0x1012 18) Scan.fresh) ∧
      (running 0x84 (shape 3 2 0 0 0x1012 18) Scan.fresh).verdict = .okay ∧
      (running 0x84 (shape 3 2 0 0 0x1012 18) Scan.fresh).mem.wf = true ∧
      decodeChecks 8 .raw (jobOf 0x84 (shape 3 2 0 0 0x1012 18) Scan.fresh).params = none :=
  ⟨⟨rfl, rfl⟩, rfl, rfl, by decide⟩

/-! ## Witnesses: both commands -/

/-- A run of ENCODE to its end, from the start state of `running`. -/
theorem encode_reaches_its_end {w : Word} {p : Params} {n : Nat} {kind : Kind} (hc : encodeChecks n kind p = none) :
    ∃ t, execTimes (.encode n kind) (requestCount (.encode n kind) p + 1) (running w p Scan.fresh) = .next t := by
  obtain ⟨u, h1, h2⟩ := encode_run (kind := kind) (witness_starts w p) rfl rfl hc
  obtain ⟨sc, he, -, -⟩ := h2.engine
  have hn : (encodeVisit p p.totalBits sc).next = .finish .ok := by
    unfold encodeVisit
    rw [if_neg (by omega)]
  exact ⟨_, (execTimes_add h1).trans (execTimes_one (exec_encode_finish he hn))⟩

/-- The hypotheses of the two statements about ENCODE and DECODE together: the image is encoded at depth `ne` and what
memory then holds is decoded at depth `nd`. -/
theorem witness_encode_then_decode {w w' : Word} {p : Params} {ne nd : Nat} {kind : Kind}
    (hc : encodeChecks ne kind p = none) (hd : decodeChecks nd kind p = none) :
    ∃ s t s2 : State, ∃ job job2 : Job,
      s.starts job ∧ s.verdict = .okay ∧ s.mem.wf = true ∧ encodeChecks ne kind job.params = none ∧
      execTimes (.encode ne kind) (requestCount (.encode ne kind) job.params + 1) s = .next t ∧
      s2.starts job2 ∧ s2.verdict = .okay ∧ s2.mem = t.mem ∧ decodeChecks nd kind job2.params = none ∧
      job.params = p ∧ job2.params = p := by
  obtain ⟨t, ht⟩ := encode_reaches_its_end (w := w) hc
  exact ⟨running w p Scan.fresh, t, { running w' p Scan.fresh with mem := t.mem }, jobOf w p Scan.fresh,
    jobOf w' p Scan.fresh, ⟨rfl, rfl⟩, rfl, rfl, hc, ht, ⟨rfl, rfl⟩, rfl, rfl, hd, rfl, rfl⟩

/-- The image of 95_test_vectors.md V14, encoded and decoded at depth 1: all 40 bits are read back. -/
theorem witness_DecodeRecoversWhatEncodeEmbedded :
    encodeChecks 1 .raw (shape 1 14 0x2000 0 0x3000 5) = none ∧
      decodeChecks 1 .raw (shape 1 14 0x2000 0 0x3000 5) = none ∧
      8 * (shape 1 14 0x2000 0 0x3000 5).effLen ≤ (shape 1 14 0x2000 0 0x3000 5).channelCount * 1 := by decide

/-- The image of V15, encoded at depth 8 and decoded at depth 6: 36 of the 40 bits are read back. -/
theorem witness_DecodeAtASmallerDepthTruncates :
    encodeChecks 8 .raw (shape 1 2 0x2000 0 0x3000 6) = none ∧
      decodeChecks 6 .raw (shape 1 2 0x2000 0 0x3000 6) = none ∧
      (shape 1 2 0x2000 0 0x3000 6).channelCount * 6 < 8 * (shape 1 2 0x2000 0 0x3000 6).effLen := by decide

/-- The first request of each command, and a read and a write inside a visit, answered ERROR. -/
theorem witness_BusErrorEndsTheCommand :
    let p := shape 1 14 0x2000 5 0x3000 10
    State.reset.platform.busErrorPossible = false ∧
      (failing (running 0x23 p Scan.fresh) true).platform.busErrorPossible = true ∧
      (failing (running 0x23 p Scan.fresh) true).verdict = .error true ∧
      (failing (running 0x23 p Scan.fresh) false).verdict = .error false ∧
      requestAddr (.encode 2 .raw) (jobOf 0x23 p Scan.fresh) = some 0x2000 ∧
      requestAddr (.decode 2 .raw) (jobOf 0x24 p Scan.fresh) = some 0x1000 ∧
      requestAddr (.encode 2 .raw) (jobOf 0x23 p (place .write 79 0x41 0 0)) = some 0x1025 ∧
      requestAddr (.decode 2 .raw) (jobOf 0x24 p (place .read 83 0 0 0)) = some 0x1029 ∧
      requestAddr (.decode 2 .raw) (jobOf 0x24 p (place .write 79 0 0 0)) = some 0x3009 ∧
      (place .write 79 0x41 0 0).unfixed = false ∧ 0x3009 < 2 ^ 32 := by decide

/-! ## Witnesses: the helpers -/

theorem witness_BitsAndBytesAreInverse : (bitsOf 0x80).length = 8 ∧ (7 : Nat) < 8 := by decide

theorem witness_SetPlaneChangesOneBit : (1 : Nat) ≤ 8 ∧ (8 : Nat) ≤ 8 ∧ (0 : Nat) ≠ 8 - 1 ∧ (1 : Nat) ≠ 8 := by decide

/-- The last visit of a 2 × 2 image at depth 2, its last channel value, and an image of no pixels. -/
theorem witness_ScanOrderIsPlaneMajorRowMajor :
    23 < 2 * 2 * 3 * 2 ∧ 11 < 2 * 2 * 3 ∧ visitPlane 12 23 = 2 ∧ visitOffset 12 23 = 11 ∧
      visitPlane 12 13 = 2 ∧ visitOffset 12 13 = 1 ∧ pixelOf 2 7 = (1, 0, 1) ∧ (0 = 0 ∨ 5 = 0) := by decide

/-- Effective payload bytes on both sides of the payload's end, and the last bit. -/
theorem witness_EffectivePayloadBitString :
    let p := shape 1 14 0x2000 2 0 0
    1 < p.payLen.toNat ∧ 2 < p.effLen ∧ 55 < 8 * p.effLen := by decide

theorem witness_FirstSentIsTheLeastIndex :
    (1 : Nat) + 5 ≤ [(0x61 : Byte), 0x3D, 0x3D, 0x3D, 0x3D, 0x3D].length ∧
      firstSent [(0x61 : Byte), 0x3D, 0x3D, 0x3D, 0x3D, 0x3D] = some 1 := by decide

theorem witness_ExtractedBitsGroupIntoCapBytes : (1 : Nat) < (List.replicate 17 true).length / 8 := by decide

/-! ## Witnesses: the machine -/

theorem witness_StepRunsTheDecodedCommand :
    decode (jobOf 0x23 Params.reset Scan.fresh).word = .ok (.encode 2 .raw) ∧
      (running 0x23 Params.reset Scan.fresh).schedule = [] ∧
      ({ running 0x23 Params.reset Scan.fresh with schedule := [.engine .okay] } : State).schedule =
        .engine .okay :: [] :=
  ⟨by decide, rfl, rfl⟩

theorem witness_IllegalWordCompletesWithCodeFive :
    State.reset.busy = false ∧ ((0x20 : Word).extractLsb' 0 4).toNat = 0 ∧
      5 ≤ ((0x25 : Word).extractLsb' 0 4).toNat ∧ (0x423 : Word).extractLsb' 10 22 ≠ 0 ∧
      (0x101 : Word).extractLsb' 0 4 = 1 ∧ (0x101 : Word).extractLsb' 8 2 ≠ 0 := by decide

theorem witness_StepKeepsTheInvariant :
    Inv (running 0x23 Params.reset Scan.fresh) ∧ ∃ t, step (running 0x23 Params.reset Scan.fresh) = .next t :=
  ⟨inv_running_start _, _, (running_steps Params.reset Scan.fresh (by decide : decode 0x23 = .ok
      (.encode 2 .raw))).trans rfl⟩

theorem witness_EveryCommandCompletes :
    Inv (running 0x23 Params.reset Scan.fresh) ∧
      (running 0x23 Params.reset Scan.fresh).engine = .run (jobOf 0x23 Params.reset Scan.fresh) ∧
      decode (jobOf 0x23 Params.reset Scan.fresh).word = .ok (.encode 2 .raw) ∧
      requestCount (.encode 2 .raw) Params.reset + 1 ≤ (List.replicate 81 (BusAnswer.error true)).length :=
  ⟨inv_running_start _, rfl, by decide, by decide⟩

/-- A schedule with enough steps of the engine and with each kind of act of the host and the outside between them, a
taken branch to a missing label, an access past the address space and a racing write among them. -/
theorem witness_EveryCommandCompletes_interleaved :
    let s := { running 0x21 Params.reset Scan.fresh with
      host := { HostAgent.reset with prog := [.beq .h0 0 7] }
      schedule := [.host, .memRead 0xFFFFFFFF 2, .access 0x20 .byte none, .memWrite 0x1000 [1], .cacheClean 0 1,
        .cacheInvalidate 0 1, .engine .okay] }
    s.engine = .run (jobOf 0x21 Params.reset Scan.fresh) ∧ decode 0x21 = .ok (.capacity 2) ∧
      requestCount (.capacity 2) Params.reset + 1 ≤ s.schedule.countP Event.isEngine ∧
      (∀ e ∈ s.schedule, e ≠ .reset true ∧ e ≠ .reset false) := by decide

theorem witness_OnlyTheEngineAndResetMoveTheCommand :
    (running 0x23 Params.reset Scan.fresh).engine = .run (jobOf 0x23 Params.reset Scan.fresh) ∧
      (∀ answer, Event.cacheClean 0x1000 1 ≠ .engine answer) ∧ ∀ landed, Event.cacheClean 0x1000 1 ≠ .reset landed :=
  ⟨rfl, by simp, by simp⟩

theorem witness_DroppedWriteDoesNotReachTheEngine :
    (running 0x21 Params.reset Scan.fresh).busy = true ∧ isParamReg .payLen ∧
      ∃ t, engineStep (running 0x21 Params.reset Scan.fresh) = .next t :=
  ⟨rfl, by simp [isParamReg], _, (running_steps _ _ (by decide : decode 0x21 = .ok (.capacity 2))).trans rfl⟩

/-- The first and the last byte of the image of a running ENCODE are its own, and so is its payload; the byte after
the image is not. -/
theorem witness_RacingWriteOpensTheCommand :
    inRanges 0x1000 (jobOf 0x83 (shape 3 2 0x2000 4 0 0) Scan.fresh).touched = true ∧
      inRanges 0x1011 (jobOf 0x83 (shape 3 2 0x2000 4 0 0) Scan.fresh).touched = true ∧
      inRanges 0x2003 (jobOf 0x83 (shape 3 2 0x2000 4 0 0) Scan.fresh).touched = true ∧
      inRanges 0x1012 (jobOf 0x83 (shape 3 2 0x2000 4 0 0) Scan.fresh).touched = false := by decide

/-- An opened command completes, makes a request, and is in each place whose free value the statement names. -/
theorem witness_RacingWriteOpensTheCommand_opened :
    let p := shape 1 14 0x2000 5 0x3000 10
    (∃ t, exec (.check 2 .raw) (running 0x22 p (opened Scan.fresh)) = .next t ∧ t.engine = .idle) ∧
    (∃ t, exec (.decode 2 .raw) (running 0x24 p (opened (place .write 7 0 0 0))) = .next t ∧
      requestAddr (.decode 2 .raw) (jobOf 0x24 p (opened (place .write 7 0 0 0))) = some 0x3000) ∧
    (running 0x23 p (opened (place .payload 32 0 0 0))).verdict = .okay ∧
    (running 0x23 p (opened (place .payload 32 0 0 0))).mem.wf = true ∧ (opened Scan.fresh).unfixed = true ∧
    (opened (place .payload 32 0 0 0)).next = .payload ∧ p.payBase.toNat + 32 / 8 < 2 ^ 32 ∧
    (opened (place .read 79 0 0 0)).next = .read ∧ p.imgBase.toNat + 79 % p.channelCount < 2 ^ 32 :=
  ⟨⟨_, rfl, rfl⟩, ⟨_, rfl, rfl⟩, by decide⟩

theorem witness_HostWriteOutsideTheBuffersIsOrdinary :
    State.reset.mem.wf = true ∧ State.reset.owned 0x1000 = false ∧
      (running 0x83 (shape 3 2 0x2000 4 0 0) Scan.fresh).owned 0x1012 = false := by decide

/-- Without HOST_COHERENT: a byte of the payload that the host writes; and a line with an unwritten byte and a byte that
the engine has written since, beside a line with none. -/
theorem witness_CacheMaintenanceAroundACommand :
    let s := cached { State.reset with params := shape 3 2 0x2000 4 0 0 } [] []
    let job := jobOf 0x83 s.params Scan.fresh
    let t := cached State.reset [0x100F, 0x1010] [0x1000, 0x1020]
    s.engine = .idle ∧ s.platform.hostCoherent = false ∧ inRanges 0x2000 job.touched = true ∧ s.dirty = [] ∧
      s.onDevice job = false ∧ t.engine = .idle ∧ t.mem.wf = true ∧
      rangesMeet (cacheLine t.platform 0x100F) (0x1000, 1) = true ∧
      cacheLine t.platform 0x100F = cacheLine t.platform 0x1000 ∧
      rangesMeet (cacheLine t.platform 0x1010) (0x1000, 1) = false ∧
      cacheLine t.platform 0x1020 ≠ cacheLine t.platform 0x1010 := by decide

/-- While ENCODE runs: an unwritten byte whose line meets the image, though it is past its end, and one whose line meets
no buffer. -/
theorem witness_CacheMaintenanceAroundACommand_running :
    let job := jobOf 0x83 (shape 3 2 0x2000 4 0 0) Scan.fresh
    let u := cached (running 0x83 (shape 3 2 0x2000 4 0 0) Scan.fresh) [0x101F, 0x0FFF] []
    u.engine = .run job ∧ u.dirty = [0x101F, 0x0FFF] ∧ job.touched = [(0x1000, 18), (0x2000, 4)] ∧
      rangesMeet (cacheLine u.platform 0x101F) (0x1018, 1) = true ∧
      rangesMeet (cacheLine u.platform 0x101F) (0x1000, 18) = true ∧
      (∀ r ∈ job.touched, rangesMeet (cacheLine u.platform 0x0FFF) r = false) := by decide

/-- A DECODE of a 1 × 1 image at depth 3 at its completion, without HOST_COHERENT. -/
def decoded : State :=
  cached (running 0x34 (shape 1 1 0 0 0x2000 1) (place (.finish .sentinelNotFound) 9 0 0 0)) [] []

/-- The end of a command: it meets the invariant, the step is the completion, and the first and the last byte of the
image and the output byte are the command's, the bytes past them are not. An open ENCODE has its payload too. -/
theorem witness_CacheMaintenanceAroundACommand_ended :
    Inv decoded ∧ (∃ job, decoded.engine = .run job ∧ decode job.word = .ok (.decode 3 .raw)) ∧
    (∃ t, engineStep decoded = .next t ∧ t.engine = .idle ∧
      (0x1000 ∈ t.unsynced ∧ 0x1002 ∈ t.unsynced ∧ 0x2000 ∈ t.unsynced ∧ 0x1003 ∉ t.unsynced ∧ 0x2001 ∉ t.unsynced)) ∧
    ((jobOf 0x83 (shape 3 2 0x2000 4 0 0) (opened Scan.fresh)).ends = [(0x1000, 18), (0x2000, 4)] ∧
      (jobOf 0x83 (shape 3 2 0x2000 4 0 0) Scan.fresh).ends = [(0x1000, 18)] ∧
      (∀ addr count, Event.cacheClean 0x1000 1 ≠ .cacheInvalidate addr count)) := by
  have hd : decode 0x34 = .ok (.decode 3 .raw) := by decide
  refine ⟨⟨rfl, rfl, .nil, .nil, .nil, fun _ => ⟨rfl, rfl, rfl⟩, fun job h => ?_⟩, ⟨_, rfl, hd⟩,
    ⟨_, (engineStep_command rfl hd).trans rfl, rfl, by decide⟩, by decide, by decide, by simp⟩
  cases h
  refine ⟨rfl, rfl, rfl, rfl, fun i hi => ?_⟩
  cases hd.symm.trans hi
  exact ⟨by decide, by decide, .inr ⟨rfl, by decide⟩⟩

/-- A running ENCODE with its write not answered, at a byte of the image; it leaves every other byte alone. -/
theorem witness_ResetKeepsMemory :
    let p := shape 1 14 0x2000 5 0 0
    (running 0x23 p (place .write 1 0x41 0 0)).mem.wf = true ∧
      (running 0x23 p (place .write 1 0x41 0 0)).engine = .run (jobOf 0x23 p (place .write 1 0x41 0 0)) ∧
      (jobOf 0x23 p (place .write 1 0x41 0 0)).scan.unfixed = false ∧
      (jobOf 0x23 p (place .write 1 0x41 0 0)).pendingWrite = some (0x1001, 0x01) ∧ 0x1001 < 2 ^ 32 ∧
      (jobOf 0x23 p (place .write 1 0x41 0 0)).pendingWrite ≠ some (0x1000, 0x01) ∧ State.reset.engine = .idle := by
  decide

/-- A label that stands twice, one that is missing, and accesses that end at the top of the address space and one byte
past it. -/
theorem witness_HostOperationsComplete :
    labelIndex [.halt, .label 7, .label 7] 7 = some 1 ∧ labelIndex [.halt] 7 = none ∧
      (0xFFFFFFFE : Word).toNat + [(1 : Byte), 2].length ≤ 2 ^ 32 ∧
      2 ^ 32 < (0xFFFFFFFF : Word).toNat + [(1 : Byte), 2].length ∧ (0xFFFFFFFF : Word).toNat + 1 ≤ 2 ^ 32 ∧
      2 ^ 32 < (0xFFFFFFFF : Word).toNat + 2 := by decide

theorem witness_HostMemoryAccessesComplete :
    State.reset.engine = .idle ∧ State.reset.platform.hostCoherent = true ∧ State.reset.platform.devices = [] ∧
      State.reset.unsynced = [] ∧ State.reset.stale = [] ∧ (0xFFFFFFFE : Word).toNat + [(1 : Byte), 2].length ≤ 2 ^ 32 ∧
      State.reset.mem.wf = true := by decide

/-- Addresses of each kind of open read, and one of none. -/
theorem witness_HostMemoryAccessesComplete_open :
    let r := running 0x83 (shape 3 2 0x2000 4 0 0) Scan.fresh
    let s := cached { r with platform := { r.platform with devices := [(0x3000, 1)] }, unsynced := [0x1016] }
      [0x1013] [0x1014]
    s.owned 0x1000 = true ∧ s.owned 0x1012 = false ∧ 0x1013 ∈ s.dirty ∧ 0x1014 ∈ s.stale ∧ 0x1016 ∈ s.unsynced ∧
      inRanges 0x3000 s.platform.devices = true ∧
      (s.owned 0x1015 = false ∧ 0x1015 ∉ s.dirty ∧ 0x1015 ∉ s.stale ∧ 0x1015 ∉ s.unsynced ∧
        inRanges 0x1015 s.platform.devices = false) := by decide

/-- Memory after reset is in canonical form. -/
theorem test_reset_memory_canonical : State.reset.mem.wf = true := by decide

end Sys2Proof.Tests
end

section
/-! The derived quantities of 00_scope.md R13 inside their widths. -/

namespace Sys2Proof.Machine

/-- `N < 2^34` (00_scope.md R13), from the largest image of 40_planner.md R115. -/
theorem channelCount_lt (p : Params) : p.channelCount < 2 ^ 34 :=
  (channelCount_le p).trans_lt (by decide)

/-- `L < 2^33` (00_scope.md R13): PAY_LEN has 32 bits, the sentinel adds 5. -/
theorem effLen_lt (p : Params) : p.effLen < 2 ^ 33 := by
  have := payLen_lt p
  unfold Params.effLen Config.sentLen
  omega

/-- Settles O23: the formulas are the model's definitions of N, CAP, L and T, and each bound comes from the widths of
ROWS, COLS and PAY_LEN and from `n ≤ 8`. -/
theorem derivedQuantitiesNeverWrap : Obligations.DerivedQuantitiesNeverWrap := by
  intro p n hn
  exact ⟨rfl, channelCount_lt p, rfl, capacity_lt p hn, capField_toNat p hn, rfl, effLen_lt p, rfl, planeBits_le p hn⟩

end Sys2Proof.Machine
end

section
/-! The invariant of the machine along every step (10_state.md section 3). -/

namespace Sys2Proof.Machine

theorem inv_schedule {s : State} (hi : Inv s) (l : List Event) : Inv { s with schedule := l } :=
  inv_of_fields hi rfl rfl rfl rfl rfl rfl rfl id rfl rfl

theorem inv_memAnswer {s : State} (hi : Inv s) (answer : BusAnswer) : Inv { s with memAnswer := answer } :=
  inv_of_fields hi rfl rfl rfl rfl rfl rfl rfl id rfl rfl

/-- A scheduled step of a busy engine, with its memory answer. -/
theorem eventStep_engine_busy {s : State} (answer : BusAnswer) (hb : s.busy = true) :
    eventStep (.engine answer) s = engineStep { s with memAnswer := answer } := if_pos hb

/-- A scheduled step of an idle engine does nothing (10_state.md R48). -/
theorem eventStep_engine_idle {s : State} (answer : BusAnswer) (hb : s.busy = false) :
    eventStep (.engine answer) s = .next s := if_neg (by simp [hb])

/-- Each event keeps the invariant. -/
theorem inv_eventStep {e : Event} {s t : State} (hi : Inv s) (h : eventStep e s = .next t) : Inv t := by
  cases e with
  | engine answer =>
    cases hb : s.busy with
    | true => rw [eventStep_engine_busy answer hb] at h; exact inv_engineStep (inv_memAnswer hi answer) h
    | false => rw [eventStep_engine_idle answer hb] at h; cases h; exact hi
  | host => cases h; exact inv_hostStep hi
  | access addr width data => cases h; exact inv_access hi addr width data
  | memRead addr count => cases h; exact inv_readAccess hi _ addr count
  | memWrite addr bytes => cases h; exact inv_busWrite hi addr bytes
  | cacheClean addr count => cases h; exact inv_cacheClean hi _
  | cacheInvalidate addr count => cases h; exact inv_cacheInvalidate hi _
  | reset landed => cases h; exact inv_reset hi landed

theorem inv_defaultStep {s t : State} (hi : Inv s) (h : defaultStep s = .next t) : Inv t := by
  unfold defaultStep at h
  split at h
  · exact inv_engineStep hi h
  · cases h; exact inv_hostStep hi

/-- Settles O48: the step is the first event of the schedule or the default, and each keeps the invariant. -/
theorem stepKeepsTheInvariant : Obligations.StepKeepsTheInvariant := by
  intro s t hi h
  unfold step at h
  split at h
  · exact inv_defaultStep hi h
  · exact inv_eventStep (inv_schedule hi _) h

/-- Settles O47: after reset memory and the host's cache sets are empty and no command runs. -/
theorem resetMeetsTheInvariant : Obligations.ResetMeetsTheInvariant :=
  ⟨rfl, rfl, .nil, .nil, .nil, fun _ => ⟨rfl, rfl, rfl⟩, fun _ hj => nomatch hj⟩

end Sys2Proof.Machine
end

section
/-! The register port: what each register reads, which writes act, and the irq line (10_state.md sections 2 and 3). -/

namespace Sys2Proof.Machine

/-! ## Reads -/

/-- The outcome code stands in STATUS[7:4] (10_state.md R29). -/
theorem statusWord_errcode (s : State) : s.statusWord.extractLsb' 4 4 = Code.bits s.errcode := by
  apply BitVec.eq_of_getLsbD_eq
  intro i hi
  rw [BitVec.getLsbD_extractLsb', statusBit s _ (by omega), if_neg (by omega), if_neg (by omega), if_neg (by omega),
    if_pos (by omega)]
  simp [hi]

/-- STATUS reads 0 above OVR (10_state.md R26). -/
theorem statusWord_upper (s : State) : s.statusWord.extractLsb' 9 23 = 0 := by
  apply BitVec.eq_of_getLsbD_eq
  intro i hi
  rw [BitVec.getLsbD_extractLsb', statusBit s _ (by omega), if_neg (by omega), if_neg (by omega), if_neg (by omega),
    if_neg (by omega), if_neg (by omega)]
  simp

/-- The outcome codes are 0 to 9 (60_exceptions.md R200). -/
theorem code_bits_le (c : Code) : (Code.bits c).toNat ≤ 9 := by cases c <;> decide

/-- ERR is 0 exactly where ERRCODE reads 0 (10_state.md R29). -/
theorem err_eq_bits (s : State) : s.err = decide (Code.bits s.errcode ≠ 0) := by
  unfold State.err
  cases s.errcode <;> rfl

/-- Settles O6: bit by bit from the fields of `statusWord`. -/
theorem statusReadsItsFields : Obligations.StatusReadsItsFields := by
  intro s
  have hbit := statusBit s
  have hcode := statusWord_errcode s
  refine ⟨hbit 0 (by decide), hbit 1 (by decide), ?_, hbit 3 (by decide), hcode, ?_, hbit 8 (by decide),
    statusWord_upper s⟩
  · show s.statusWord.getLsbD 2 = decide (s.statusWord.extractLsb' 4 4 ≠ 0)
    rw [hcode, ← err_eq_bits]
    exact hbit 2 (by decide)
  · show (s.statusWord.extractLsb' 4 4).toNat ≤ 9
    rw [hcode]
    exact code_bits_le _

theorem flagBit_zero (b : Bool) : flagBit b 0 = if b then 1 else 0 := by cases b <;> rfl

/-- A flag in bit 0 leaves the bits above it 0. -/
theorem flagBit_zero_upper (b : Bool) : (flagBit b 0).extractLsb' 1 31 = 0 := by cases b <;> decide

/-- CAP_HI and CAP_LO together are CAP (10_state.md R39). -/
theorem cap_halves (c : BitVec 34) :
    ((c >>> 32).setWidth 32 : Word).toNat * 2 ^ 32 + (c.setWidth 32 : Word).toNat = c.toNat := by
  have := c.isLt
  simp only [BitVec.toNat_setWidth, BitVec.toNat_ushiftRight, Nat.shiftRight_eq_div_pow]
  omega

/-- A part of a word that lies above the bits of the narrower word it was widened from is 0. -/
theorem extractLsb'_setWidth_above {v len : Nat} (x : BitVec v) :
    (x.setWidth 32 : Word).extractLsb' v len = 0 := by
  apply BitVec.eq_of_getLsbD_eq
  intro i hi
  simp

/-- CAP has 34 bits, so CAP_HI[31:2] reads 0 (10_state.md R39). -/
theorem capHi_upper (c : BitVec 34) : ((c >>> 32).setWidth 32 : Word).extractLsb' 2 30 = 0 := by
  apply BitVec.eq_of_getLsbD_eq
  intro i hi
  simp [BitVec.getLsbD_of_ge c (32 + (2 + i)) (by omega)]

/-- Settles O60: each register's read is its field, widened with zeros. -/
theorem registersReadTheirValues : Obligations.RegistersReadTheirValues := by
  intro s
  exact ⟨rfl, flagBit_zero _, rfl, rfl, BitVec.toNat_setWidth_of_le (by decide),
    BitVec.toNat_setWidth_of_le (by decide), rfl, rfl, rfl, rfl, cap_halves _, capHi_upper _, rfl⟩

/-! ## The window -/

/-- The registers stand at offsets below 0x38 (10_state.md R23). -/
theorem regOffset_lt (r : Reg) : (regOffset r).toNat < 0x38 := by cases r <;> decide

/-- Offsets 0x38 to 0xFF hold no register (10_state.md R43). -/
theorem regAt_reserved {off : BitVec 8} (h : 0x38 ≤ off.toNat) : regAt off = none := by
  refine List.find?_eq_none.2 fun r _ he => ?_
  have := regOffset_lt r
  rw [of_decide_eq_true he] at this
  omega

theorem admitted_word {off : BitVec 8} (h : off.toNat % 4 = 0) : admitted off .word = true := by
  simp [admitted, h]

theorem portRead_reserved (s : State) {off : BitVec 8} (h : 0x38 ≤ off.toNat) (ha : off.toNat % 4 = 0) :
    s.portRead off .word = { s with reply := .data 0 } := by
  unfold State.portRead
  rw [if_pos (admitted_word ha), regAt_reserved h]

theorem portWrite_reserved (s : State) {off : BitVec 8} (h : 0x38 ≤ off.toNat) (ha : off.toNat % 4 = 0) (w : Word) :
    s.portWrite off .word w = { s with reply := .okay } := by
  unfold State.portWrite
  rw [if_pos (admitted_word ha), regAt_reserved h]

/-- ROWS and COLS hold the low half of the word written (10_state.md R33, R34). -/
theorem setWidth_mask (w : Word) : (w &&& 0xFFFF).setWidth 16 = w.setWidth 16 := by
  rw [BitVec.setWidth_and]
  exact BitVec.and_allOnes

/-- Settles O10: a reserved offset finds no register, and the reserved bits are above the fields that a read widens and
a write takes. -/
theorem reservedOffsetsAndBitsReadZero : Obligations.ReservedOffsetsAndBitsReadZero := by
  refine ⟨fun s off w h ha => ⟨portRead_reserved s h ha, portWrite_reserved s h ha w⟩, fun s => ?_, fun s w => ?_⟩
  · exact ⟨flagBit_zero_upper _, statusBit s 3 (by decide), statusWord_upper s, extractLsb'_setWidth_above _,
      extractLsb'_setWidth_above _⟩
  · refine ⟨?_, ?_, ?_, ?_⟩
    · simp [State.writeReg, State.setCtrl]
    · simp [State.writeReg, State.clearFlags]
    · simp only [State.writeReg, setWidth_mask]
    · simp only [State.writeReg, setWidth_mask]

/-- An offset from REG_BASE is the offset in the window, also where the sum wraps (log entry 16). -/
theorem windowOffset_inside (p : Config.Platform) (off : BitVec 8) :
    windowOffset p (p.regBase + off.setWidth 32) = some off := by
  have hsub : p.regBase + off.setWidth 32 - p.regBase = off.setWidth 32 := by
    rw [BitVec.add_comm, BitVec.add_sub_cancel]
  have hlt : (off.setWidth 32).toNat < Config.regWindow := by
    rw [BitVec.toNat_setWidth_of_le (by decide)]
    exact off.isLt
  unfold windowOffset
  rw [hsub, if_pos hlt, BitVec.setWidth_setWidth_of_le _ (by decide), BitVec.setWidth_eq]

theorem windowOffset_outside {p : Config.Platform} {addr : Word} (h : 0x100 ≤ (addr - p.regBase).toNat) :
    windowOffset p addr = none := by
  unfold windowOffset
  rw [if_neg (by unfold Config.regWindow; omega)]

section access
variable {s : State} {addr : Word} {off : BitVec 8}

theorem access_read (h : windowOffset s.platform addr = some off) (width : Width) :
    s.access addr width none = s.portRead off width := by
  simp only [State.access, h]

theorem access_write (h : windowOffset s.platform addr = some off) (width : Width) (w : Word) :
    s.access addr width (some w) = s.portWrite off width w := by
  simp only [State.access, h]

theorem access_outside (h : windowOffset s.platform addr = none) (width : Width) (data : Option Word) :
    s.access addr width data = s := by
  simp only [State.access, h]

end access

/-- Settles O13: the window's offset is the bus address less REG_BASE. -/
theorem registerWindowStandsAtRegBase : Obligations.RegisterWindowStandsAtRegBase := by
  intro s width data
  refine ⟨fun off => ?_, fun addr h => ?_⟩
  · have hw := windowOffset_inside s.platform off
    cases data with
    | none => exact access_read hw width
    | some w => exact access_write hw width w
  · exact access_outside (windowOffset_outside h) width data

/-! ## Writes -/

theorem writeParam_busy {s : State} (hb : s.busy = true) (f : Params → Params) : s.writeParam f = s.dropWrite :=
  if_pos hb

theorem writeParam_idle {s : State} (hb : s.busy = false) (f : Params → Params) :
    s.writeParam f = { s with params := f s.params } := if_neg (by simp [hb])

/-- The parameters with one parameter register written (10_state.md R32 to R38). -/
def Params.put (r : Reg) (w : Word) (p : Params) : Params :=
  match r with
  | .imgBase => { p with imgBase := w }
  | .rows => { p with rows := w.setWidth 16 }
  | .cols => { p with cols := w.setWidth 16 }
  | .payBase => { p with payBase := w }
  | .payLen => { p with payLen := w }
  | .outBase => { p with outBase := w }
  | .outSize => { p with outSize := w }
  | .id | .ctrl | .status | .cmd | .capLo | .capHi | .msgLen => p

theorem writeReg_param {r : Reg} (hr : isParamReg r) (w : Word) (s : State) :
    s.writeReg r w = s.writeParam (Params.put r w) := by
  rcases hr with rfl | rfl | rfl | rfl | rfl | rfl | rfl <;> rfl

theorem writeReg_cmd_busy {s : State} (hb : s.busy = true) (w : Word) : s.writeReg .cmd w = s.dropWrite := if_pos hb

theorem writeReg_cmd_idle {s : State} (hb : s.busy = false) (w : Word) : s.writeReg .cmd w = s.accept w :=
  if_neg (by simp [hb])

/-- While the engine runs a write of CMD or of a parameter register is dropped (10_state.md R46). -/
theorem writeReg_busy {s : State} (hb : s.busy = true) {r : Reg} (hr : r = .cmd ∨ isParamReg r) (w : Word) :
    s.writeReg r w = s.dropWrite := by
  rcases hr with rfl | hr
  · exact writeReg_cmd_busy hb w
  · rw [writeReg_param hr, writeParam_busy hb]

/-- The registers that are no parameter read the same whatever the parameters are. -/
theorem readReg_other {r : Reg} (hr : ¬ isParamReg r) (s : State) (p : Params) :
    ({ s with params := p } : State).readReg r = s.readReg r := by
  cases r with
  | id | ctrl | status | cmd | capLo | capHi | msgLen => rfl
  | _ => simp [isParamReg] at hr

/-- The low half of a word, widened again, is the word under the mask. -/
theorem setWidth_setWidth_mask (w : Word) : (w.setWidth 16).setWidth 32 = w &&& 0xFFFF := by
  apply BitVec.eq_of_toNat_eq
  have hmask : w.toNat &&& 65535 = w.toNat % 65536 := Nat.and_two_pow_sub_one_eq_mod w.toNat 16
  rw [BitVec.toNat_and, BitVec.toNat_setWidth_of_le (by decide), BitVec.toNat_setWidth]
  exact hmask.symm

/-- Of the parameter registers the one written reads the word, and every other one reads as before. -/
theorem readReg_put {r r' : Reg} (hr : isParamReg r) (hr' : isParamReg r') (w : Word) (s : State) :
    ({ s with params := s.params.put r w } : State).readReg r' =
      if r' = r then (if r = .rows ∨ r = .cols then w &&& 0xFFFF else w) else s.readReg r' := by
  rcases hr with rfl | rfl | rfl | rfl | rfl | rfl | rfl <;>
    rcases hr' with rfl | rfl | rfl | rfl | rfl | rfl | rfl <;>
    simp [Params.put, State.readReg, setWidth_setWidth_mask]

/-- Settles O7: the write changes the parameters only, and of them the one register written. -/
theorem parameterRegistersReadBack : Obligations.ParameterRegistersReadBack := by
  intro s r r' w hb hr
  rw [writeReg_param hr, writeParam_idle hb]
  by_cases hr' : isParamReg r'
  · exact readReg_put hr hr' w s
  · rw [readReg_other hr', if_neg fun h : r' = r => hr' (h ▸ hr)]

/-- Settles O8: a read-only register's write is the state itself, and `clearFlags` writes DONE and OVR alone. -/
theorem readOnlyWritesAreIgnored : Obligations.ReadOnlyWritesAreIgnored := by
  intro s w
  refine ⟨fun r hr => ?_, ?_⟩
  · rw [portWrite_reg]
    rcases hr with rfl | rfl | rfl | rfl <;> rfl
  · rw [portWrite_reg]
    exact ⟨rfl, rfl, rfl, rfl, fun h : (s.ovr && !w.getLsbD 8) = true => (Bool.and_eq_true_iff.1 h).1⟩

theorem and_not_eq_ite (a b : Bool) : (a && !b) = if b then false else a := by cases a <;> cases b <;> rfl

/-- Settles O9: the write at STATUS's offset is `clearFlags`. -/
theorem statusWriteClearsDoneAndOvr : Obligations.StatusWriteClearsDoneAndOvr := by
  intro s w
  have h := portWrite_reg s .status w
  rw [State.writeReg, State.clearFlags, and_not_eq_ite, and_not_eq_ite] at h
  exact h

/-- Settles O12: `dropWrite` for the registers a running command guards, `setCtrl` and `clearFlags` in every state. -/
theorem writesWhileBusyAreDropped : Obligations.WritesWhileBusyAreDropped := by
  intro s w
  refine ⟨fun hb r hr => ?_, portWrite_reg s .ctrl w, portWrite_reg s .status w⟩
  rw [portWrite_reg, writeReg_busy hb hr]
  rfl

end Sys2Proof.Machine
end

section
/-! Acceptance, reset and irq (10_state.md sections 3 and 6; 20_memory.md R68, R74). -/

namespace Sys2Proof.Machine

theorem run_of_busy {s : State} (hb : s.busy = true) : ∃ job, s.engine = .run job := by
  unfold State.busy at hb
  cases hj : s.engine with
  | idle => simp [hj] at hb
  | run job => exact ⟨job, rfl⟩

theorem busy_of_run {s : State} {job : Job} (hj : s.engine = .run job) : s.busy = true := by
  simp [State.busy, hj]

theorem busy_of_idle {s : State} (hj : s.engine = .idle) : s.busy = false := by
  simp [State.busy, hj]

/-! ## Acceptance -/

/-- Everything an acceptance can be: the latch, and with it a race or a command that starts open (log entry 6). -/
theorem accept_cases (w : Word) (s : State) :
    s.accept w = s.latch w ∨ s.accept w = (s.latch w).unfix { word := w, params := s.params, scan := Scan.fresh } ∨
      s.accept w = (s.latch w).loosen { word := w, params := s.params, scan := Scan.fresh } := by
  unfold State.accept
  simp only
  split
  · exact .inr (.inr rfl)
  · split
    · exact .inr (.inl rfl)
    · exact .inl rfl

/-- Settles O15: the latch writes the fields, and what log entry 6 adds to it leaves them. -/
theorem acceptanceLatchesTheCommand : Obligations.AcceptanceLatchesTheCommand := by
  refine ⟨fun s w hb => ?_, fun s job hi hj => ⟨(hi.run job hj).params, (hi.run job hj).word⟩⟩
  simp only [writeReg_cmd_idle hb]
  rcases accept_cases w s with h | h | h <;> rw [h] <;> simp [State.err, State.busy]

/-- Settles O16: no unwritten line means no race, so the acceptance is the latch, marked over a device. -/
theorem acceptanceOfAPreparedCommand : Obligations.AcceptanceOfAPreparedCommand := by
  intro s w hb job hu
  rw [writeReg_cmd_idle hb]
  unfold State.accept
  simp only
  rw [if_neg (by simp [job, hu])]
  cases s.onDevice job with
  | true => rfl
  | false => rfl

/-! ## Reset -/

/-- A reset with no write in flight leaves memory (70_reset_and_hazards.md R241). -/
theorem resetEvent_mem (s : State) : (s.resetEvent false).mem = s.mem := by
  simp [State.resetEvent]

/-- With the registers at their reset values every register but ID reads 0 (10_state.md R52). -/
theorem readReg_resetRegs (s : State) {r : Reg} (hr : r ≠ .id) : s.resetRegs.readReg r = 0 := by
  cases r with
  | id => exact absurd rfl hr
  | status => simp [State.readReg, State.statusWord, State.busy, State.err, flagBit, Code.bits]
  | capHi => simp [State.readReg]
  | _ => rfl

/-- Settles O56: every reset event ends in `resetRegs`, and State.reset has the registers that it sets. -/
theorem resetSetsEveryRegister : Obligations.ResetSetsEveryRegister :=
  ⟨fun _ _ => ⟨rfl, fun _ hr => readReg_resetRegs _ hr, rfl, rfl⟩, resetEvent_mem, rfl,
    fun _ hr => readReg_resetRegs State.reset hr, rfl, rfl⟩

/-! ## The irq line -/

theorem irq_of_not_done {s : State} (h : s.done = false) : s.irq = false := by simp [State.irq, h]

/-- The completion sets DONE, so that irq is then IE (10_state.md R47). -/
theorem irq_of_completion {s t : State} (hb : s.busy = true) (h : engineStep s = .next t) (ht : t.busy = false) :
    t.irq = s.ie := by
  obtain ⟨job, hj⟩ := run_of_busy hb
  have hm := engineStep_move hj h
  rcases hm.phase with ⟨-, hd⟩ | ⟨⟨sc, hsc⟩, -⟩
  · simp [State.irq, hd, hm.frame.ie]
  · simp [busy_of_run hsc] at ht

/-- Settles O14: irq is DONE AND IE, so each clause says what the event does to these two. -/
theorem irqIsDoneAndIe : Obligations.IrqIsDoneAndIe := by
  refine ⟨fun s => ?_, fun s w => rfl, fun s w => Bool.and_right_comm _ _ _, fun s w hb => ?_, fun s landed => rfl,
    fun s t => irq_of_completion⟩
  · have hdone : (s.readReg .status).getLsbD 1 = s.done := statusBit s 1 (by decide)
    have hie : (s.readReg .ctrl).getLsbD 0 = s.ie := (flagBit_getLsbD s.ie 0 0 (by decide)).trans (by simp)
    rw [hdone, hie]
    rfl
  · rw [writeReg_cmd_idle hb]
    rcases accept_cases w s with h | h | h <;> exact irq_of_not_done (by simp [h])

/-! ## Which command a step runs -/

/-- Settles O45: a running engine is busy, so the default and the scheduled event are `engineStep`, which runs the
command decoded. -/
theorem stepRunsTheDecodedCommand : Obligations.StepRunsTheDecodedCommand := by
  intro s job i hj hd
  refine ⟨fun hs => ?_, fun answer rest hs => ?_⟩
  · have hstep : step s = defaultStep s := by simp only [step, hs]
    rw [hstep, defaultStep, if_pos (busy_of_run hj), engineStep_command hj hd]
  · have hstep : step s = eventStep (.engine answer) { s with schedule := rest } := by simp only [step, hs]
    rw [hstep, eventStep_engine_busy answer (busy_of_run (by exact hj))]
    exact engineStep_command hj hd

end Sys2Proof.Machine
end

section
/-! What a step of the engine writes and what it leaves alone (10_state.md R41, R42, R46, R51). -/

namespace Sys2Proof.Machine

/-! ## Completion or running -/

/-- A completion leaves memory alone (60_exceptions.md R205). -/
theorem EngineMove.mem_of_idle {job : Job} {s t : State} (h : EngineMove job s t) (ht : t.engine = .idle) :
    t.mem = s.mem := by
  cases h with
  | done sc ends c cap len hu h => rw [h, State.complete_mem]
  | read sc a upd hu h => obtain ⟨-, ⟨-, rfl⟩ | ⟨l, -, rfl⟩⟩ := readRequest_cases h <;> simp at ht
  | write sc sc' a b hu h => obtain ⟨-, ⟨-, rfl⟩ | ⟨l, -, rfl⟩⟩ := writeRequest_cases h <;> simp at ht

/-- A step that does not complete the command leaves the copies to be invalidated alone (20_memory.md R80). -/
theorem EngineMove.unsynced_of_run {job job' : Job} {s t : State} (h : EngineMove job s t)
    (ht : t.engine = .run job') : t.unsynced = s.unsynced := by
  cases h with
  | done sc ends c cap len hu h => rw [h, State.complete_engine] at ht; cases ht
  | read sc a upd hu h => obtain ⟨-, ⟨-, rfl⟩ | ⟨l, -, rfl⟩⟩ := readRequest_cases h <;> simp
  | write sc sc' a b hu h =>
    obtain ⟨-, ⟨-, rfl⟩ | ⟨l, -, rfl⟩⟩ := writeRequest_cases h
    · simp
    · cases l <;> simp

/-- Settles O17: the step is a completion or a memory request, by `EngineMove.phase`. -/
theorem completionAloneWritesTheResults : Obligations.CompletionAloneWritesTheResults := by
  intro s t hb h
  obtain ⟨job, hj⟩ := run_of_busy hb
  have hm := engineStep_move hj h
  rcases hm.phase with ⟨hid, hd⟩ | ⟨⟨sc, hsc⟩, hd, he, hc, hl⟩
  · exact .inr ⟨busy_of_idle hid, hd, hm.mem_of_idle hid, hm.frame.ovr⟩
  · exact .inl ⟨busy_of_run hsc, hc, hl, hd, he, hm.frame.ovr, hm.unsynced_of_run hsc⟩

/-! ## The places of a scanning command -/

/-- A step of ENCODE is the completion of a failed check or a step of the scan. -/
theorem exec_encode_cases (n : Nat) (k : Kind) (job : Job) :
    (∃ c, ∀ s : State, s.engine = .run job →
      exec (.encode n k) s = .next (s.complete job [] c (capRecord job.params n c) none)) ∨
    ∃ sc, sc.unfixed = job.scan.unfixed ∧ ∀ s : State, s.engine = .run job →
      exec (.encode n k) s = encodeStep n { job with scan := sc } s := by
  have hscan : job.scan.next ≠ .start → ∀ s : State, s.engine = .run job →
      exec (.encode n k) s = encodeStep n job s := by
    intro hn s hj
    cases hx : job.scan.next <;> simp only [exec, execEncode, whileRunning, hj, hx]
    exact absurd hx hn
  by_cases hn : job.scan.next = .start
  · cases hc : encodeChecks n k job.params with
    | some c => exact .inl ⟨c, fun s hj => exec_encode_failing hj hn hc⟩
    | none => exact .inr ⟨_, encodeVisit_unfixed _ _ _, fun s hj => exec_encode_start hj hn hc⟩
  · exact .inr ⟨job.scan, rfl, hscan hn⟩

/-- A step of DECODE is the completion of a failed check or a step of the scan. -/
theorem exec_decode_cases (n : Nat) (k : Kind) (job : Job) :
    (∃ c, ∀ s : State, s.engine = .run job → exec (.decode n k) s = decodeComplete n job [] c s) ∨
    ∃ sc, sc.unfixed = job.scan.unfixed ∧ ∀ s : State, s.engine = .run job →
      exec (.decode n k) s = decodeStep n { job with scan := sc } s := by
  have hscan : job.scan.next ≠ .start → ∀ s : State, s.engine = .run job →
      exec (.decode n k) s = decodeStep n job s := by
    intro hn s hj
    cases hx : job.scan.next <;> simp only [exec, execDecode, whileRunning, hj, hx]
    exact absurd hx hn
  by_cases hn : job.scan.next = .start
  · cases hc : decodeChecks n k job.params with
    | some c => exact .inl ⟨c, fun s hj => exec_decode_failing hj hn hc⟩
    | none => exact .inr ⟨_, decodeVisit_unfixed _ _ _ _, fun s hj => exec_decode_start hj hn hc⟩
  · exact .inr ⟨job.scan, rfl, hscan hn⟩

/-! ## MSG_LEN -/

section msgLen
variable {n : Nat} {job : Job} {s t : State}

theorem readRequest_msgLen {a : Nat} {upd : Byte → Scan} (h : readRequest job a upd s = .next t) :
    t.msgLen = s.msgLen := by
  obtain ⟨-, ⟨-, rfl⟩ | ⟨l, -, rfl⟩⟩ := readRequest_cases h <;> simp

theorem writeRequest_msgLen {a : Nat} {b : Byte} {sc : Scan} (h : writeRequest job a b sc s = .next t) :
    t.msgLen = s.msgLen := by
  obtain ⟨-, ⟨-, rfl⟩ | ⟨l, -, rfl⟩⟩ := writeRequest_cases h
  · simp
  · cases l <;> simp

/-- A completion that records no length leaves MSG_LEN (10_state.md R42). -/
theorem complete_no_len (hu : job.scan.unfixed = false) (ends : List (Nat × Nat)) (c : Code)
    (cap : Option (BitVec 34)) : (s.complete job ends c cap none).msgLen = s.msgLen := by
  simp [hu]

theorem encodeStep_msgLen (hu : job.scan.unfixed = false) (h : encodeStep n job s = .next t) :
    t.msgLen = s.msgLen := by
  unfold encodeStep at h
  split at h
  · cases h; exact complete_no_len hu _ _ _
  · exact readRequest_msgLen h
  · exact writeRequest_msgLen h
  · exact readRequest_msgLen h
  · exact readRequest_msgLen h

/-- DECODE records a length with the codes 0 and 4 only (42_unpacker.md R153). -/
theorem lenRecord_other (p : Params) (n : Nat) (sc : Scan) {c : Code} (h0 : c ≠ .ok) (h4 : c ≠ .sentinelNotFound) :
    lenRecord p n sc c = none := by
  cases c with
  | ok => exact absurd rfl h0
  | sentinelNotFound => exact absurd rfl h4
  | _ => rfl

/-- A completion of DECODE that changes MSG_LEN ends with code 0 or 4. -/
theorem decodeComplete_msgLen (hu : job.scan.unfixed = false) {ends : List (Nat × Nat)} {c : Code}
    (h : decodeComplete n job ends c s = .next t) (hne : t.msgLen ≠ s.msgLen) :
    t.engine = .idle ∧ (t.errcode = .ok ∨ t.errcode = .sentinelNotFound) := by
  cases h
  have hc : c = .ok ∨ c = .sentinelNotFound := by
    by_contra hno
    rw [not_or] at hno
    rw [lenRecord_other _ _ _ hno.1 hno.2] at hne
    exact hne (complete_no_len hu _ _ _)
  simpa [hu] using hc

theorem decodeStep_msgLen (hu : job.scan.unfixed = false) (h : decodeStep n job s = .next t)
    (hne : t.msgLen ≠ s.msgLen) : t.engine = .idle ∧ (t.errcode = .ok ∨ t.errcode = .sentinelNotFound) := by
  unfold decodeStep at h
  split at h
  · exact decodeComplete_msgLen hu h hne
  · exact absurd (writeRequest_msgLen h) hne
  · exact absurd (readRequest_msgLen h) hne
  · exact absurd (readRequest_msgLen h) hne
  · exact absurd (readRequest_msgLen h) hne

end msgLen

/-- Settles O19: CAPACITY, CHECK and ENCODE complete without a length, and DECODE as `lenRecord` says. -/
theorem onlyDecodeWritesMsgLen : Obligations.OnlyDecodeWritesMsgLen := by
  intro i s t job hj hu h hne
  cases i with
  | capacity n => rw [exec_capacity hj] at h; cases h; exact absurd (complete_no_len hu _ _ _) hne
  | check n k => rw [exec_check hj] at h; cases h; exact absurd (complete_no_len hu _ _ _) hne
  | encode n k =>
    rcases exec_encode_cases n k job with ⟨c, he⟩ | ⟨sc, hsc, he⟩ <;> rw [he s hj] at h
    · cases h; exact absurd (complete_no_len hu _ _ _) hne
    · exact absurd (encodeStep_msgLen (hsc.trans hu) h) hne
  | decode n k =>
    refine ⟨⟨n, k, rfl⟩, ?_⟩
    rcases exec_decode_cases n k job with ⟨c, he⟩ | ⟨sc, hsc, he⟩ <;> rw [he s hj] at h
    · exact decodeComplete_msgLen hu h hne
    · exact decodeStep_msgLen (hsc.trans hu) h hne

/-! ## Memory -/

section memory
variable {job : Job} {s t : State} {a x : Nat}

/-- A read of the engine changes no byte but the one it reads, and that one only of an opened command (log entry 6). -/
theorem engineLoad_read_other (hx : x ≠ a) : (s.engineLoad job a).mem.read x = s.mem.read x := by
  cases hu : job.scan.unfixed with
  | false => rw [engineLoad_fixed hu]
  | true => rw [engineLoad_unfixed hu]; exact Memory.read_write_other _ _ hx

theorem readRequest_read_other {upd : Byte → Scan} (h : readRequest job a upd s = .next t) (hx : x ≠ a) :
    t.mem.read x = s.mem.read x := by
  obtain ⟨-, ⟨-, rfl⟩ | ⟨l, -, rfl⟩⟩ := readRequest_cases h
  · exact engineLoad_read_other (s := s.answered) hx
  · rfl

theorem readRequest_mem_fixed {upd : Byte → Scan} (hu : job.scan.unfixed = false)
    (h : readRequest job a upd s = .next t) : t.mem = s.mem := by
  obtain ⟨-, ⟨-, rfl⟩ | ⟨l, -, rfl⟩⟩ := readRequest_cases h
  · exact State.afterRead_mem_fixed _ _ _ hu
  · rfl

theorem writeRequest_read_other {b : Byte} {sc : Scan} (h : writeRequest job a b sc s = .next t) (hx : x ≠ a) :
    t.mem.read x = s.mem.read x := by
  have hstore : (s.answered.engineStore job a b).mem.read x = s.mem.read x := Memory.read_write_other _ _ hx
  obtain ⟨-, ⟨-, rfl⟩ | ⟨l, -, rfl⟩⟩ := writeRequest_cases h
  · exact hstore
  · cases l with
    | true => exact hstore
    | false => rfl

end memory

section frame
variable {i : Instr} {s t : State} {job : Job}

/-- The byte that a step stores is the byte of its request. -/
theorem requestAddr_of_storeAddr {a : Nat} (h : storeAddr i job = some a) : requestAddr i job = some a := by
  cases i with
  | capacity n => cases h
  | check n k => cases h
  | encode n k =>
    by_cases hn : job.scan.next = .write
    · simpa [storeAddr, nextWrite, requestAddr, hn] using h
    · simp [storeAddr, nextWrite, hn] at h
  | decode n k =>
    by_cases hn : job.scan.next = .write
    · simpa [storeAddr, nextWrite, requestAddr, hn] using h
    · simp [storeAddr, nextWrite, hn] at h

/-- A step without a request leaves memory alone. -/
theorem exec_mem_of_no_request (hj : s.engine = .run job) (h : exec i s = .next t) (ha : requestAddr i job = none) :
    t.mem = s.mem := by
  obtain ⟨-, sc, ends, c, cap, len, -, -, he⟩ := exec_of_no_request hj ha
  rw [he] at h
  cases h
  exact State.complete_mem _ _ _ _ _ _

/-- A step with a request leaves every byte but that of the request. -/
theorem exec_read_other {a x : Nat} (hj : s.engine = .run job) (h : exec i s = .next t)
    (ha : requestAddr i job = some a) (hx : x ≠ a) : t.mem.read x = s.mem.read x := by
  rcases exec_of_requestAddr hj ha with ⟨sc, upd, -, -, he⟩ | ⟨b, sc, -, he⟩ <;> rw [he] at h
  · exact readRequest_read_other h hx
  · exact writeRequest_read_other h hx

/-- A step that stores nothing leaves memory alone where the spec fixes the command's bytes. -/
theorem exec_mem_of_no_store (hj : s.engine = .run job) (h : exec i s = .next t) (hu : job.scan.unfixed = false)
    (hs : storeAddr i job = none) : t.mem = s.mem := by
  cases ha : requestAddr i job with
  | none => exact exec_mem_of_no_request hj h ha
  | some a =>
    rcases exec_of_requestAddr hj ha with ⟨sc, upd, hsc, -, he⟩ | ⟨b, sc, hw, -⟩
    · rw [he] at h
      exact readRequest_mem_fixed (hsc.trans hu) h
    · simp [storeAddr, hw] at hs

end frame

/-- Settles O20: `exec_frame` for the registers and the outside, and for memory the address of the step's request. -/
theorem commandFrame : Obligations.CommandFrame := by
  intro i s t job hj h
  refine ⟨exec_frame h, fun hu hs a => ?_, fun b hb a => ?_, fun ha a => ?_, fun b hb a => exec_read_other hj h hb⟩
  · rw [exec_mem_of_no_store hj h hu hs]
  · exact exec_read_other hj h (requestAddr_of_storeAddr hb)
  · rw [exec_mem_of_no_request hj h ha]

/-! ## A dropped write -/

section dropWrite
variable {n : Nat} {job : Job} {s t : State}

theorem complete_dropWrite (ends : List (Nat × Nat)) (c : Code) (cap : Option (BitVec 34)) (len : Option Word) :
    s.dropWrite.complete job ends c cap len = (s.complete job ends c cap len).dropWrite := by
  unfold State.complete
  split <;> rfl

theorem afterRead_dropWrite (a : Nat) (upd : Byte → Scan) :
    s.dropWrite.afterRead job a upd = (s.afterRead job a upd).dropWrite := by
  unfold State.afterRead State.engineLoad
  split <;> rfl

theorem readRequest_dropWrite {a : Nat} {upd : Byte → Scan} (h : readRequest job a upd s = .next t) :
    readRequest job a upd s.dropWrite = .next t.dropWrite := by
  obtain ⟨ha, ⟨hv, rfl⟩ | ⟨l, hv, rfl⟩⟩ := readRequest_cases h
  · rw [readRequest_okay ha (by exact hv), afterRead_dropWrite]
  · rw [readRequest_error ha (by exact hv)]; rfl

theorem writeRequest_dropWrite {a : Nat} {b : Byte} {sc : Scan} (h : writeRequest job a b sc s = .next t) :
    writeRequest job a b sc s.dropWrite = .next t.dropWrite := by
  obtain ⟨ha, ⟨hv, rfl⟩ | ⟨l, hv, rfl⟩⟩ := writeRequest_cases h
  · rw [writeRequest_okay ha (by exact hv)]; rfl
  · rw [writeRequest_error ha (by exact hv)]; cases l <;> rfl

theorem encodeStep_dropWrite (h : encodeStep n job s = .next t) : encodeStep n job s.dropWrite = .next t.dropWrite := by
  unfold encodeStep at h ⊢
  split at h
  · cases h; exact congrArg _ (complete_dropWrite _ _ _ _)
  · exact readRequest_dropWrite h
  · exact writeRequest_dropWrite h
  · exact readRequest_dropWrite h
  · exact readRequest_dropWrite h

theorem decodeComplete_dropWrite {ends : List (Nat × Nat)} {c : Code} (h : decodeComplete n job ends c s = .next t) :
    decodeComplete n job ends c s.dropWrite = .next t.dropWrite := by
  cases h
  exact congrArg _ (complete_dropWrite _ _ _ _)

theorem decodeStep_dropWrite (h : decodeStep n job s = .next t) : decodeStep n job s.dropWrite = .next t.dropWrite := by
  unfold decodeStep at h ⊢
  split at h
  · exact decodeComplete_dropWrite h
  · exact writeRequest_dropWrite h
  · exact readRequest_dropWrite h
  · exact readRequest_dropWrite h
  · exact readRequest_dropWrite h

theorem exec_dropWrite {i : Instr} (hj : s.engine = .run job) (h : exec i s = .next t) :
    exec i s.dropWrite = .next t.dropWrite := by
  have hj' : s.dropWrite.engine = .run job := hj
  cases i with
  | capacity n => rw [exec_capacity hj] at h; cases h; rw [exec_capacity hj', complete_dropWrite]
  | check n k => rw [exec_check hj] at h; cases h; rw [exec_check hj', complete_dropWrite]
  | encode n k =>
    rcases exec_encode_cases n k job with ⟨c, he⟩ | ⟨sc, -, he⟩ <;> rw [he s hj] at h <;> rw [he _ hj']
    · cases h; rw [complete_dropWrite]
    · exact encodeStep_dropWrite h
  | decode n k =>
    rcases exec_decode_cases n k job with ⟨c, he⟩ | ⟨sc, -, he⟩ <;> rw [he s hj] at h <;> rw [he _ hj']
    · exact decodeComplete_dropWrite h
    · exact decodeStep_dropWrite h

/-- The engine does not read OVR (10_state.md R46). -/
theorem engineStep_dropWrite (hj : s.engine = .run job) (h : engineStep s = .next t) :
    engineStep s.dropWrite = .next t.dropWrite := by
  have hj' : s.dropWrite.engine = .run job := hj
  cases hd : decode job.word with
  | error r => rw [engineStep_illegal hj hd] at h; cases h; rw [engineStep_illegal hj' hd, complete_dropWrite]
  | ok i => rw [engineStep_command hj hd] at h; rw [engineStep_command hj' hd]; exact exec_dropWrite hj h

end dropWrite

/-- Settles O52: the write is `dropWrite`, which commutes with a step of the engine. -/
theorem droppedWriteDoesNotReachTheEngine : Obligations.DroppedWriteDoesNotReachTheEngine := by
  intro s t r w hb hr h
  obtain ⟨job, hj⟩ := run_of_busy hb
  rw [writeReg_busy hb hr]
  exact engineStep_dropWrite hj h

end Sys2Proof.Machine
end

section
/-! What every event but a step of the engine and reset leaves of a running command (10_state.md R46;
70_reset_and_hazards.md R253). -/

namespace Sys2Proof.Machine

/-- What an act of the host or of another master leaves: the running command but for the mark of a race, the results
and the registers it was started with; DONE it may clear (10_state.md R46, R28). -/
structure OutsideFrame (s t : State) : Prop where
  engine : t.engine = s.engine ∨ ∃ job, s.engine = .run job ∧
    t.engine = .run { job with scan := { job.scan with unfixed := true } }
  done : t.done = true → s.done = true
  errcode : t.errcode = s.errcode
  cap : t.cap = s.cap
  msgLen : t.msgLen = s.msgLen
  cmd : t.cmd = s.cmd
  params : t.params = s.params

namespace OutsideFrame

theorem refl (s : State) : OutsideFrame s s := ⟨.inl rfl, id, rfl, rfl, rfl, rfl, rfl⟩

theorem trans {s t u : State} (h : OutsideFrame s t) (h' : OutsideFrame t u) : OutsideFrame s u := by
  refine ⟨?_, h.done ∘ h'.done, h'.errcode.trans h.errcode, h'.cap.trans h.cap, h'.msgLen.trans h.msgLen,
    h'.cmd.trans h.cmd, h'.params.trans h.params⟩
  rcases h'.engine with e' | ⟨job', hj', e'⟩
  · rw [e']
    exact h.engine
  · rcases h.engine with e | ⟨job, hj, e⟩
    · exact .inr ⟨job', e ▸ hj', e'⟩
    · rw [e] at hj'
      cases hj'
      exact .inr ⟨job, hj, e'⟩

/-- The command that runs afterwards, with its mark. -/
theorem run {s t : State} {job : Job} (h : OutsideFrame s t) (hj : s.engine = .run job) :
    ∃ u, t.engine = .run { job with scan := { job.scan with unfixed := u } } ∧
      (job.scan.unfixed = true → u = true) := by
  rcases h.engine with e | ⟨job', hj', e⟩
  · exact ⟨job.scan.unfixed, e.trans hj, id⟩
  · rw [hj] at hj'
    cases hj'
    exact ⟨true, e, fun _ => rfl⟩

/-! ## The registers -/

theorem reply (s : State) (r : Reply) : OutsideFrame s { s with reply := r } :=
  ⟨.inl rfl, id, rfl, rfl, rfl, rfl, rfl⟩

theorem host (s : State) (h : HostAgent) : OutsideFrame s { s with host := h } :=
  ⟨.inl rfl, id, rfl, rfl, rfl, rfl, rfl⟩

theorem dropWrite (s : State) : OutsideFrame s s.dropWrite := ⟨.inl rfl, id, rfl, rfl, rfl, rfl, rfl⟩

/-- While the engine runs no register write reaches the command (10_state.md R46). -/
theorem writeReg {s : State} (hb : s.busy = true) (r : Reg) (w : Word) : OutsideFrame s (s.writeReg r w) := by
  by_cases hr : r = .cmd ∨ isParamReg r
  · rw [writeReg_busy hb hr]
    exact dropWrite s
  · cases r with
    | id | capLo | capHi | msgLen => exact refl s
    | ctrl => exact ⟨.inl rfl, id, rfl, rfl, rfl, rfl, rfl⟩
    | status => exact ⟨.inl rfl, fun h => (Bool.and_eq_true_iff.1 h).1, rfl, rfl, rfl, rfl, rfl⟩
    | _ => simp [isParamReg] at hr

theorem portWrite {s : State} (hb : s.busy = true) (off : BitVec 8) (width : Width) (w : Word) :
    OutsideFrame s (s.portWrite off width w) := by
  unfold State.portWrite
  split
  · refine trans ?_ (reply _ _)
    split
    · exact writeReg hb _ w
    · exact refl s
  · exact reply s _

theorem portRead (s : State) (off : BitVec 8) (width : Width) : OutsideFrame s (s.portRead off width) := by
  unfold State.portRead
  split <;> exact reply s _

theorem access {s : State} (hb : s.busy = true) (addr : Word) (width : Width) (data : Option Word) :
    OutsideFrame s (s.access addr width data) := by
  cases hw : windowOffset s.platform addr with
  | none => rw [access_outside hw]; exact refl s
  | some off =>
    cases data with
    | none => rw [access_read hw]; exact portRead s off width
    | some w => rw [access_write hw]; exact portWrite hb off width w

/-! ## System memory -/

/-- A race opens the running command (20_memory.md R75). -/
theorem loosen {s : State} {job : Job} (hj : s.engine = .run job) : OutsideFrame s (s.loosen job) :=
  ⟨.inr ⟨job, hj, rfl⟩, id, rfl, rfl, rfl, rfl, rfl⟩

theorem racedIf (s : State) (meets : List (Nat × Nat) → Bool) : OutsideFrame s (s.racedIf meets) := by
  rcases racedIf_cases meets s with h | ⟨job, hj, -, h⟩ <;> rw [h]
  · exact refl s
  · exact loosen hj

theorem hostPut (a : Nat) (b : Byte) (s : State) : OutsideFrame s (s.hostPut a b) :=
  ⟨.inl rfl, id, rfl, rfl, rfl, rfl, rfl⟩

theorem busPut (a : Nat) (b : Byte) (s : State) : OutsideFrame s (s.busPut a b) :=
  ⟨.inl rfl, id, rfl, rfl, rfl, rfl, rfl⟩

theorem hostStore (a : Nat) (b : Byte) (s : State) : OutsideFrame s (s.hostStore a b) :=
  (hostPut a b s).trans (racedIf _ _)

theorem busStore (a : Nat) (b : Byte) (s : State) : OutsideFrame s (s.busStore a b) :=
  (busPut a b s).trans (racedIf _ _)

theorem storeBytes {store : Nat → Byte → State → State} (hst : ∀ a b s, OutsideFrame s (store a b s)) (a : Nat)
    (s : State) (l : List Byte) : OutsideFrame s (s.storeBytes store a l) := by
  induction l generalizing a s with
  | nil => exact refl s
  | cons b l ih => exact trans (hst a b s) (ih (a + 1) (store a b s))

theorem writeAccess {store : Nat → Byte → State → State} (hst : ∀ a b s, OutsideFrame s (store a b s)) (addr : Word)
    (bytes : List Byte) (s : State) : OutsideFrame s (s.writeAccess store addr bytes) := by
  unfold State.writeAccess
  split
  · exact trans (storeBytes hst _ s bytes) (reply _ _)
  · exact reply s _

theorem readAccess (isOpen : Nat → Bool) (addr : Word) (count : Nat) (s : State) :
    OutsideFrame s (s.readAccess isOpen addr count) := by
  obtain ⟨r, d, h, -⟩ := readAccess_cases isOpen addr count s
  rw [h]
  exact ⟨.inl rfl, id, rfl, rfl, rfl, rfl, rfl⟩

theorem freeBytes (s : State) (l : List Nat) : OutsideFrame s (s.freeBytes l) := by
  obtain ⟨m, d, h, -⟩ := freeBytes_eq s l
  rw [h]
  exact ⟨.inl rfl, id, rfl, rfl, rfl, rfl, rfl⟩

theorem writeBack (range : Nat × Nat) (s : State) : OutsideFrame s (s.writeBack range) :=
  trans (freeBytes s _) (racedIf _ _)

theorem cacheClean (range : Nat × Nat) (s : State) : OutsideFrame s (s.cacheClean range) :=
  trans (writeBack range s) ⟨.inl rfl, id, rfl, rfl, rfl, rfl, rfl⟩

theorem cacheInvalidate (range : Nat × Nat) (s : State) : OutsideFrame s (s.cacheInvalidate range) :=
  trans (trans (writeBack range s) (freeBytes _ _)) ⟨.inl rfl, id, rfl, rfl, rfl, rfl, rfl⟩

/-! ## The host -/

theorem hostBranch (taken : Bool) (l : Nat) (s : State) : OutsideFrame s (s.hostBranch taken l) := by
  obtain ⟨h, e⟩ := hostBranch_eq taken l s
  rw [e]
  exact host s h

theorem hostExec {s : State} (hb : s.busy = true) (op : HostOp) : OutsideFrame s (s.hostExec op) := by
  cases op with
  | wr r v => exact trans (portWrite hb _ _ _) (host _ _)
  | rd r h => exact trans (portRead s _ _) (host _ _)
  | memw a bytes => exact trans (writeAccess hostStore a bytes s) (host _ _)
  | memr a count => exact trans (readAccess _ a count s) (host _ _)
  | set h w => exact host s _
  | add h w => exact host s _
  | and h w => exact host s _
  | beq h w l => exact hostBranch _ l s
  | bne h w l => exact hostBranch _ l s
  | label l => exact host s _
  | halt => exact host s _

theorem hostStep {s : State} (hb : s.busy = true) : OutsideFrame s s.hostStep := by
  unfold State.hostStep
  split
  · exact refl s
  · exact hostExec hb _

end OutsideFrame

/-- While the engine runs, every event but its own step and reset answers a next state with this frame. -/
theorem eventStep_outside {e : Event} {s : State} (hb : s.busy = true) (he : ∀ answer, e ≠ .engine answer)
    (hr : ∀ landed, e ≠ .reset landed) : ∃ t, eventStep e s = .next t ∧ OutsideFrame s t := by
  cases e with
  | engine answer => exact absurd rfl (he answer)
  | reset landed => exact absurd rfl (hr landed)
  | host => exact ⟨_, rfl, .hostStep hb⟩
  | access addr width data => exact ⟨_, rfl, .access hb addr width data⟩
  | memRead addr count => exact ⟨_, rfl, .readAccess _ addr count s⟩
  | memWrite addr bytes => exact ⟨_, rfl, .writeAccess OutsideFrame.busStore addr bytes s⟩
  | cacheClean addr count => exact ⟨_, rfl, .cacheClean _ s⟩
  | cacheInvalidate addr count => exact ⟨_, rfl, .cacheInvalidate _ s⟩

/-- Settles O51: each such event has the frame `OutsideFrame`. -/
theorem onlyTheEngineAndResetMoveTheCommand : Obligations.OnlyTheEngineAndResetMoveTheCommand := by
  intro e s job hj he hr
  obtain ⟨t, ht, hf⟩ := eventStep_outside (busy_of_run hj) he hr
  obtain ⟨u, hu, hmark⟩ := hf.run hj
  exact ⟨t, u, ht, hu, hmark, hf.done, hf.errcode, hf.cap, hf.msgLen, hf.cmd, hf.params⟩

end Sys2Proof.Machine
end

section
/-! The engine always has a next state, and so has the machine (20_memory.md R69; 70_reset_and_hazards.md R253). -/

namespace Sys2Proof.Machine

/-- Where the invariant holds no request of the engine leaves the address space. -/
theorem engineStep_next {s : State} (hi : Inv s) : ∃ t, engineStep s = .next t := by
  cases hj : s.engine with
  | idle => exact ⟨s, by simp only [engineStep, hj]⟩
  | run job =>
    obtain ⟨t, ht, -⟩ := engineStep_stepsOn hi hj
    exact ⟨t, ht⟩

/-- No event stops the machine: all but the engine's step are functions to State. -/
theorem eventStep_next {s : State} (hi : Inv s) (e : Event) : ∃ t, eventStep e s = .next t := by
  cases e with
  | engine answer =>
    cases hb : s.busy with
    | true => rw [eventStep_engine_busy answer hb]; exact engineStep_next (inv_memAnswer hi answer)
    | false => exact ⟨s, eventStep_engine_idle answer hb⟩
  | _ => exact ⟨_, rfl⟩

theorem defaultStep_next {s : State} (hi : Inv s) : ∃ t, defaultStep s = .next t := by
  unfold defaultStep
  split
  · exact engineStep_next hi
  · exact ⟨_, rfl⟩

/-- Settles O49: the bounds that `ScanInv` sets keep every request inside the address space, and a step of the machine
is an event or the default. -/
theorem engineNeverStops : Obligations.EngineNeverStops := by
  intro s hi
  refine ⟨engineStep_next hi, ?_⟩
  unfold step
  split
  · exact defaultStep_next hi
  · exact eventStep_next (inv_schedule hi _) _

end Sys2Proof.Machine
end

section
/-! Bus errors (20_memory.md R70; 60_exceptions.md R202). -/

namespace Sys2Proof.Machine

section busError
variable {i : Instr} {s : State} {job : Job} {a : Nat} {landed : Bool}

/-- A request answered ERROR sends the command to completion with BusError; `f` is the state in which a failing write
has landed or has not. -/
theorem exec_of_error (hj : s.engine = .run job) (hr : requestAddr i job = some a) (ha : a < Config.addrSpace)
    (hv : s.verdict = .error landed) :
    ∃ sc f, sc.unfixed = job.scan.unfixed ∧ exec i s = .next (f.busFail { job with scan := sc }) ∧
      ((nextWrite i job = none ∧ f = s.answered) ∨
        ∃ b, nextWrite i job = some (a, b) ∧ f = if landed then s.answered.engineStore job a b else s.answered) := by
  rcases exec_of_requestAddr hj hr with ⟨sc, upd, hu, hw, he⟩ | ⟨b, sc, hw, he⟩
  · exact ⟨sc, _, hu, he.trans (readRequest_error ha hv), .inl ⟨hw, rfl⟩⟩
  · exact ⟨job.scan, _, rfl, he.trans (writeRequest_error ha hv), .inr ⟨b, hw, rfl⟩⟩

/-- In the finish place with BusError a scanning command makes no request: it completes with code 9 and records CAP. -/
theorem exec_finish_busError (hr : requestAddr i job = some a) {t : State} {sc : Scan}
    (ht : t.engine = .run { job with scan := { sc with next := .finish .busError } }) :
    ∃ ends, exec i t = .next (t.complete { job with scan := { sc with next := .finish .busError } } ends .busError
      (some (job.params.capField i.nbits)) none) := by
  cases i with
  | capacity n => cases hr
  | check n k => cases hr
  | encode n k => exact ⟨_, exec_encode_finish ht rfl⟩
  | decode n k => exact ⟨_, exec_decode_finish ht rfl⟩

end busError

/-- A failing write that has landed or has not changes memory and what goes with it, and no register. -/
theorem storeIf_fields (landed : Bool) (job : Job) (a : Nat) (b : Byte) (s : State) :
    let f := if landed then s.answered.engineStore job a b else s.answered
    f.cap = s.cap ∧ f.msgLen = s.msgLen ∧ f.done = s.done ∧ f.errcode = s.errcode := by
  cases landed <;> exact ⟨rfl, rfl, rfl, rfl⟩

/-- Settles O38: the failing step leads to the finish place with code 9, from which the next step completes. -/
theorem busErrorEndsTheCommand : Obligations.BusErrorEndsTheCommand := by
  refine ⟨fun s h => if_neg (by simp [h]), fun s h => if_pos h, ?_⟩
  intro i s job a landed hj hu hr ha hv
  obtain ⟨sc, f, hsc, he, hf⟩ := exec_of_error hj hr ha hv
  obtain ⟨ends, he'⟩ := exec_finish_busError hr (State.busFail_engine f { job with scan := sc })
  have hopen : sc.unfixed = false := hsc.trans hu
  have hregs : f.cap = s.cap ∧ f.msgLen = s.msgLen ∧ f.done = s.done ∧ f.errcode = s.errcode := by
    rcases hf with ⟨-, rfl⟩ | ⟨b, -, rfl⟩
    · exact ⟨rfl, rfl, rfl, rfl⟩
    · exact storeIf_fields landed job a b s
  obtain ⟨hcap, hlen, hdone, hcode⟩ := hregs
  refine ⟨_, _, he, he', ?_, ?_, busy_of_run (State.busFail_engine _ _), hcap, hlen, hdone, hcode,
    (exec_frame he).trans (exec_frame he'), by simp, by simp, by simp [hopen], by simp, by simp [hopen, hlen], ?_⟩
  · rcases hf with ⟨hw, rfl⟩ | ⟨b, hw, rfl⟩
    · simp [hw]
    · cases landed <;> simp [hw, hu]
  · rcases hf with ⟨hw, -⟩ | ⟨b, hw, -⟩ <;> simp +contextual [hw]
  · simp [hopen, Params.capField, Params.capacity, Params.channelCount, Config.channels]

end Sys2Proof.Machine
end

section
/-! The writes of the host and of other masters, and the race that they can be (20_memory.md R75, R77;
60_exceptions.md R223). -/

namespace Sys2Proof.Machine

/-! ## Ordinary writes -/

/-- A write to a byte that the running command does not touch is no race (20_memory.md R75). -/
theorem racedIf_not_owned {s : State} {a : Nat} (h : s.owned a = false) : s.racedIf (inRanges a) = s := by
  cases hj : s.engine with
  | idle => exact racedIf_idle hj _
  | run job => exact racedIf_other hj (by simpa [State.owned, hj] using h)

theorem hostStore_ordinary {s : State} {a : Nat} (h : s.owned a = false) (b : Byte) :
    s.hostStore a b = s.hostPut a b := racedIf_not_owned h

theorem busStore_ordinary {s : State} {a : Nat} (h : s.owned a = false) (b : Byte) :
    s.busStore a b = s.busPut a b := racedIf_not_owned h

/-- Settles O54: the write is `hostPut` or `busPut`, which write one byte of memory and say what the host's copy is. -/
theorem hostWriteOutsideTheBuffersIsOrdinary : Obligations.HostWriteOutsideTheBuffersIsOrdinary := by
  intro s a b hw ho
  have hgrow : ∀ (l : List Nat) (x : Nat), x ∈ (if s.platform.hostCoherent then l else addAddr l a) ↔
      x ∈ l ∨ (x = a ∧ s.platform.hostCoherent = false) := by
    intro l x
    cases s.platform.hostCoherent <;> simp [or_comm]
  rw [hostStore_ordinary ho, busStore_ordinary ho]
  refine ⟨?_, fun x => by simp, fun x => hgrow s.dirty x, fun x => hgrow s.stale x, rfl, rfl, rfl⟩
  rintro t (rfl | rfl) <;>
    exact ⟨Memory.read_write_same hw a b, fun x hx => Memory.read_write_other _ b hx, rfl, Memory.wf_write hw a b⟩

end Sys2Proof.Machine
end

section
/-! What a race leaves of memory and of the host's copies (20_memory.md R75, R80). -/

namespace Sys2Proof.Machine

/-- Scrambling never takes back a free value. -/
theorem Memory.scrambleRanges_draws_le (m : Memory) (d : Nat) (l : List (Nat × Nat)) :
    d ≤ (m.scrambleRanges d l).2 := by
  induction l generalizing m d with
  | nil => exact Nat.le_refl _
  | cons r l ih => exact Nat.le_trans (Nat.le_add_right _ _) (ih _ _)

section loosen
variable (s : State) (job : Job)

theorem loosen_draws_le : s.draws ≤ (s.loosen job).draws := Memory.scrambleRanges_draws_le _ _ _

variable {s job}

theorem loosen_read_touched (hw : s.mem.wf = true) {x : Nat} (hx : inRanges x job.touched = true) :
    ∃ d, s.draws ≤ d ∧ d < (s.loosen job).draws ∧ (s.loosen job).mem.read x = Config.freeByte d :=
  Memory.read_scrambleRanges_same hw s.draws hx

theorem loosen_read_other {x : Nat} (hx : inRanges x job.touched = false) :
    (s.loosen job).mem.read x = s.mem.read x :=
  Memory.read_scrambleRanges_other _ _ _ hx

theorem mem_loosen_stale {x : Nat} : x ∈ (s.loosen job).stale ↔
    x ∈ s.stale ∨ (s.platform.hostCoherent = false ∧ inRanges x job.touched = true) := by
  rw [State.loosen_stale]
  cases s.platform.hostCoherent <;> simp

end loosen

/-! ## A write that races the running command -/

/-- The byte `b` of the host or of another master has landed at `a`: what the two have in common. Of the host's copies
only that of `a` can have changed, and no register has. -/
structure BytePut (a : Nat) (b : Byte) (s p : State) : Prop where
  mem : p.mem = s.mem.write a b
  draws : p.draws = s.draws
  platform : p.platform = s.platform
  stale : ∀ x, x ≠ a → (x ∈ p.stale ↔ x ∈ s.stale)
  regs : p.ie = s.ie ∧ p.done = s.done ∧ p.errcode = s.errcode ∧ p.ovr = s.ovr ∧ p.cmd = s.cmd ∧
    p.params = s.params ∧ p.cap = s.cap ∧ p.msgLen = s.msgLen

theorem hostPut_bytePut (a : Nat) (b : Byte) (s : State) : BytePut a b s (s.hostPut a b) :=
  ⟨rfl, rfl, rfl, fun x hx => by simp [hx], rfl, rfl, rfl, rfl, rfl, rfl, rfl, rfl⟩

theorem busPut_bytePut (a : Nat) (b : Byte) (s : State) : BytePut a b s (s.busPut a b) :=
  ⟨rfl, rfl, rfl, fun x hx => by cases hc : s.platform.hostCoherent <;> simp [hc, hx],
    rfl, rfl, rfl, rfl, rfl, rfl, rfl, rfl⟩

section race
variable {s t : State} {job : Job} {a : Nat} {b : Byte}

/-- A write into the running command's buffers is the landing of its byte and then the race. -/
theorem store_race (hj : s.engine = .run job) (ha : inRanges a job.touched = true)
    (ht : t = s.hostStore a b ∨ t = s.busStore a b) : ∃ p, BytePut a b s p ∧ t = p.loosen job := by
  rcases ht with rfl | rfl
  · exact ⟨_, hostPut_bytePut a b s, racedIf_loosen hj ha⟩
  · exact ⟨_, busPut_bytePut a b s, racedIf_loosen hj ha⟩

/-- The byte written is itself one of the touched bytes, so outside them the race leaves memory as it was. -/
theorem BytePut.loosen_read_other {p : State} (h : BytePut a b s p) (ha : inRanges a job.touched = true) {x : Nat}
    (hx : inRanges x job.touched = false) : (p.loosen job).mem.read x = s.mem.read x := by
  have hne : x ≠ a := fun e => by simp [← e, hx] at ha
  rw [Machine.loosen_read_other hx, h.mem, Memory.read_write_other _ b hne]

/-- Without HOST_COHERENT a race makes every touched byte newer than the host's copy, the byte written too. -/
theorem BytePut.mem_loosen_stale {p : State} (h : BytePut a b s p) (ha : inRanges a job.touched = true)
    (hc : s.platform.hostCoherent = false) (x : Nat) :
    x ∈ (p.loosen job).stale ↔ x ∈ s.stale ∨ inRanges x job.touched = true := by
  rw [Machine.mem_loosen_stale, h.platform]
  by_cases hx : x = a
  · simp [hx, ha, hc]
  · simp [h.stale x hx, hc]

end race

/-! ## An open command -/

section opened
variable {s t : State} {job : Job}

/-- The completion of an open command writes free results (20_memory.md R75). -/
theorem EngineMove.results_of_open (h : EngineMove job s t) (hu : job.scan.unfixed = true) (ht : t.engine = .idle) :
    t.done = true ∧ t.cap = Config.freeCap s.draws ∧ t.msgLen = Config.freeLen s.draws ∧
      t.errcode = Config.freeCode s.draws ∧ s.draws < t.draws := by
  cases h with
  | done sc ends c cap len hsc h => subst h; simp [hsc, hu]
  | read sc a upd hsc h => obtain ⟨-, ⟨-, rfl⟩ | ⟨l, -, rfl⟩⟩ := readRequest_cases h <;> simp at ht
  | write sc sc' a b hsc h => obtain ⟨-, ⟨-, rfl⟩ | ⟨l, -, rfl⟩⟩ := writeRequest_cases h <;> simp at ht

/-- A store of an open command leaves a fresh free value (20_memory.md R75). -/
theorem engineStore_open (hu : job.scan.unfixed = true) (hw : s.mem.wf = true) (a : Nat) (b : Byte) :
    (s.engineStore job a b).mem.read a = Config.freeByte s.draws ∧ (s.engineStore job a b).draws = s.draws + 1 := by
  simp [hu, Memory.read_write_same hw, Scan.drawsUsed]

/-- A request of an open command that is answered OKAY, a read too, leaves a fresh free value in its byte (20_memory.md
R75, R68). -/
theorem exec_open_request {i : Instr} {a : Nat} (hj : s.engine = .run job) (hu : job.scan.unfixed = true)
    (h : exec i s = .next t) (hr : requestAddr i job = some a) (hv : s.verdict = .okay) (hw : s.mem.wf = true) :
    ∃ d, s.draws ≤ d ∧ d < t.draws ∧ t.mem.read a = Config.freeByte d := by
  rcases exec_of_requestAddr hj hr with ⟨sc, upd, hsc, -, he⟩ | ⟨b, sc, -, he⟩ <;> rw [he] at h
  · obtain ⟨-, ⟨-, rfl⟩ | ⟨l, hl, -⟩⟩ := readRequest_cases h
    · have hopen : ({ job with scan := sc } : Job).scan.unfixed = true := hsc.trans hu
      obtain ⟨hread, hdraws⟩ := engineStore_open (s := { s.answered with draws := s.draws + 1 }) hopen hw a
        (s.mem.read a)
      refine ⟨s.draws + 1, by omega, ?_, ?_⟩ <;> rw [State.afterRead, engineLoad_unfixed hopen]
      · exact hdraws ▸ Nat.lt_succ_self _
      · exact hread
    · rw [hv] at hl; cases hl
  · obtain ⟨-, ⟨-, rfl⟩ | ⟨l, hl, -⟩⟩ := writeRequest_cases h
    · obtain ⟨hread, hdraws⟩ := engineStore_open (s := s.answered) hu hw a b
      exact ⟨s.draws, Nat.le_refl _, hdraws ▸ Nat.lt_succ_self _, hread⟩
    · rw [hv] at hl; cases hl

/-- A read of an open command gives it a free byte (20_memory.md R75, R68). -/
theorem readRequest_open {a : Nat} {upd : Byte → Scan} (hu : job.scan.unfixed = true) (ha : a < Config.addrSpace)
    (hv : s.verdict = .okay) :
    ∃ t, readRequest job a upd s = .next t ∧
      t.engine = .run { job with scan := upd (Config.freeByte s.draws) } :=
  ⟨_, readRequest_okay ha hv, by simp [State.engineByte, hu]⟩

end opened

/-- Settles O53: the write is a race, which is `State.loosen`, and an open command draws a free value wherever one
that the spec fixes would use a byte or a result. -/
theorem racingWriteOpensTheCommand : Obligations.RacingWriteOpensTheCommand := by
  refine ⟨fun s t job a b hj ha ht => ?_, fun i s t job hj hu h => ?_, fun n kind s job hj hu hv => ?_⟩
  · obtain ⟨p, hp, rfl⟩ := store_race hj ha ht
    refine ⟨rfl, fun hw x hx => ?_, fun x hx => hp.loosen_read_other ha hx, hp.mem_loosen_stale ha, hp.regs⟩
    rw [← hp.draws]
    exact loosen_read_touched (by rw [hp.mem]; exact Memory.wf_write hw a b) hx
  · exact ⟨(exec_move hj h).results_of_open hu, fun a hr hv hw => exec_open_request hj hu h hr hv hw⟩
  · refine ⟨fun hn ha => ?_, fun hn ha => ⟨?_, ?_⟩⟩
    · rw [exec_encode_payload hj hn]
      exact readRequest_open hu ha hv
    · rw [exec_encode_read hj hn]
      exact readRequest_open hu ha hv
    · rw [exec_decode_read hj hn]
      exact readRequest_open hu ha hv

end Sys2Proof.Machine
end

section
/-! Acceptance over the host's unwritten bytes (20_memory.md R74, R80). -/

namespace Sys2Proof.Machine

/-- An address lies in its own cache line. -/
theorem cacheLine_bounds (p : Config.Platform) (a : Nat) :
    (cacheLine p a).1 ≤ a ∧ a < (cacheLine p a).1 + (cacheLine p a).2 :=
  ⟨Nat.div_mul_le_self a _, Nat.lt_div_mul_add (Nat.two_pow_pos _)⟩

/-- The cache line of an address meets every range that holds the address. -/
theorem rangesMeet_cacheLine (p : Config.Platform) {a : Nat} {r : Nat × Nat} (h : r.1 ≤ a ∧ a < r.1 + r.2) :
    rangesMeet (cacheLine p a) r = true := by
  obtain ⟨hlow, hhigh⟩ := cacheLine_bounds p a
  exact decide_eq_true (by omega)

/-- A buffer with an unwritten byte of the host in it is unclean. -/
theorem unclean_of_dirty {s : State} {job : Job} {a : Nat} (hd : a ∈ s.dirty) (ha : inRanges a job.touched = true) :
    s.unclean job = true := by
  obtain ⟨r, hr, hin⟩ := List.any_eq_true.1 ha
  exact List.any_eq_true.2 ⟨a, hd, List.any_eq_true.2 ⟨r, hr, rangesMeet_cacheLine _ (of_decide_eq_true hin)⟩⟩

/-- With no unwritten byte every buffer is clean. -/
theorem unclean_of_no_dirty {s : State} (job : Job) (h : s.dirty = []) : s.unclean job = false := by
  simp [State.unclean, linesMeet, h]

/-- A command accepted over an unwritten byte is raced at once (log entry 6). -/
theorem accept_unclean {s : State} {w : Word}
    (h : s.unclean { word := w, params := s.params, scan := Scan.fresh } = true) :
    s.accept w = (s.latch w).loosen { word := w, params := s.params, scan := Scan.fresh } := if_pos h

/-- A host write while the engine is idle is no race. -/
theorem hostStore_idle {s : State} (h : s.engine = .idle) (a : Nat) (b : Byte) : s.hostStore a b = s.hostPut a b :=
  racedIf_idle (by exact h) _

end Sys2Proof.Machine
end

section
/-! Write-back, cleaning and invalidating (20_memory.md R80; log entry 13). -/

namespace Sys2Proof.Machine

/-! ## Bytes that become free -/

section freeBytes
variable (s : State) (l : List Nat)

@[simp] theorem freeBytes_engine : (s.freeBytes l).engine = s.engine := by
  obtain ⟨m, d, h, -⟩ := freeBytes_eq s l; rw [h]

theorem freeBytes_draws_le : s.draws ≤ (s.freeBytes l).draws := by
  obtain ⟨m, d, h, hd, -⟩ := freeBytes_eq s l; rw [h]; exact hd

variable {s l}

theorem freeBytes_wf (hw : s.mem.wf = true) : (s.freeBytes l).mem.wf = true := by
  obtain ⟨m, d, h, -, hm, -⟩ := freeBytes_eq s l; rw [h]; exact hm hw

theorem freeBytes_read_other {x : Nat} (hx : x ∉ l) : (s.freeBytes l).mem.read x = s.mem.read x := by
  obtain ⟨m, d, h, -, -, -, hm, -⟩ := freeBytes_eq s l; rw [h]; exact hm x hx

theorem freeBytes_read_same (hw : s.mem.wf = true) {x : Nat} (hx : x ∈ l) :
    ∃ e, s.draws ≤ e ∧ e < (s.freeBytes l).draws ∧ (s.freeBytes l).mem.read x = Config.freeByte e := by
  obtain ⟨m, d, h, -, -, -, -, hm⟩ := freeBytes_eq s l; rw [h]; exact hm hw x hx

end freeBytes

/-! ## The bytes and lines of a write-back -/

section lines
variable {s : State} {range : Nat × Nat}

theorem mem_dirtyIn {x : Nat} : x ∈ s.dirtyIn range ↔ x ∈ s.dirty ∧ s.lineIn range x = true := List.mem_filter

/-- The bytes that a write-back clobbers: those newer in memory than a dirty line of the range over them. -/
theorem mem_staleBeside_dirtyIn {x : Nat} : x ∈ s.staleBeside (s.dirtyIn range) ↔
    x ∈ s.stale ∧ ∃ y ∈ s.dirty, s.lineIn range y = true ∧ cacheLine s.platform y = cacheLine s.platform x := by
  simp [State.staleBeside, mem_dirtyIn, and_assoc]

/-- A write-back puts back a line of one of the buffers. -/
theorem linesMeet_dirtyIn {ranges : List (Nat × Nat)} : linesMeet s.platform (s.dirtyIn range) ranges = true ↔
    ∃ y ∈ s.dirty, s.lineIn range y = true ∧ ∃ r ∈ ranges, rangesMeet (cacheLine s.platform y) r = true := by
  simp [linesMeet, mem_dirtyIn, and_assoc]

/-- Every byte that a write-back clobbers lies in a line that meets the range. -/
theorem lineIn_of_mem_staleBeside {x : Nat} (h : x ∈ s.staleBeside (s.dirtyIn range)) : s.lineIn range x = true := by
  obtain ⟨-, y, -, hy, hline⟩ := mem_staleBeside_dirtyIn.1 h
  rwa [State.lineIn, hline] at hy

end lines

/-! ## Write-back -/

section writeBack
variable {s : State} {range : Nat × Nat}

/-- A write-back that meets no buffer of the running command frees the clobbered bytes and does nothing else. -/
theorem writeBack_calm
    (h : ∀ job, s.engine = .run job → ¬ linesMeet s.platform (s.dirtyIn range) job.touched = true) :
    s.writeBack range = s.freeBytes (s.staleBeside (s.dirtyIn range)) := by
  cases hj : s.engine with
  | idle => exact racedIf_idle (by simp [hj]) _
  | run job => exact racedIf_other (by rw [freeBytes_engine, hj]) (by simpa using h job hj)

/-- A write-back that meets a buffer of the running command races it as well (20_memory.md R75). -/
theorem writeBack_race {job : Job} (hj : s.engine = .run job)
    (h : linesMeet s.platform (s.dirtyIn range) job.touched = true) :
    s.writeBack range = (s.freeBytes (s.staleBeside (s.dirtyIn range))).loosen job :=
  racedIf_loosen (by rw [freeBytes_engine, hj]) h

/-- A write-back is one of these two. -/
theorem writeBack_cases (s : State) (range : Nat × Nat) :
    s.writeBack range = s.freeBytes (s.staleBeside (s.dirtyIn range)) ∨
      ∃ job, s.writeBack range = (s.freeBytes (s.staleBeside (s.dirtyIn range))).loosen job :=
  (racedIf_cases _ _).imp id fun ⟨job, _, _, h⟩ => ⟨job, h⟩

theorem writeBack_draws_le : s.draws ≤ (s.writeBack range).draws := by
  have hfree := freeBytes_draws_le s (s.staleBeside (s.dirtyIn range))
  rcases writeBack_cases s range with h | ⟨job, h⟩ <;> rw [h]
  · exact hfree
  · exact Nat.le_trans hfree (loosen_draws_le _ job)

theorem writeBack_wf (hw : s.mem.wf = true) : (s.writeBack range).mem.wf = true := by
  rcases writeBack_cases s range with h | ⟨job, h⟩ <;> rw [h]
  · exact freeBytes_wf hw
  · exact Memory.wf_scrambleRanges (freeBytes_wf hw) _ _

/-- A clobbered byte is a fresh free value, also where the write-back races a command. -/
theorem writeBack_read_clobbered (hw : s.mem.wf = true) {x : Nat} (hx : x ∈ s.staleBeside (s.dirtyIn range)) :
    ∃ d, s.draws ≤ d ∧ d < (s.writeBack range).draws ∧ (s.writeBack range).mem.read x = Config.freeByte d := by
  have hfree := freeBytes_read_same hw hx
  rcases writeBack_cases s range with h | ⟨job, h⟩ <;> rw [h]
  · exact hfree
  · cases ht : inRanges x job.touched with
    | true =>
      obtain ⟨d, hlow, hhigh, hread⟩ := loosen_read_touched (freeBytes_wf hw) ht
      exact ⟨d, Nat.le_trans (freeBytes_draws_le _ _) hlow, hhigh, hread⟩
    | false =>
      obtain ⟨d, hlow, hhigh, hread⟩ := hfree
      exact ⟨d, hlow, Nat.lt_of_lt_of_le hhigh (loosen_draws_le _ job), (loosen_read_other ht).trans hread⟩

/-- Only a race makes more of the host's copies out of date. -/
theorem mem_writeBack_stale {x : Nat} : x ∈ (s.writeBack range).stale ↔
    x ∈ s.stale ∨ (s.platform.hostCoherent = false ∧ ∃ job, s.engine = .run job ∧
      linesMeet s.platform (s.dirtyIn range) job.touched = true ∧ inRanges x job.touched = true) := by
  by_cases h : ∃ job, s.engine = .run job ∧ linesMeet s.platform (s.dirtyIn range) job.touched = true
  · obtain ⟨job, hj, hm⟩ := h
    rw [writeBack_race hj hm, mem_loosen_stale]
    simp [hj, hm]
  · push Not at h
    rw [writeBack_calm h, freeBytes_stale]
    refine (or_iff_left ?_).symm
    rintro ⟨-, job, hj, hm, -⟩
    exact h job hj hm

end writeBack

/-! ## Cleaning and invalidating -/

section maintenance
variable (s : State) (range : Nat × Nat)

@[simp] theorem cacheClean_mem : (s.cacheClean range).mem = (s.writeBack range).mem := rfl
@[simp] theorem cacheClean_draws : (s.cacheClean range).draws = (s.writeBack range).draws := rfl
@[simp] theorem cacheClean_platform : (s.cacheClean range).platform = s.platform := writeBack_platform s range
@[simp] theorem cacheClean_engine : (s.cacheClean range).engine = (s.writeBack range).engine := rfl
@[simp] theorem cacheClean_stale : (s.cacheClean range).stale = (s.writeBack range).stale := rfl
@[simp] theorem cacheClean_unsynced : (s.cacheClean range).unsynced = s.unsynced := writeBack_unsynced s range
@[simp] theorem cacheClean_dirty : (s.cacheClean range).dirty = s.dirty.filter fun a => !s.lineIn range a := by
  simp [State.cacheClean]

@[simp] theorem cacheInvalidate_mem :
    (s.cacheInvalidate range).mem = ((s.writeBack range).freeBytes (s.dirtyIn range)).mem := rfl
@[simp] theorem cacheInvalidate_draws :
    (s.cacheInvalidate range).draws = ((s.writeBack range).freeBytes (s.dirtyIn range)).draws := rfl
@[simp] theorem cacheInvalidate_engine : (s.cacheInvalidate range).engine = (s.writeBack range).engine :=
  freeBytes_engine _ _
@[simp] theorem cacheInvalidate_stale :
    (s.cacheInvalidate range).stale = (s.writeBack range).stale.filter fun a => !s.lineIn range a := by
  simp [State.cacheInvalidate]
@[simp] theorem cacheInvalidate_unsynced :
    (s.cacheInvalidate range).unsynced = s.unsynced.filter fun a => !s.lineIn range a := by
  simp [State.cacheInvalidate]
@[simp] theorem cacheInvalidate_dirty :
    (s.cacheInvalidate range).dirty = s.dirty.filter fun a => !s.lineIn range a := by
  simp [State.cacheInvalidate]

variable {s range}

section calm
variable (hcalm : ∀ job, s.engine = .run job → ¬ linesMeet s.platform (s.dirtyIn range) job.touched = true)
include hcalm

/-- A write-back that is no race leaves the engine alone, and with it cleaning and invalidating do. -/
theorem writeBack_engine_calm : (s.writeBack range).engine = s.engine := by
  rw [writeBack_calm hcalm, freeBytes_engine]

theorem cacheClean_read_other {x : Nat} (hx : x ∉ s.staleBeside (s.dirtyIn range)) :
    (s.cacheClean range).mem.read x = s.mem.read x := by
  rw [cacheClean_mem, writeBack_calm hcalm, freeBytes_read_other hx]

theorem cacheInvalidate_read_other {x : Nat} (hx : x ∉ s.staleBeside (s.dirtyIn range))
    (hd : x ∉ s.dirtyIn range) : (s.cacheInvalidate range).mem.read x = s.mem.read x := by
  rw [cacheInvalidate_mem, freeBytes_read_other hd, writeBack_calm hcalm, freeBytes_read_other hx]

end calm

/-- Invalidating makes each unwritten byte of the lines a fresh free value. -/
theorem cacheInvalidate_read_dirty (hw : s.mem.wf = true) {x : Nat} (hx : x ∈ s.dirtyIn range) :
    ∃ d, s.draws ≤ d ∧ d < (s.cacheInvalidate range).draws ∧
      (s.cacheInvalidate range).mem.read x = Config.freeByte d := by
  obtain ⟨d, hlow, hhigh, hread⟩ := freeBytes_read_same (writeBack_wf (range := range) hw) hx
  exact ⟨d, Nat.le_trans writeBack_draws_le hlow, hhigh, hread⟩

end maintenance

/-! ## The host's own byte before a command -/

section ownByte
variable {s : State} {a : Nat} (hj : s.engine = .idle) (hc : s.platform.hostCoherent = false)
include hj hc

/-- A command accepted before the host has written its byte back starts open (log entry 6). -/
theorem accept_before_clean (b : Byte) {w : Word}
    (ha : inRanges a (Job.touched { word := w, params := s.params, scan := Scan.fresh }) = true) :
    ∃ job, ((s.hostStore a b).writeReg .cmd w).engine = .run job ∧ job.scan.unfixed = true := by
  have hdirty : a ∈ (s.hostPut a b).dirty := by simp [hc]
  have hbusy : (s.hostPut a b).busy = false := busy_of_idle hj
  rw [hostStore_idle hj, writeReg_cmd_idle hbusy, accept_unclean (unclean_of_dirty hdirty ha)]
  exact ⟨_, rfl, rfl⟩

/-- Where it was the host's only unwritten byte, a command accepted after its cleaning does not. -/
theorem accept_after_clean (b : Byte) {w : Word} (hd : s.dirty = [])
    (hdev : s.onDevice { word := w, params := s.params, scan := Scan.fresh } = false) :
    ∃ job, (((s.hostStore a b).cacheClean (a, 1)).writeReg .cmd w).engine = .run job ∧ job.scan.unfixed = false := by
  rw [hostStore_idle hj]
  have hclean : ((s.hostPut a b).cacheClean (a, 1)).dirty = [] := by
    have hline : (s.hostPut a b).lineIn (a, 1) a = true := rangesMeet_cacheLine _ (by simp)
    simp [hc, hd, addAddr, hline]
  have hbusy : ((s.hostPut a b).cacheClean (a, 1)).busy = false := by
    rw [State.busy, cacheClean_engine, writeBack_calm (by simp [hj]), freeBytes_engine, State.hostPut_engine, hj]
  have hparams : ((s.hostPut a b).cacheClean (a, 1)).params = s.params := (OutsideFrame.cacheClean _ _).params
  rw [acceptanceOfAPreparedCommand _ w hbusy (unclean_of_no_dirty _ hclean)]
  refine ⟨_, rfl, ?_⟩
  rw [hparams]
  simpa [State.onDevice] using hdev

end ownByte

end Sys2Proof.Machine
end

section
/-! The wait for an invalidation: what begins it and that nothing else ends it (20_memory.md R80). -/

namespace Sys2Proof.Machine

/-! ## The end of a command -/

theorem mem_unsync {s : State} {ends : List (Nat × Nat)} {x : Nat} : x ∈ (s.unsync ends).unsynced ↔
    x ∈ s.unsynced ∨ (s.platform.hostCoherent = false ∧ inRanges x ends = true) := by
  rw [State.unsync_unsynced]
  cases s.platform.hostCoherent <;> simp

theorem inRanges_encodeEnds (job : Job) (x : Nat) : inRanges x job.encodeEnds = true ↔
    inBuffer job.params.imgBase job.params.channelCount x ∨
      (job.scan.unfixed = true ∧ inBuffer job.params.payBase job.params.payLen.toNat x) := by
  cases hu : job.scan.unfixed <;> simp [inRanges, Job.encodeEnds, inBuffer, hu]

theorem inRanges_decodeEnds (n : Nat) (job : Job) (x : Nat) : inRanges x (job.decodeEnds n) = true ↔
    inBuffer job.params.imgBase job.params.channelCount x ∨
      inBuffer job.params.outBase (job.params.capacity n) x := by
  simp [inRanges, Job.decodeEnds, inBuffer]

/-- A command whose checks fail has had no buffers. -/
theorem inRanges_unlessFailed (c : Option Code) (ends : List (Nat × Nat)) (x : Nat) :
    inRanges x (if c.isSome then [] else ends) = true ↔ c = none ∧ inRanges x ends = true := by
  cases c <;> simp [inRanges]

theorem unsyncRunning_run {s : State} {job : Job} (hj : s.engine = .run job) : s.unsyncRunning = s.unsync job.ends := by
  simp only [State.unsyncRunning, hj]

/-- The buffers of a command are those of the command its word decodes to. -/
theorem inRanges_ends (job : Job) (x : Nat) : inRanges x job.ends = true ↔
    ∃ i, decode job.word = .ok i ∧ inRanges x (endBuffers i job) = true := by
  unfold Job.ends
  cases decode job.word <;> simp [inRanges]

/-- The write that lands at a reset is a store of the engine, or there is none (70_reset_and_hazards.md R241). -/
theorem landPending_cases (s : State) :
    s.landPending = s ∨ ∃ job a b, s.landPending = s.engineStore job a b := by
  unfold State.landPending
  split
  · exact .inl rfl
  · split
    · exact .inl rfl
    · split
      · exact .inr ⟨_, _, _, rfl⟩
      · exact .inl rfl

/-- A reset ends the running command for the host's caches as a completion does (log entry 14). -/
theorem resetEvent_unsynced (s : State) (landed : Bool) :
    (s.resetEvent landed).unsynced = s.unsyncRunning.unsynced := by
  have hstore : ∀ (job : Job) (a : Nat) (b : Byte),
      (s.engineStore job a b).unsyncRunning.unsynced = s.unsyncRunning.unsynced := by
    intro job a b
    cases hj : s.engine with
    | idle => simp [State.unsyncRunning, hj]
    | run job' => rw [unsyncRunning_run hj, unsyncRunning_run (by exact hj)]; rfl
  cases landed with
  | false => rfl
  | true =>
    rw [State.resetEvent, if_pos rfl, State.resetRegs_unsynced]
    rcases landPending_cases s with h | ⟨job, a, b, h⟩ <;> rw [h]
    exact hstore job a b

/-- A running command that ends leaves the copies of its buffers to be invalidated, whichever way it ends. -/
theorem unsynced_of_end {s t : State} {job : Job} (hi : Inv s) (hj : s.engine = .run job)
    (h : (engineStep s = .next t ∧ t.engine = .idle) ∨ ∃ landed, t = s.resetEvent landed) :
    t.unsynced = (s.unsync job.ends).unsynced := by
  rcases h with ⟨hstep, hidle⟩ | ⟨landed, rfl⟩
  · rw [engineStep_unsynced hi hj hstep, if_pos hidle]
  · rw [resetEvent_unsynced, unsyncRunning_run hj]

/-! ## What keeps the wait -/

section keeps
variable (s : State)

theorem accept_unsynced (w : Word) : (s.accept w).unsynced = s.unsynced := by
  rcases accept_cases w s with h | h | h <;> rw [h] <;> rfl

theorem writeParam_unsynced (f : Params → Params) : (s.writeParam f).unsynced = s.unsynced := by
  unfold State.writeParam
  split <;> rfl

theorem writeReg_unsynced (r : Reg) (w : Word) : (s.writeReg r w).unsynced = s.unsynced := by
  by_cases hr : isParamReg r
  · rw [writeReg_param hr]
    exact writeParam_unsynced s _
  · cases r with
    | cmd =>
      cases hb : s.busy with
      | true => rw [writeReg_cmd_busy hb]; rfl
      | false => rw [writeReg_cmd_idle hb]; exact accept_unsynced s w
    | id | ctrl | status | capLo | capHi | msgLen => rfl
    | _ => simp [isParamReg] at hr

theorem portWrite_unsynced (off : BitVec 8) (width : Width) (w : Word) :
    (s.portWrite off width w).unsynced = s.unsynced := by
  unfold State.portWrite
  split
  · cases regAt off with
    | none => rfl
    | some r => exact writeReg_unsynced s r w
  · rfl

theorem portRead_unsynced (off : BitVec 8) (width : Width) : (s.portRead off width).unsynced = s.unsynced := by
  unfold State.portRead
  split <;> rfl

theorem access_unsynced (addr : Word) (width : Width) (data : Option Word) :
    (s.access addr width data).unsynced = s.unsynced := by
  cases hw : windowOffset s.platform addr with
  | none => rw [access_outside hw]
  | some off =>
    cases data with
    | none => rw [access_read hw]; exact portRead_unsynced s off width
    | some w => rw [access_write hw]; exact portWrite_unsynced s off width w

theorem racedIf_unsynced (meets : List (Nat × Nat) → Bool) : (s.racedIf meets).unsynced = s.unsynced := by
  rcases racedIf_cases meets s with h | ⟨job, -, -, h⟩ <;> rw [h]
  rfl

theorem hostStore_unsynced (a : Nat) (b : Byte) : (s.hostStore a b).unsynced = s.unsynced :=
  racedIf_unsynced (s.hostPut a b) _

theorem busStore_unsynced (a : Nat) (b : Byte) : (s.busStore a b).unsynced = s.unsynced :=
  racedIf_unsynced (s.busPut a b) _

theorem storeBytes_unsynced {store : Nat → Byte → State → State}
    (hst : ∀ (s : State) a b, (store a b s).unsynced = s.unsynced) (a : Nat) (l : List Byte) :
    (s.storeBytes store a l).unsynced = s.unsynced := by
  induction l generalizing a s with
  | nil => rfl
  | cons b l ih => exact (ih (store a b s) (a + 1)).trans (hst s a b)

theorem writeAccess_unsynced {store : Nat → Byte → State → State}
    (hst : ∀ (s : State) a b, (store a b s).unsynced = s.unsynced) (addr : Word) (bytes : List Byte) :
    (s.writeAccess store addr bytes).unsynced = s.unsynced := by
  unfold State.writeAccess
  split
  · exact storeBytes_unsynced s hst _ bytes
  · rfl

theorem readAccess_unsynced (isOpen : Nat → Bool) (addr : Word) (count : Nat) :
    (s.readAccess isOpen addr count).unsynced = s.unsynced := by
  obtain ⟨r, d, h, -⟩ := readAccess_cases isOpen addr count s
  rw [h]

theorem hostBranch_unsynced (taken : Bool) (l : Nat) : (s.hostBranch taken l).unsynced = s.unsynced := by
  obtain ⟨h, e⟩ := hostBranch_eq taken l s
  rw [e]

theorem hostExec_unsynced (op : HostOp) : (s.hostExec op).unsynced = s.unsynced := by
  cases op with
  | wr r v => exact portWrite_unsynced s _ _ _
  | rd r h => exact portRead_unsynced s _ _
  | memw a bytes => exact writeAccess_unsynced s hostStore_unsynced a bytes
  | memr a count => exact readAccess_unsynced s _ a count
  | beq h w l | bne h w l => exact hostBranch_unsynced s _ l
  | set | add | and | label | halt => rfl

theorem hostStep_unsynced : s.hostStep.unsynced = s.unsynced := by
  unfold State.hostStep
  split
  · rfl
  · exact hostExec_unsynced s _

end keeps

section grows
variable {s t : State} {x : Nat}

/-- A step of the engine ends no wait: a completion adds to the copies that wait, a request leaves them. -/
theorem EngineMove.unsynced_grows {job : Job} (h : EngineMove job s t) (hx : x ∈ s.unsynced) : x ∈ t.unsynced := by
  cases hid : t.engine with
  | run job' => rw [h.unsynced_of_run hid]; exact hx
  | idle =>
    cases h with
    | done sc ends c cap len hu h =>
      rw [h, State.complete_unsynced]
      split
      · exact hx
      · exact mem_addRanges.2 (.inl hx)
    | read sc a upd hu h => obtain ⟨-, ⟨-, rfl⟩ | ⟨l, -, rfl⟩⟩ := readRequest_cases h <;> simp at hid
    | write sc sc' a b hu h => obtain ⟨-, ⟨-, rfl⟩ | ⟨l, -, rfl⟩⟩ := writeRequest_cases h <;> simp at hid

theorem unsyncRunning_unsynced_grows (hx : x ∈ s.unsynced) : x ∈ s.unsyncRunning.unsynced := by
  cases hj : s.engine with
  | idle => simpa only [State.unsyncRunning, hj] using hx
  | run job => rw [unsyncRunning_run hj]; exact mem_unsync.2 (.inl hx)

/-- Nothing but an invalidation ends the wait of a copy. -/
theorem eventStep_unsynced_grows {e : Event} (he : ∀ addr count, e ≠ .cacheInvalidate addr count)
    (h : eventStep e s = .next t) (hx : x ∈ s.unsynced) : x ∈ t.unsynced := by
  cases e with
  | engine answer =>
    cases hb : s.busy with
    | true =>
      rw [eventStep_engine_busy answer hb] at h
      obtain ⟨job, hj⟩ := run_of_busy hb
      exact (engineStep_move (s := { s with memAnswer := answer }) hj h).unsynced_grows hx
    | false => rw [eventStep_engine_idle answer hb] at h; cases h; exact hx
  | host => cases h; rw [hostStep_unsynced]; exact hx
  | access addr width data => cases h; rw [access_unsynced]; exact hx
  | memRead addr count => cases h; rw [State.busRead, readAccess_unsynced]; exact hx
  | memWrite addr bytes => cases h; rw [State.busWrite, writeAccess_unsynced s busStore_unsynced]; exact hx
  | cacheClean addr count => cases h; rw [cacheClean_unsynced]; exact hx
  | cacheInvalidate addr count => exact absurd rfl (he addr count)
  | reset landed => cases h; rw [resetEvent_unsynced]; exact unsyncRunning_unsynced_grows hx

end grows

/-- Settles O55: the acceptance sees the host's unwritten bytes; cleaning and invalidating are `State.writeBack`, which
is calm or a race, and what they free and drop; a command that ends leaves `Job.ends` to be invalidated. -/
theorem cacheMaintenanceAroundACommand : Obligations.CacheMaintenanceAroundACommand := by
  refine ⟨fun s a b w hj hc => ⟨accept_before_clean hj hc b, accept_after_clean hj hc b⟩, ?_, ?_,
    fun e s t he h x => eventStep_unsynced_grows he h⟩
  · intro s range inLines clobbered races c v
    have hclob : ∀ x, clobbered x ↔ x ∈ s.staleBeside (s.dirtyIn range) := fun x => mem_staleBeside_dirtyIn.symm
    have hraces : ∀ job, races job ↔ linesMeet s.platform (s.dirtyIn range) job.touched = true :=
      fun job => linesMeet_dirtyIn.symm
    simp only [hclob, hraces]
    have hkept : ∀ (l : List Nat) (x : Nat),
        x ∈ l.filter (fun a => !s.lineIn range a) ↔ x ∈ l ∧ inLines x = false := by
      intro l x
      rw [List.mem_filter, Bool.not_eq_true']
      rfl
    refine ⟨fun x => mem_writeBack_stale, fun x => by rw [cacheInvalidate_stale]; exact hkept _ x,
      cacheClean_unsynced s range, fun x => by rw [cacheInvalidate_unsynced]; exact hkept _ x,
      fun x => by rw [cacheClean_dirty]; exact hkept _ x, fun x => by rw [cacheInvalidate_dirty]; exact hkept _ x,
      fun x => lineIn_of_mem_staleBeside, fun hw x => writeBack_read_clobbered hw,
      fun hw x hd hx => cacheInvalidate_read_dirty hw (mem_dirtyIn.2 ⟨hd, hx⟩), fun hcalm => ?_, fun job hj hm => ?_⟩
    · exact ⟨writeBack_engine_calm hcalm, (cacheInvalidate_engine s range).trans (writeBack_engine_calm hcalm),
        fun x hx => cacheClean_read_other hcalm hx,
        fun x hx hd => cacheInvalidate_read_other hcalm hx fun h => hd (mem_dirtyIn.1 h)⟩
    · exact ⟨by rw [cacheClean_engine, writeBack_race hj hm]; rfl, cacheInvalidate_engine s range⟩
  · intro s t job hi hj h x
    rw [unsynced_of_end hi hj h, mem_unsync]
    refine or_congr_right (and_congr_right fun _ => ?_)
    rw [inRanges_ends]
    refine exists_congr fun i => and_congr_right fun _ => ?_
    cases i with
    | capacity n => simp [endBuffers, inRanges]
    | check n k => simp [endBuffers, inRanges]
    | encode n k => exact (inRanges_unlessFailed _ _ x).trans (and_congr_right' (inRanges_encodeEnds job x))
    | decode n k => exact (inRanges_unlessFailed _ _ x).trans (and_congr_right' (inRanges_decodeEnds n job x))

end Sys2Proof.Machine
end

section
/-! What the decoder answers on a word, by its fields (30_encoding.md R95, R97, R98). -/

namespace Sys2Proof

/-! ## The rows of the opcode map -/

/-- A word that names a command is the word of that command (30_encoding.md R98). -/
theorem encode_of_decode {w : Word} {i : Instr} (h : decode w = .ok i) : encode i = w := by
  rcases decode_cases w with ⟨h', -⟩ | ⟨h', -⟩ | ⟨h', -⟩ | ⟨h', hop, hrsv, hkind⟩ | ⟨h', hop, hrsv⟩ |
    ⟨h', hop, hrsv⟩ | ⟨h', hop, hrsv⟩ <;> rw [h'] at h <;> cases h
  · simpa [encode, hop, hkind] using formatC_of_fields hrsv
  all_goals simpa [encode, hop] using formatC_of_fields hrsv

theorem decode_capacity_iff (w : Word) : (∃ n, decode w = .ok (.capacity n)) ↔ w &&& 0xFFFFFF0F = 0x00000001 := by
  refine ⟨fun ⟨n, h⟩ => encode_of_decode h ▸ Laws.OpcodeRow.capacity n, fun h => ?_⟩
  obtain ⟨hop, hrsv, hkind⟩ := (mask_kind_iff w 1).1 h
  simp [decode, hop, hrsv, hkind]

theorem decode_check_iff (w : Word) : (∃ n k, decode w = .ok (.check n k)) ↔ w &&& 0xFFFFFC0F = 0x00000002 := by
  refine ⟨fun ⟨n, k, h⟩ => encode_of_decode h ▸ Laws.OpcodeRow.check n k, fun h => ?_⟩
  obtain ⟨hop, hrsv⟩ := (mask_iff w 2).1 h
  simp [decode, hop, hrsv]

theorem decode_encode_iff (w : Word) : (∃ n k, decode w = .ok (.encode n k)) ↔ w &&& 0xFFFFFC0F = 0x00000003 := by
  refine ⟨fun ⟨n, k, h⟩ => encode_of_decode h ▸ Laws.OpcodeRow.encode n k, fun h => ?_⟩
  obtain ⟨hop, hrsv⟩ := (mask_iff w 3).1 h
  simp [decode, hop, hrsv]

theorem decode_decode_iff (w : Word) : (∃ n k, decode w = .ok (.decode n k)) ↔ w &&& 0xFFFFFC0F = 0x00000004 := by
  refine ⟨fun ⟨n, k, h⟩ => encode_of_decode h ▸ Laws.OpcodeRow.decode n k, fun h => ?_⟩
  obtain ⟨hop, hrsv⟩ := (mask_iff w 4).1 h
  simp [decode, hop, hrsv]

/-- A word is illegal exactly where it is the word of no row. -/
theorem decode_error_iff_no_row (w : Word) :
    (∃ r, decode w = .error r) ↔ (¬ ∃ n, decode w = .ok (.capacity n)) ∧ (¬ ∃ n k, decode w = .ok (.check n k)) ∧
      (¬ ∃ n k, decode w = .ok (.encode n k)) ∧ ¬ ∃ n k, decode w = .ok (.decode n k) := by
  cases decode w with
  | error r => simp
  | ok i => cases i <;> simp

/-! ## The tests on the fields -/

/-- A word is illegal exactly where it fails one of the first three tests of 30_encoding.md R95. -/
theorem decode_error_iff (w : Word) :
    (∃ r, decode w = .error r) ↔ ¬ (opField w = 1 ∨ opField w = 2 ∨ opField w = 3 ∨ opField w = 4) ∨
      rsvField w ≠ 0 ∨ (opField w = 1 ∧ kindField w ≠ 0) := by
  rcases decode_cases w with ⟨h, hop⟩ | ⟨h, -, hrsv⟩ | ⟨h, hop, -, hkind⟩ | ⟨h, hop, hrsv, hkind⟩ | ⟨h, hop, hrsv⟩ |
    ⟨h, hop, hrsv⟩ | ⟨h, hop, hrsv⟩
  · exact iff_of_true ⟨_, h⟩ (.inl hop)
  · exact iff_of_true ⟨_, h⟩ (.inr (.inl hrsv))
  · exact iff_of_true ⟨_, h⟩ (.inr (.inr ⟨hop, hkind⟩))
  · exact iff_of_false (by simp [h]) (by simp [hop, hrsv, hkind])
  all_goals exact iff_of_false (by simp [h]) (by simp [hop, hrsv])

/-- The values of OP that name no command (30_encoding.md R97). -/
theorem reserved_op_iff (op : BitVec 4) :
    ¬ (op = 1 ∨ op = 2 ∨ op = 3 ∨ op = 4) ↔ op.toNat = 0 ∨ 5 ≤ op.toNat := by revert op; decide

/-- The operands of a command are the word's fields; CAPACITY alone has no kind (30_encoding.md R92, R93). -/
theorem operands_of_decode {w : Word} {i : Instr} (h : decode w = .ok i) :
    i.nbits = (nbitsField w).toNat ∧ i.kind? = if opField w = 1 then none else some (Kind.ofBits (kindField w)) := by
  rcases decode_cases w with ⟨h', -⟩ | ⟨h', -⟩ | ⟨h', -⟩ | ⟨h', hop, -⟩ | ⟨h', hop, -⟩ | ⟨h', hop, -⟩ | ⟨h', hop, -⟩ <;>
    rw [h'] at h <;> cases h
  all_goals exact ⟨rfl, by rw [hop]; rfl⟩

/-- Settles O4: each word is closed, and the decoder computes its command or its reason. -/
theorem exampleWordsDecode : Obligations.ExampleWordsDecode := by
  refine ⟨?_, ?_, ?_, ?_, ?_, ?_, ?_, ?_, ?_, ?_⟩ <;> rfl

end Sys2Proof
end

section
/-! The outcome of a word that fails a test of 30_encoding.md R95: illegal words, depths and kinds. -/

namespace Sys2Proof.Machine

/-! ## The first step on a failing word -/

/-- A depth outside 1 to 8, or a kind that names no variant, fails the prologue. -/
theorem prologue_of_illegal_operand {n : Nat} {k : Option Kind}
    (h : n < 1 ∨ n > 8 ∨ k = some .k2 ∨ k = some .k3) :
    ∃ c, (c = .invalidBitDepth ∨ c = .unsupportedInputType) ∧ prologue n k = some c := by
  rcases prologue_cases n k with h' | h' | h'
  · obtain ⟨h1, h8, hk⟩ := prologue_none h'
    rcases h with h | h | h | h
    · omega
    · omega
    · exact absurd (hk _ h) (by decide)
    · exact absurd (hk _ h) (by decide)
  · exact ⟨_, .inl rfl, h'⟩
  · exact ⟨_, .inr rfl, h'⟩

section start
variable {s : State} {job : Job} {c : Code}

/-- A completion in the first step that records no result writes ERRCODE, DONE and BUSY alone. -/
theorem complete_of_starts (hs : s.starts job) (c : Code) : s.complete job [] c none none = s.finished c := by
  rw [complete_fixed (by rw [hs.2]; rfl), unsync_nil]
  rfl

/-- The first step on an illegal word completes it with code 5 (30_encoding.md R97). -/
theorem engineStep_start_illegal (hs : s.starts job) (hd : ∃ r, Sys2Proof.decode job.word = .error r) :
    engineStep s = .next (s.finished .illegalCommand) := by
  obtain ⟨r, hd⟩ := hd
  rw [engineStep_illegal hs.1 hd, complete_of_starts hs]

/-- An outcome of the prologue records neither a capacity nor a length. -/
theorem records_of_prologue {n n' : Nat} {k : Option Kind} (h : prologue n k = some c) (p : Params) (sc : Scan) :
    capRecord p n' c = none ∧ lenRecord p n' sc c = none := by
  rcases prologue_cases n k with h' | h' | h' <;> rw [h'] at h <;> cases h <;> exact ⟨rfl, rfl⟩

/-- The first step of a command that fails the prologue completes it with the prologue's code (30_encoding.md R95). -/
theorem engineStep_start_prologue {i : Instr} (hs : s.starts job) (hd : Sys2Proof.decode job.word = .ok i)
    (hp : prologue i.nbits i.kind? = some c) : engineStep s = .next (s.finished c) := by
  have hstart : job.scan.next = .start := by rw [hs.2]; rfl
  have hrecord := fun n => records_of_prologue (n' := n) hp job.params job.scan
  rw [engineStep_command hs.1 hd, ← complete_of_starts hs]
  cases i with
  | capacity n =>
    have hc : capacityCode n = c := by rw [capacityCode, show prologue n none = some c from hp]; rfl
    rw [exec_capacity hs.1, hc, (hrecord n).1]
  | check n k =>
    have hc : checkCode n k job.params = c := by rw [checkCode, show prologue n (some k) = some c from hp]
    rw [exec_check hs.1, hc, (hrecord n).1]
  | encode n k =>
    rw [exec_encode_failing (n := n) hs.1 hstart (encodeChecks_prologue job.params hp), (hrecord n).1]
  | decode n k =>
    rw [exec_decode_failing (n := n) hs.1 hstart (decodeChecks_prologue job.params hp), (hrecord n).1, (hrecord n).2]

end start

/-- Settles O3: the masks keep the fields that the decoder tests, and an illegal operand fails the prologue. -/
theorem opcodeMapByMatchAndMask : Obligations.OpcodeMapByMatchAndMask := by
  refine ⟨fun w => ⟨decode_capacity_iff w, decode_check_iff w, decode_encode_iff w, decode_decode_iff w, ?_⟩,
    fun s job i hs hd hi => ?_⟩
  · rw [decode_error_iff_no_row, decode_capacity_iff, decode_check_iff, decode_encode_iff, decode_decode_iff]
  · obtain ⟨c, hc, hp⟩ := prologue_of_illegal_operand hi
    exact ⟨c, hc, engineStep_start_prologue hs hd hp⟩

/-- Settles O5: the first three tests are the decoder's, the last two the prologue's. -/
theorem firstFailingWordTestDecidesTheOutcome : Obligations.FirstFailingWordTestDecidesTheOutcome := by
  intro s job hs op n kind rsv
  have hillegal := fun h => engineStep_start_illegal hs ((decode_error_iff job.word).2 h)
  have hkind_iff : kindField job.word = 0 ↔ kind = 0 := BitVec.toNat_eq
  split
  next hop => exact hillegal (.inl hop)
  next hop =>
  split
  next hrsv => exact hillegal (.inr (.inl hrsv))
  next hrsv =>
  split
  next hkind => exact hillegal (.inr (.inr ⟨hkind.1, mt hkind_iff.1 hkind.2⟩))
  next hkind =>
  obtain ⟨i, hd⟩ : ∃ i, Sys2Proof.decode job.word = .ok i := by
    cases hd : Sys2Proof.decode job.word with
    | ok i => exact ⟨i, rfl⟩
    | error r =>
      rcases (decode_error_iff job.word).1 ⟨r, hd⟩ with h | h | ⟨h1, h⟩
      · exact absurd h hop
      · exact absurd h hrsv
      · exact absurd ⟨h1, mt hkind_iff.2 h⟩ hkind
  obtain ⟨hn, hk⟩ := operands_of_decode hd
  split
  next hdepth => exact engineStep_start_prologue hs hd (prologue_depth _ (by rw [hn]; exact hdepth))
  next hdepth =>
  split
  next hunsupported =>
    have hop1 : opField job.word ≠ 1 := by
      show op ≠ 1
      rcases hunsupported.1 with h | h | h <;> rw [h] <;> decide
    rw [if_neg hop1] at hk
    refine engineStep_start_prologue hs hd ?_
    rw [hk, hn]
    exact prologue_kind hdepth ((ofBits_unsupported _).2 hunsupported.2)
  next => exact ⟨i, hd, hn, engineStep_command hs.1 hd⟩

/-! ## The acceptance of an illegal word -/

theorem touched_of_illegal {job : Job} {r : DecodeReject} (h : Sys2Proof.decode job.word = .error r) :
    job.touched = [] := by
  simp only [Job.touched, h]

/-- An illegal word has no buffer, so nothing of log entry 6 opens it: its acceptance is the latch (10_state.md R40). -/
theorem accept_of_illegal {w : Word} {r : DecodeReject} (h : Sys2Proof.decode w = .error r) (s : State) :
    s.accept w = s.latch w := by
  have ht : Job.touched { word := w, params := s.params, scan := Scan.fresh } = [] := touched_of_illegal h
  simp [State.accept, State.unclean, State.onDevice, linesMeet, ht]

/-- Settles O46: the acceptance is the latch, and the next step is the completion of an illegal word. -/
theorem illegalWordCompletesWithCodeFive : Obligations.IllegalWordCompletesWithCodeFive := by
  intro s w hb hw
  obtain ⟨r, hr⟩ : ∃ r, Sys2Proof.decode w = .error r := by
    rw [decode_error_iff, reserved_op_iff, or_assoc]
    exact hw
  rw [writeReg_cmd_idle hb, accept_of_illegal hr s]
  exact ⟨rfl, engineStep_start_illegal ⟨rfl, rfl⟩ ⟨r, hr⟩⟩

end Sys2Proof.Machine
end

section
/-! The operations of the host agent (30_encoding.md R100). -/

namespace Sys2Proof.Machine

/-! ## What a step of the host does to the host -/

@[simp] theorem HostAgent.put_pc (h : HostAgent) (v : HVar) (w : Word) : (h.put v w).pc = h.pc := by cases v <;> rfl

/-- A write of a variable goes on to the next operation. -/
theorem hostSet_eq (h : HVar) (w : Word) (s : State) :
    s.hostSet h w = { s with host := { s.host.put h w with pc := s.host.pc + 1 } } := by
  simp [State.hostSet, State.hostNext]

/-- After an access that leaves the host as it was, the host goes to its next operation. -/
theorem hostNext_of_host {s t : State} (h : t.host = s.host) :
    t.hostNext = { t with host := { s.host with pc := s.host.pc + 1 } } := by
  rw [State.hostNext, h]

theorem accept_host (w : Word) (s : State) : (s.accept w).host = s.host := by
  rcases accept_cases w s with h | h | h <;> rw [h] <;> rfl

/-- A write of a register leaves the host as it is. -/
theorem writeReg_host (r : Reg) (w : Word) (s : State) : (s.writeReg r w).host = s.host := by
  have hparam : ∀ f, (s.writeParam f).host = s.host := fun f => by
    unfold State.writeParam
    split <;> rfl
  cases r with
  | cmd =>
    cases hb : s.busy with
    | true => rw [writeReg_cmd_busy hb]; rfl
    | false => rw [writeReg_cmd_idle hb]; exact accept_host w s
  | id | ctrl | status | capLo | capHi | msgLen => rfl
  | imgBase | rows | cols | payBase | payLen | outBase | outSize => exact hparam _

theorem hostStore_host (a : Nat) (b : Byte) (s : State) : (s.hostStore a b).host = s.host := by
  unfold State.hostStore
  rcases racedIf_cases (inRanges a) (s.hostPut a b) with h | ⟨job, -, -, h⟩ <;> rw [h] <;> rfl

theorem storeBytes_host {store : Nat → Byte → State → State} (hst : ∀ a b s, (store a b s).host = s.host) (a : Nat)
    (s : State) (l : List Byte) : (s.storeBytes store a l).host = s.host := by
  induction l generalizing a s with
  | nil => rfl
  | cons b l ih => exact (ih (a + 1) (store a b s)).trans (hst a b s)

theorem hostWrite_host (addr : Word) (bytes : List Byte) (s : State) : (s.hostWrite addr bytes).host = s.host := by
  unfold State.hostWrite State.writeAccess
  split
  · exact storeBytes_host hostStore_host addr.toNat s bytes
  · rfl

theorem hostRead_host (addr : Word) (count : Nat) (s : State) : (s.hostRead addr count).host = s.host := by
  obtain ⟨r, d, h, -⟩ := readAccess_cases s.hostReadIsOpen addr count s
  rw [State.hostRead, h]

/-! ## The operations -/

theorem hostExec_rd (r : Reg) (h : HVar) (s : State) :
    s.hostExec (.rd r h) = { s with
      reply := .data (s.readReg r), host := { s.host.put h (s.readReg r) with pc := s.host.pc + 1 } } := by
  rw [State.hostExec, portRead_reg, hostSet_eq]

theorem hostExec_wr (r : Reg) (v : HArg) (s : State) :
    s.hostExec (.wr r v) = { s.writeReg r (s.host.arg v) with
      reply := .okay, host := { s.host with pc := s.host.pc + 1 } } := by
  rw [State.hostExec, portWrite_reg]
  exact hostNext_of_host (writeReg_host r _ s)

/-- A host that has an operation left executes it; past HALT and past the program's end it has none (log entry 12). -/
theorem hostStep_eq (s : State) :
    s.hostStep = if s.host.halted then s else (s.host.prog[s.host.pc]?).elim s s.hostExec := by
  unfold State.hostStep HostAgent.op?
  cases s.host.halted with
  | true => rfl
  | false => cases h : s.host.prog[s.host.pc]? <;> simp

/-- Settles O58: no access changes the host, so each operation leaves it at the next one, or where the branch goes; an
access past the address space moves no byte. -/
theorem hostOperationsComplete : Obligations.HostOperationsComplete := by
  refine ⟨fun s h r imm v l => ?_, fun s h imm target => ?_, fun s addr bytes count => ?_, fun s => ?_⟩
  · have hwr := hostExec_wr r v s
    exact ⟨hostSet_eq h _ s, hostSet_eq h _ s, hostSet_eq h _ s, hostExec_rd r h s, by cases v <;> exact hwr, rfl, rfl⟩
  · intro next go
    have htaken : ∀ {taken}, taken = true → s.hostBranch taken target = go := fun ht => by rw [ht]; rfl
    have hnext : ∀ {taken}, taken = false → s.hostBranch taken target = next := fun ht => by rw [ht]; rfl
    by_cases hv : s.host.get h = imm
    · rw [if_pos hv, if_pos hv]
      exact ⟨htaken (beq_iff_eq.2 hv), hnext (bne_eq_false_iff_eq.2 hv)⟩
    · rw [if_neg hv, if_neg hv]
      exact ⟨hnext (beq_eq_false_iff_ne.2 hv), htaken (bne_iff_ne.2 hv)⟩
  · have hw := hostWrite_host addr bytes s
    have hr := hostRead_host addr count s
    exact ⟨hw, hr, hostNext_of_host hw, hostNext_of_host hr,
      fun h => ⟨writeAccess_outside _ s h, writeAccess_outside _ s h⟩,
      fun h => ⟨readAccess_outside _ s h, readAccess_outside _ s h⟩⟩
  · rw [eventStep, hostStep_eq]
    cases s.host.prog[s.host.pc]? <;> rfl

end Sys2Proof.Machine
end

section
/-! The bytes that reads and writes of system memory move (20_memory.md R68, R74 to R76, R80). -/

namespace Sys2Proof.Machine

/-! ## Which bytes of a read are open -/

theorem hostReadIsOpen_iff (s : State) (a : Nat) : s.hostReadIsOpen a = true ↔
    s.owned a = true ∨ a ∈ s.unsynced ∨ a ∈ s.stale ∨ inRanges a s.platform.devices = true := by
  simp [State.hostReadIsOpen, or_assoc]

theorem busReadIsOpen_iff (s : State) (a : Nat) : s.busReadIsOpen a = true ↔
    s.owned a = true ∨ a ∈ s.dirty ∨ inRanges a s.platform.devices = true := by
  simp [State.busReadIsOpen, or_assoc]

/-- A read inside the address space gives a fresh free value for each open byte, and the byte of memory for every other
one. -/
theorem readAccess_bytes (isOpen : Nat → Bool) {addr : Word} {count : Nat} (s : State)
    (h : addr.toNat + count ≤ 2 ^ 32) :
    ∃ l d, s.readAccess isOpen addr count = { s with reply := .bytes l, draws := d } ∧ l.length = count ∧
      ∀ i < count, if isOpen (addr.toNat + i) = true then ∃ e, s.draws ≤ e ∧ e < d ∧ l.getD i 0 = Config.freeByte e
        else l.getD i 0 = s.mem.read (addr.toNat + i) := by
  refine ⟨_, _, readAccess_inside isOpen s h, readBytes_length _ _ _ _ _, fun i hi => ?_⟩
  obtain ⟨hclosed, hopen⟩ := readBytes_byte isOpen s.mem (a := addr.toNat) (d := s.draws) hi
  split
  next ho => exact hopen ho
  next ho => exact hclosed (Bool.eq_false_iff.2 ho)

/-! ## A quiet host -/

section quiet
variable {s : State} (hidle : s.engine = .idle) (hstale : s.stale = [])
include hidle hstale

/-- Where nothing is open a read gives the bytes of memory and uses no free value. -/
theorem hostRead_quiet (hdev : s.platform.devices = []) (hsync : s.unsynced = []) {addr : Word} {count : Nat}
    (h : addr.toNat + count ≤ 2 ^ 32) :
    s.hostRead addr count =
      { s with reply := .bytes ((List.range count).map fun i => s.mem.read (addr.toNat + i)) } := by
  have hclosed : ∀ i < count, s.hostReadIsOpen (addr.toNat + i) = false := fun i _ => by
    simp [State.hostReadIsOpen, State.owned, hidle, hstale, hdev, hsync, inRanges]
  rw [State.hostRead, readAccess_inside _ s h, readBytes_closed _ _ hclosed]

/-- On coherent memory one byte of the host changes that byte of memory and nothing else. -/
theorem hostStore_quiet (hc : s.platform.hostCoherent = true) (a : Nat) (b : Byte) :
    s.hostStore a b = { s with mem := s.mem.write a b } := by
  rw [hostStore_idle hidle]
  simp [State.hostPut, hc, hstale]

/-- So do several bytes: each stands at its address, and every other one is kept. -/
theorem storeBytes_quiet (hc : s.platform.hostCoherent = true) (hw : s.mem.wf = true) (a : Nat) (bytes : List Byte) :
    ∃ m, s.storeBytes State.hostStore a bytes = { s with mem := m } ∧ m.wf = true ∧
      (∀ i < bytes.length, m.read (a + i) = bytes.getD i 0) ∧
      ∀ x, x < a ∨ a + bytes.length ≤ x → m.read x = s.mem.read x := by
  induction bytes generalizing s a with
  | nil => exact ⟨s.mem, rfl, hw, by simp, fun _ _ => rfl⟩
  | cons b bytes ih =>
    obtain ⟨m, hm, hmw, hread, hother⟩ :=
      ih (s := { s with mem := s.mem.write a b }) hidle hstale hc (Memory.wf_write hw a b) (a + 1)
    rw [State.storeBytes, hostStore_quiet hidle hstale hc]
    refine ⟨m, hm, hmw, fun i hi => ?_, fun x hx => ?_⟩
    · cases i with
      | zero => exact (hother a (by omega)).trans (Memory.read_write_same hw a b)
      | succ i =>
        have := hread i (by simpa using hi)
        rwa [Nat.add_right_comm] at this
    · rw [List.length_cons] at hx
      exact (hother x (by omega)).trans (Memory.read_write_other _ b (by omega))

end quiet

/-- Settles O59: an idle engine owns no byte, so with no open copy the host's accesses are those of memory; in every
state `readBytes` says what each byte of a read is. -/
theorem hostMemoryAccessesComplete : Obligations.HostMemoryAccessesComplete := by
  refine ⟨fun s addr hidle hc hdev hsync hstale => ⟨fun count h => hostRead_quiet hidle hstale hdev hsync h,
    fun bytes h hw => ?_⟩, fun s addr count h => ⟨?_, ?_⟩⟩
  · obtain ⟨m, hm, hbytes⟩ := storeBytes_quiet hidle hstale hc hw addr.toNat bytes
    exact ⟨m, by rw [State.hostWrite, writeAccess_inside _ s h, hm], hbytes⟩
  · simpa only [State.hostRead, hostReadIsOpen_iff] using readAccess_bytes s.hostReadIsOpen s h
  · simpa only [State.busRead, busReadIsOpen_iff] using readAccess_bytes s.busReadIsOpen s h

end Sys2Proof.Machine
end

section
/-! The planner (40_planner.md): the completions of CAPACITY and CHECK, what a completion records in CAP, and the room
for the payload's bits. -/

namespace Sys2Proof.Machine

/-! ## CAPACITY and CHECK -/

section planner
variable {n : Nat} {k : Kind} {s : State} {job : Job}

/-- The completion of a command that has had no buffers and records no length writes CAP, ERRCODE, DONE and BUSY alone
(60_exceptions.md R205). -/
theorem complete_planner (hu : job.scan.unfixed = false) (c : Code) (cap : Option (BitVec 34)) :
    s.complete job [] c cap none = { s.finished c with cap := cap.getD s.cap } := by
  rw [complete_fixed hu, unsync_nil]
  rfl

theorem capacityCode_depth (h : n < 1 ∨ n > 8) : capacityCode n = .invalidBitDepth := by
  rw [capacityCode, prologue_depth none h]
  rfl

theorem capacityCode_legal (h : ¬ (n < 1 ∨ n > 8)) : capacityCode n = .ok := by
  rw [capacityCode, prologue_no_kind h]
  rfl

theorem checkCode_prologue {c : Code} (p : Params) (h : prologue n (some k) = some c) : checkCode n k p = c := by
  rw [checkCode, h]

/-- CHECK after the prologue answers code 1 where the payload does not fit (40_planner.md R114). -/
theorem checkCode_over {p : Params} (h : prologue n (some k) = none) (hfit : p.effLen > p.capacity n) :
    checkCode n k p = .insufficientCapacity := by
  simp [checkCode, h, Params.fits, hfit]

/-- CHECK after the prologue answers code 0 where the payload fits (40_planner.md R114). -/
theorem checkCode_fits {p : Params} (h : prologue n (some k) = none) (hfit : ¬ p.effLen > p.capacity n) :
    checkCode n k p = .ok := by
  simp [checkCode, h, Params.fits, Nat.le_of_not_gt hfit]

end planner

/-- Settles O21: the one step is the completion, with the code of the prologue or code 0. -/
theorem capacityCompletes : Obligations.CapacityCompletes := by
  intro n s job hj hu
  rw [exec_capacity hj, complete_planner hu]
  split
  next hn => rw [capacityCode_depth hn]; rfl
  next hn => rw [capacityCode_legal hn]; rfl

/-- Settles O22: the one step is the completion, with the code of the prologue or of the comparison. -/
theorem checkCompletes : Obligations.CheckCompletes := by
  intro n k s job hj hu cap
  rw [exec_check hj, complete_planner hu]
  split
  next hn => rw [checkCode_prologue _ (prologue_depth _ hn)]; rfl
  next hn =>
  split
  next hk => rw [checkCode_prologue _ (prologue_kind hn hk)]; rfl
  next hk =>
  split
  next hfit => rw [checkCode_over (prologue_legal hn hk) hfit]; rfl
  next hfit => rw [checkCode_fits (prologue_legal hn hk) hfit]; rfl

/-! ## The capacity that a completion records -/

/-- The outcomes of the prologue and of an illegal word record no capacity (40_planner.md R111). -/
theorem capRecord_none (p : Params) (n : Nat) {c : Code}
    (h : c = .invalidBitDepth ∨ c = .unsupportedInputType ∨ c = .illegalCommand) : capRecord p n c = none := by
  rcases h with rfl | rfl | rfl <;> rfl

/-- Every other outcome records CAP (60_exceptions.md R200). -/
theorem capRecord_some (p : Params) (n : Nat) {c : Code}
    (h : ¬ (c = .invalidBitDepth ∨ c = .unsupportedInputType ∨ c = .illegalCommand)) :
    capRecord p n c = some (p.capField n) := by
  cases c with
  | invalidBitDepth => exact absurd (.inl rfl) h
  | unsupportedInputType => exact absurd (.inr (.inl rfl)) h
  | illegalCommand => exact absurd (.inr (.inr rfl)) h
  | _ => rfl

section cap
variable {n : Nat} {job : Job} {s t : State}

/-- A read request keeps the command running. -/
theorem readRequest_not_idle {a : Nat} {upd : Byte → Scan} (h : readRequest job a upd s = .next t) :
    t.engine ≠ .idle := by
  obtain ⟨-, ⟨-, rfl⟩ | ⟨l, -, rfl⟩⟩ := readRequest_cases h <;> simp

/-- A write request keeps the command running. -/
theorem writeRequest_not_idle {a : Nat} {b : Byte} {sc : Scan} (h : writeRequest job a b sc s = .next t) :
    t.engine ≠ .idle := by
  obtain ⟨-, ⟨-, rfl⟩ | ⟨l, -, rfl⟩⟩ := writeRequest_cases h <;> simp

/-- A completion that records the capacity of its own outcome leaves CAP as the final ERRCODE says. -/
theorem complete_capRecord (hu : job.scan.unfixed = false) (ends : List (Nat × Nat)) (c : Code) (len : Option Word) :
    let t := s.complete job ends c (capRecord job.params n c) len
    t.cap = (capRecord job.params n t.errcode).getD s.cap := by
  simp [hu]

theorem encodeStep_cap (hu : job.scan.unfixed = false) (h : encodeStep n job s = .next t) (ht : t.engine = .idle) :
    t.cap = (capRecord job.params n t.errcode).getD s.cap := by
  unfold encodeStep at h
  split at h
  · cases h; exact complete_capRecord hu _ _ _
  · exact absurd ht (readRequest_not_idle h)
  · exact absurd ht (writeRequest_not_idle h)
  · exact absurd ht (readRequest_not_idle h)
  · exact absurd ht (readRequest_not_idle h)

theorem decodeStep_cap (hu : job.scan.unfixed = false) (h : decodeStep n job s = .next t) (ht : t.engine = .idle) :
    t.cap = (capRecord job.params n t.errcode).getD s.cap := by
  unfold decodeStep at h
  split at h
  · cases h; exact complete_capRecord hu _ _ _
  · exact absurd ht (writeRequest_not_idle h)
  · exact absurd ht (readRequest_not_idle h)
  · exact absurd ht (readRequest_not_idle h)
  · exact absurd ht (readRequest_not_idle h)

/-- The completion of each of the four commands leaves CAP as its ERRCODE says (10_state.md R51). -/
theorem exec_cap {i : Instr} (hj : s.engine = .run job) (hu : job.scan.unfixed = false) (h : exec i s = .next t)
    (ht : t.engine = .idle) : t.cap = (capRecord job.params i.nbits t.errcode).getD s.cap := by
  cases i with
  | capacity n => rw [exec_capacity hj] at h; cases h; exact complete_capRecord hu _ _ _
  | check n k => rw [exec_check hj] at h; cases h; exact complete_capRecord hu _ _ _
  | encode n k =>
    rcases exec_encode_cases n k job with ⟨c, he⟩ | ⟨sc, hsc, he⟩ <;> rw [he s hj] at h
    · cases h; exact complete_capRecord hu _ _ _
    · exact encodeStep_cap (job := { job with scan := sc }) (hsc.trans hu) h ht
  | decode n k =>
    rcases exec_decode_cases n k job with ⟨c, he⟩ | ⟨sc, hsc, he⟩ <;> rw [he s hj] at h
    · cases h; exact complete_capRecord hu _ _ _
    · exact decodeStep_cap (job := { job with scan := sc }) (hsc.trans hu) h ht

end cap

/-- Settles O18: CAP is as `exec_cap` says, and its two registers hold all of its 34 bits. -/
theorem completionRecordsTheCapacity : Obligations.CompletionRecordsTheCapacity := by
  intro i s t job hj hu h ht
  have hcap := exec_cap hj hu h ht
  split
  next hc => rw [hcap, capRecord_none _ _ hc]; rfl
  next hc =>
    rw [capRecord_some _ _ hc] at hcap
    refine ⟨hcap, fun hn => ?_⟩
    calc (t.readReg .capHi).toNat * 2 ^ 32 + (t.readReg .capLo).toNat
      _ = t.cap.toNat := cap_halves t.cap
      _ = (job.params.capField i.nbits).toNat := congrArg BitVec.toNat hcap
      _ = job.params.capacity i.nbits := capField_toNat _ hn

/-! ## Room for every bit -/

/-- Settles O24: the bits of a payload that fits are fewer than the plane bits, so each visit has a plane among `n` and
the image is not empty; checks that pass include the fit. -/
theorem fittingImpliesRoomForEveryBit : Obligations.FittingImpliesRoomForEveryBit := by
  refine fun p n => ⟨fun hfit => ?_, fun kind hc => (encodeReady hc).fits⟩
  have hbits : p.totalBits ≤ 8 * p.capacity n := Nat.mul_le_mul_left 8 hfit
  have hroom : 8 * p.capacity n ≤ p.channelCount * n := eight_capacity_le p n
  refine ⟨hbits, hroom, fun k hk => ?_⟩
  have hvisit : k < p.channelCount * n := hk.trans_le (hbits.trans hroom)
  have hpos : 0 < p.channelCount := Nat.pos_of_mul_pos_right (Nat.zero_lt_of_lt hvisit)
  exact ⟨Nat.succ_pos _, visitPlane_le hvisit, visitOffset_lt hpos k⟩

end Sys2Proof.Machine
end

section
/-! The packer (41_packer.md): the checks of ENCODE, its steps one by one, and what its run leaves in memory. -/

namespace Sys2Proof.Machine

/-! ## Steps of a command whose bytes the spec fixes -/

section fixed
variable {s : State} {job : Job} {a : Nat}

/-- A read request answered OKAY changes the scan state and the spent answer alone (20_memory.md R70). -/
theorem readRequest_okay_fixed {upd : Byte → Scan} (hu : job.scan.unfixed = false) (ha : a < Config.addrSpace)
    (hv : s.verdict = .okay) :
    readRequest job a upd s =
      .next { s with memAnswer := .okay, engine := .run { job with scan := upd (s.mem.read a) } } := by
  rw [readRequest_okay ha hv, State.afterRead, engineLoad_fixed hu, State.engineByte_fixed hu]
  rfl

/-- A write request answered OKAY changes its byte, the host's stale copies, the scan state and the spent answer alone
(20_memory.md R70, R80). -/
theorem writeRequest_okay_fixed {b : Byte} {sc : Scan} (hu : job.scan.unfixed = false) (ha : a < Config.addrSpace)
    (hv : s.verdict = .okay) :
    writeRequest job a b sc s =
      .next { s with
        memAnswer := .okay
        mem := s.mem.write a b
        stale := if s.platform.hostCoherent then s.stale else addAddr s.stale a
        engine := .run { job with scan := sc } } := by
  have hdraws : job.scan.drawsUsed = 0 := if_neg (by simp [hu])
  rw [writeRequest_okay ha hv, State.engineStore, hdraws, hu]
  rfl

end fixed

/-! ## The checks -/

/-- The first step of an ENCODE that fails a check writes CAP, ERRCODE, DONE and BUSY alone (60_exceptions.md R201). -/
theorem exec_encode_start_failing {n : Nat} {k : Kind} {s : State} {job : Job} {c : Code} (hs : s.starts job)
    (hc : encodeChecks n k job.params = some c) :
    exec (.encode n k) s = .next { s.finished c with cap := (capRecord job.params n c).getD s.cap } := by
  obtain ⟨hj, hsc⟩ := hs
  rw [exec_encode_failing hj (by rw [hsc]; rfl) hc, complete_planner (by rw [hsc]; rfl)]

/-- Settles O25: the prologue fails first, then `encodeChecks_legal` gives the tests in their order. -/
theorem encodeChecksInOrder : Obligations.EncodeChecksInOrder := by
  intro n k s job hs p count cap len img pay
  split
  next hn => exact exec_encode_start_failing hs (encodeChecks_prologue _ (prologue_depth _ hn))
  next hn =>
  split
  next hk => exact exec_encode_start_failing hs (encodeChecks_prologue _ (prologue_kind hn hk))
  next hk =>
  have hchecks := encodeChecks_legal p (prologue_legal hn hk)
  split
  next hfit => exact exec_encode_start_failing hs (hchecks.trans (if_pos hfit))
  next hfit =>
  replace hchecks := hchecks.trans (if_neg hfit)
  split
  next hrange => exact exec_encode_start_failing hs (hchecks.trans (if_pos hrange))
  next hrange =>
  replace hchecks := hchecks.trans (if_neg hrange)
  split
  next hover => exact exec_encode_start_failing hs (hchecks.trans (if_pos hover))
  next hover => exact hchecks.trans (if_neg hover)

/-! ## The requests -/

/-- Settles O27: each place of a visit is one request, and `encodeVisit` is the place after its write. -/
theorem encodeRequestSequence : Obligations.EncodeRequestSequence := by
  intro n k s job hj hu hv p sc pay img
  refine ⟨fun hn hpay => ?_, fun hn himg => ?_, fun hn himg => ?_⟩
  · exact (exec_encode_payload hj hn).trans (readRequest_okay_fixed hu hpay hv)
  · exact (exec_encode_read hj hn).trans (readRequest_okay_fixed hu himg hv)
  · exact (exec_encode_write hj hn).trans (writeRequest_okay_fixed hu himg hv)

/-- ENCODE begins at visit 0, with its payload byte where there is one and else with the sentinel byte (41_packer.md
R132 step 1). -/
theorem encodeVisit_zero (p : Params) (sc : Scan) :
    encodeVisit p 0 sc =
      if 0 < p.payLen.toNat then { sc with k := 0, next := .payload }
      else { sc with k := 0, pb := Config.sentByte, next := .read } := by
  have hT : 0 < p.totalBits := by unfold Params.totalBits Params.effLen Config.sentLen; omega
  simp [encodeVisit, hT]

/-- Settles O26: the first step is the first request of visit 0, a payload byte or the first channel value. -/
theorem encodeMakesItsFirstRequest : Obligations.EncodeMakesItsFirstRequest := by
  intro n k s job hs hv hc
  have hrequests := fun sc hu => encodeRequestSequence n k (s.withScan job sc) { job with scan := sc } rfl hu hv
  rw [encode_start_eq hs hc, encodeVisit_zero, show job.scan = Scan.fresh from hs.2]
  split
  next hpay =>
    obtain ⟨hpayload, -, -⟩ := hrequests { Scan.fresh with next := .payload } rfl
    simpa using hpayload rfl (by simpa using job.params.payBase.isLt)
  next hpay =>
    obtain ⟨-, hread, -⟩ := hrequests { Scan.fresh with pb := Config.sentByte, next := .read } rfl
    simpa [Config.sentByte] using hread rfl (by simpa using job.params.imgBase.isLt)

/-! ## The completion -/

/-- Settles O28: the step is the completion with the image as the buffer to invalidate; both codes record CAP. -/
theorem encodeCompletes : Obligations.EncodeCompletes := by
  intro n k s job c hj hu hn hc count
  have hcap : capRecord job.params n c = some (job.params.capField n) := by rcases hc with rfl | rfl <;> rfl
  have hends : job.encodeEnds = [(job.params.imgBase.toNat, job.params.channelCount)] := by
    simp [Job.encodeEnds, hu]
  rw [exec_encode_finish hj hn, complete_fixed hu, hcap, hends]
  rfl

/-! ## The run -/

/-- Past the last visit ENCODE goes to completion with code 0 (41_packer.md R134). -/
theorem encodeVisit_totalBits (p : Params) (sc : Scan) :
    encodeVisit p p.totalBits sc = { sc with k := p.totalBits, next := .finish .ok } := by
  simp [encodeVisit]

/-- The bits of the effective payload all stand in planes 1 to `n` (40_planner.md R116). -/
theorem EncodeReady.plane_lt {n : Nat} {p : Params} (hr : EncodeReady n p) {b j : Nat}
    (h : b * p.channelCount + j < p.totalBits) : b < n := by
  have hroom : b * p.channelCount < n * p.channelCount := by
    have := hr.totalBits_le
    rw [Nat.mul_comm n]
    omega
  exact Nat.lt_of_mul_lt_mul_right hroom

/-- Settles O29: `encode_run` (an induction over the visits) reaches the end of the scan with the image that R133
describes, and the next step is the completion. -/
theorem encodeEmbedsThePayload : Obligations.EncodeEmbedsThePayload := by
  intro n k s job hs hv hwf hc p count bits
  obtain ⟨u, hrun, hend⟩ := encode_run hs hv hwf hc
  obtain ⟨sc, hrunning, hu, -⟩ := hend.engine
  rw [encodeVisit_totalBits] at hrunning
  have hfinish := encodeCompletes n k u _ .ok hrunning hu rfl (.inl rfl)
  have hall := (execTimes_add hrun).trans (execTimes_one hfinish)
  refine ⟨⟨u, hrun, busy_of_run hrunning⟩, _, hall, rfl, rfl, rfl, rfl, hend.msgLen, execTimes_frame hall, ?_,
    hend.image.outside⟩
  intro j hj b hb
  have hplane : b * count + j < bits → b < n := (encodeReady hc).plane_lt
  exact (hend.image.image j hj b hb).trans (if_congr (and_iff_right_of_imp hplane).symm rfl rfl)

/-! ## The payload kinds -/

/-- Raw and text are the two supported kinds, so the prologue answers the same for both (30_encoding.md R93). -/
theorem prologue_raw_text (n : Nat) : prologue n (some .raw) = prologue n (some .text) := by
  simp [prologue, Kind.supported]

theorem checkCode_raw_text (n : Nat) (p : Params) : checkCode n .raw p = checkCode n .text p := by
  simp only [checkCode, prologue_raw_text]

theorem encodeChecks_raw_text (n : Nat) (p : Params) : encodeChecks n .raw p = encodeChecks n .text p := by
  simp only [encodeChecks, prologue_raw_text]

theorem decodeChecks_raw_text (n : Nat) (p : Params) : decodeChecks n .raw p = decodeChecks n .text p := by
  simp only [decodeChecks, prologue_raw_text]

/-- Settles O37: a step looks at the kind in its checks alone, and the checks do not tell raw from text. -/
theorem rawAndTextAreProcessedIdentically : Obligations.RawAndTextAreProcessedIdentically := by
  refine fun n s => ⟨?_, ?_, ?_⟩
  · simp only [exec, execCheck, checkCode_raw_text]
  · simp only [exec, execEncode, encodeChecks_raw_text]
  · simp only [exec, execDecode, decodeChecks_raw_text]

end Sys2Proof.Machine
end

section
/-! What is found of a sentinel in a byte sequence that grows, and in one that ends with it (43_bit_helpers.md R175). -/

namespace Sys2Proof.Machine

/-! ## The first sentinel of a longer sequence -/

theorem firstSent_found {b : List Byte} {m : Nat} (h : firstSent b = some m) :
    sentAt b m ∧ ∀ j < m, ¬ sentAt b j := by
  simpa only [h] using firstSent_spec b

/-- A sentinel inside the first part of a sequence is one of that part. -/
theorem sentAt_append {b : List Byte} (c : List Byte) {j : Nat} (h : j + 5 ≤ b.length) :
    sentAt (b ++ c) j ↔ sentAt b j := by
  have hbytes : ∀ t < 5, (b ++ c).getD (j + t) 0 = b.getD (j + t) 0 :=
    fun t ht => List.getD_append _ _ _ _ (by omega)
  have hlen : j + 5 ≤ (b ++ c).length := by rw [List.length_append]; omega
  constructor
  · exact fun hs => ⟨h, fun t ht => (hbytes t ht).symm.trans (hs.2 t ht)⟩
  · exact fun hs => ⟨hlen, fun t ht => (hbytes t ht).trans (hs.2 t ht)⟩

/-- Bytes that follow do not change the first sentinel. -/
theorem firstSent_of_prefix {b c : List Byte} {m : Nat} (hbc : b <+: c) (h : firstSent b = some m) :
    firstSent c = some m := by
  obtain ⟨r, rfl⟩ := hbc
  obtain ⟨hm, hleast⟩ := firstSent_found h
  have hlen := hm.1
  exact firstSent_eq_some ((sentAt_append r hlen).2 hm) fun j hj hs =>
    hleast j hj ((sentAt_append r (by omega)).1 hs)

/-! ## A sequence that ends with the sentinel -/

section append
variable {b : List Byte} {m : Nat}

theorem getD_append_sentinel {i : Nat} (hi : i < b.length + 5) :
    (b ++ sentinel).getD i 0 = if i < b.length then b.getD i 0 else Config.sentByte := by
  split
  next h => exact List.getD_append _ _ _ _ h
  next h =>
    rw [List.getD_append_right _ _ _ _ (Nat.le_of_not_lt h)]
    exact List.getD_replicate _ (by rw [Config.sentLen]; omega)

/-- Only the bytes before the appended sentinel decide whether a sentinel begins at or before its place. -/
theorem sentAt_append_sentinel (hm : m ≤ b.length) :
    sentAt (b ++ sentinel) m ↔ ∀ i, m ≤ i → i < m + 5 → i < b.length → b.getD i 0 = Config.sentByte := by
  constructor
  · intro h i hmi hi hb
    have hbyte := h.2 (i - m) (by omega)
    rwa [Nat.add_sub_cancel' hmi, getD_append_sentinel (by omega), if_pos hb] at hbyte
  · refine fun h => ⟨by simpa [sentinel, Config.sentLen] using hm, fun t ht => ?_⟩
    rw [getD_append_sentinel (by omega)]
    split
    next hb => exact h _ (Nat.le_add_right m t) (by omega) hb
    next => rfl

/-- The first sentinel begins at the appended one or before it. -/
theorem firstSent_append_sentinel (b : List Byte) : ∃ m ≤ b.length, firstSent (b ++ sentinel) = some m := by
  have hend : sentAt (b ++ sentinel) b.length := (sentAt_append_sentinel (le_refl _)).2 fun i _ _ _ => by omega
  have hspec := firstSent_spec (b ++ sentinel)
  cases hf : firstSent (b ++ sentinel) with
  | none => rw [hf] at hspec; exact absurd hend (hspec _)
  | some m => rw [hf] at hspec; exact ⟨m, Nat.le_of_not_lt fun hlt => hspec.2 _ hlt hend, rfl⟩

/-- The last byte of a sequence that is not empty. -/
theorem getLast?_eq_getD (hb : b ≠ []) : b.getLast? = some (b.getD (b.length - 1) 0) := by
  have hlen : b.length - 1 < b.length := Nat.sub_lt (List.length_pos_of_ne_nil hb) Nat.one_pos
  rw [List.getLast?_eq_getElem?, List.getElem?_eq_getElem hlen, List.getD_eq_getElem _ _ hlen]

/-- The appended sentinel is the first one exactly where none stands before it and none begins with the bytes before it,
which are then all sentinel bytes (42_unpacker.md R157). -/
theorem firstSent_append_sentinel_eq_length (h : firstSent (b ++ sentinel) = some m) (hle : m ≤ b.length) :
    m = b.length ↔ firstSent b = none ∧ (b = [] ∨ b.getLast? ≠ some 0x3D) := by
  obtain ⟨hm, hleast⟩ := firstSent_found h
  constructor
  · rintro rfl
    refine ⟨firstSent_eq_none fun j hj => ?_, ?_⟩
    · have hlen := hj.1
      exact hleast j (by omega) ((sentAt_append _ hlen).2 hj)
    · by_contra hno
      obtain ⟨hne, hlast⟩ : b ≠ [] ∧ b.getLast? = some 0x3D := by simpa using hno
      have hpos := List.length_pos_of_ne_nil hne
      rw [getLast?_eq_getD hne, Option.some_inj] at hlast
      refine hleast (b.length - 1) (by omega) ((sentAt_append_sentinel (by omega)).2 fun i hi _ hb => ?_)
      rwa [show i = b.length - 1 by omega]
  · rintro ⟨hnone, hlast⟩
    refine Nat.le_antisymm hle (Nat.le_of_not_lt fun hlt => ?_)
    by_cases hin : m + 5 ≤ b.length
    · have hsome := firstSent_spec b
      rw [hnone] at hsome
      exact hsome m ((sentAt_append _ hin).1 hm)
    · have hne : b ≠ [] := List.ne_nil_of_length_pos (Nat.zero_lt_of_lt hlt)
      have hbyte := (sentAt_append_sentinel hle).1 hm (b.length - 1) (by omega) (by omega) (by omega)
      exact hlast.elim hne fun hl => hl ((getLast?_eq_getD hne).trans (congrArg some hbyte))

end append

end Sys2Proof.Machine
end

section
/-! The unpacker (42_unpacker.md): the checks of DECODE, its steps one by one, and what its run leaves in memory. -/

namespace Sys2Proof.Machine

/-! ## The checks -/

/-- The first step of a DECODE that fails a check whose code records no length writes CAP, ERRCODE, DONE and BUSY alone
(60_exceptions.md R201). -/
theorem exec_decode_start_failing {n : Nat} {k : Kind} {s : State} {job : Job} {c : Code} (hs : s.starts job)
    (hc : decodeChecks n k job.params = some c) (hlen : lenRecord job.params n job.scan c = none) :
    exec (.decode n k) s = .next { s.finished c with cap := (capRecord job.params n c).getD s.cap } := by
  obtain ⟨hj, hsc⟩ := hs
  rw [exec_decode_failing hj (by rw [hsc]; rfl) hc, hlen, complete_planner (by rw [hsc]; rfl)]

/-- Settles O30: the prologue fails first, then `decodeChecks_legal` gives the tests in their order. -/
theorem decodeChecksInOrder : Obligations.DecodeChecksInOrder := by
  intro n k s job hs p count cap img out
  split
  next hn => exact exec_decode_start_failing hs (decodeChecks_prologue _ (prologue_depth _ hn)) rfl
  next hn =>
  split
  next hk => exact exec_decode_start_failing hs (decodeChecks_prologue _ (prologue_kind hn hk)) rfl
  next hk =>
  have hchecks := decodeChecks_legal p (prologue_legal hn hk)
  split
  next hsize => exact exec_decode_start_failing hs (hchecks.trans (if_pos hsize)) rfl
  next hsize =>
  replace hchecks := hchecks.trans (if_neg hsize)
  split
  next hrange => exact exec_decode_start_failing hs (hchecks.trans (if_pos hrange)) rfl
  next hrange =>
  replace hchecks := hchecks.trans (if_neg hrange)
  split
  next hover => exact exec_decode_start_failing hs (hchecks.trans (if_pos hover)) rfl
  next hover => exact hchecks.trans (if_neg hover)

/-! ## The requests -/

/-- The place of DECODE at a visit: a read, or past the last visit the completion (42_unpacker.md R151). -/
theorem decodeVisit_eq (n : Nat) (p : Params) (k : Nat) (sc : Scan) :
    decodeVisit n p k sc =
      { sc with k := k, next := if k < p.channelCount * n then .read else .finish (scanOutcome sc) } := by
  unfold decodeVisit
  split <;> rfl

/-- Settles O32: each place of a visit is one request, and `decodeVisit` is the place after its last one. -/
theorem decodeRequestSequence : Obligations.DecodeRequestSequence := by
  intro n k s job hj hu hv p sc img out
  refine ⟨fun hn himg => ?_, fun hn hout => ?_⟩
  · refine (exec_decode_read hj hn).trans ((readRequest_okay_fixed hu himg hv).trans ?_)
    rw [decodeBit, decodeVisit_eq]
    rfl
  · refine (exec_decode_write hj hn).trans ((writeRequest_okay_fixed hu hout hv).trans ?_)
    rw [decodeWritten, decodeVisit_eq]

/-! ## The completion -/

/-- The completion of a scanning DECODE writes the results of its outcome and, without HOST_COHERENT, leaves the copies
of the image and of the output bytes to be invalidated (42_unpacker.md R153; 20_memory.md R80). -/
theorem exec_decode_finish_fixed {n : Nat} {k : Kind} {s : State} {job : Job} {c : Code} (hj : s.engine = .run job)
    (hu : job.scan.unfixed = false) (hn : job.scan.next = .finish c) :
    exec (.decode n k) s = .next
      { (s.unsync (job.decodeEnds n)).finished c with
        cap := (capRecord job.params n c).getD s.cap
        msgLen := (lenRecord job.params n job.scan c).getD s.msgLen } := by
  rw [exec_decode_finish hj hn, complete_fixed hu]

/-- Settles O33: the step is `exec_decode_finish_fixed` with each of the three codes. -/
theorem decodeCompletes : Obligations.DecodeCompletes := by
  intro n k s job hj hu count cap ended
  refine ⟨fun m hn hm => ?_, fun hn => ?_, fun hn => ?_⟩
  · rw [exec_decode_finish_fixed hj hu hn, lenRecord, hm]
    rfl
  · exact exec_decode_finish_fixed hj hu hn
  · exact exec_decode_finish_fixed hj hu hn

/-! ## The first step -/

/-- An image of no channel values has no visit: DECODE begins at its completion, with code 4. -/
theorem decodeVisit_empty {n : Nat} {p : Params} (h : p.channelCount = 0) :
    decodeVisit n p 0 Scan.fresh = { Scan.fresh with next := .finish .sentinelNotFound } := by
  rw [decodeVisit_eq, h, Nat.zero_mul]
  rfl

theorem capacity_empty (n : Nat) {p : Params} (h : p.channelCount = 0) : p.capacity n = 0 := by
  simp [Params.capacity, h]

/-- A DECODE of an image of no channel values leaves no copies to be invalidated (20_memory.md R80). -/
theorem unsync_decodeEnds_empty (n : Nat) {job : Job} (s : State) (h : job.params.channelCount = 0) :
    s.unsync (job.decodeEnds n) = s := by
  simp [State.unsync, Job.decodeEnds, h, capacity_empty n h, addRanges, addRange]

/-- An image that is not empty has a second visit (00_scope.md R13). -/
theorem DecodeReady.one_lt_visits {n : Nat} {p : Params} (hr : DecodeReady n p) (h : p.channelCount ≠ 0) :
    1 < p.channelCount * n := by
  have hthree : 3 ≤ p.channelCount := by unfold Params.channelCount Config.channels at h ⊢; omega
  exact (Nat.lt_of_lt_of_le (by omega) hthree).trans_le (Nat.le_mul_of_pos_right _ hr.one_le)

/-- The first bit that enters ACC is its value. -/
theorem shiftIn_fresh (b : Bool) : shiftIn Scan.fresh.acc b = if b then 1 else 0 := by cases b <;> rfl

/-- Settles O31: the first step is the read of visit 0, or where there is no visit the completion. -/
theorem decodeMakesItsFirstRequest : Obligations.DecodeMakesItsFirstRequest := by
  intro n k s job hs hv hc
  rw [decode_start_eq hs hc, show job.scan = Scan.fresh from hs.2]
  have hr := decodeReady hc
  split
  next h0 =>
    rw [decodeVisit_empty h0, exec_decode_finish_fixed rfl rfl rfl, unsync_decodeEnds_empty n _ (by exact h0)]
    simp only [capRecord, lenRecord, Params.capField, capacity_empty n h0]
    rfl
  next h0 =>
    have hvisits := hr.one_lt_visits h0
    rw [decodeVisit_eq, if_pos (Nat.zero_lt_of_lt hvisits)]
    obtain ⟨hread, -⟩ := decodeRequestSequence n k
      (s.withScan job { Scan.fresh with k := 0, next := .read })
      { job with scan := { Scan.fresh with k := 0, next := .read } } rfl rfl hv
    simpa [hvisits, shiftIn_fresh, plane] using hread rfl (by simpa using job.params.imgBase.isLt)

/-! ## The run -/

/-- A DECODE that makes at least one step begins as at visit 0. -/
theorem execTimes_decode_start {n : Nat} {k : Kind} {s : State} {job : Job} (hs : s.starts job)
    (hc : decodeChecks n k job.params = none) (m : Nat) :
    execTimes (.decode n k) (m + 1) s =
      execTimes (.decode n k) (m + 1) (s.withScan job (decodeVisit n job.params 0 job.scan)) := by
  simp only [execTimes, decode_start_eq hs hc]

/-- The command still runs after the steps that a run from visit 0 makes without completing. -/
theorem busy_after_decode_steps {n m : Nat} {k : Kind} {s u : State} {job : Job} (hs : s.starts job)
    (hc : decodeChecks n k job.params = none)
    (hrun : execTimes (.decode n k) m (s.withScan job (decodeVisit n job.params 0 job.scan)) = .next u)
    (hu : u.busy = true) : ∃ v, execTimes (.decode n k) m s = .next v ∧ v.busy = true := by
  cases m with
  | zero => exact ⟨s, rfl, busy_of_run hs.1⟩
  | succ m => exact ⟨u, (execTimes_decode_start hs hc m).trans hrun, hu⟩

/-- The outcome of a scan that has found what `FirstSent` finds: its code and its length in MSG_LEN, which holds it
where it is an index inside the output buffer or its size (42_unpacker.md R153). -/
theorem DecodeReady.outcome {n : Nat} {p : Params} {b : List Byte} {sc : Scan} (hr : DecodeReady n p)
    (hlen : b.length = p.capacity n) (hfound : sc.found = firstSent b) (old : Word) :
    let msgLen := (lenRecord p n sc (scanOutcome sc)).getD old
    match firstSent b with
    | some m => scanOutcome sc = .ok ∧ msgLen.toNat = m
    | none => scanOutcome sc = .sentinelNotFound ∧ msgLen.toNat = p.capacity n := by
  have hcap : p.capacity n < 2 ^ 32 := hr.room.trans_lt p.outSize.isLt
  cases hf : firstSent b with
  | none =>
    have hcode : scanOutcome sc = .sentinelNotFound := by simp [scanOutcome, hfound, hf]
    refine ⟨hcode, ?_⟩
    rw [hcode]
    exact Nat.mod_eq_of_lt hcap
  | some m =>
    have hcode : scanOutcome sc = .ok := by simp [scanOutcome, hfound, hf]
    have hm : m + 5 ≤ b.length := (firstSent_found hf).1.1
    refine ⟨hcode, ?_⟩
    rw [hcode, lenRecord, hfound, hf]
    exact Nat.mod_eq_of_lt (by omega)

/-- Every outcome of a scan records CAP. -/
theorem capRecord_scanOutcome (p : Params) (n : Nat) (sc : Scan) :
    capRecord p n (scanOutcome sc) = some (p.capField n) := by
  unfold scanOutcome
  split <;> rfl

/-- Settles O34: `decode_run` (an induction over the visits) reaches the end of the scan with the output bytes that R152
describes and a search that has found what `FirstSent` finds, and the next step is the completion. -/
theorem decodeExtractsTheBytes : Obligations.DecodeExtractsTheBytes := by
  intro n k s job hs hv hwf hc p count cap
  obtain ⟨u, hrun, hend⟩ := decode_run (kind := k) hs hv hwf hc
  obtain ⟨sc, hrunning, hu, -, htrack⟩ := hend.engine
  rw [decodeVisit_eq, if_neg (Nat.lt_irrefl _)] at hrunning
  have hfinish := exec_decode_finish_fixed (n := n) (k := k) hrunning hu rfl
  have hall := (execTimes_decode_start hs hc _).trans ((execTimes_add hrun).trans (execTimes_one hfinish))
  refine ⟨?_, _, hall, rfl, rfl, ?_, execTimes_frame hall, hend.output.bytes, hend.output.outside, ?_⟩
  · exact busy_after_decode_steps hs hc hrun (busy_of_run hrunning)
  · exact congrArg (Option.getD · _) (capRecord_scanOutcome p n sc)
  · exact (decodeReady hc).outcome (b := extracted p s.mem n) chunks_length htrack.found u.msgLen

end Sys2Proof.Machine
end

section
/-! DECODE after ENCODE (42_unpacker.md R157, R158). -/

namespace Sys2Proof.Machine

/-! ## The image that ENCODE leaves -/

/-- A whole run of ENCODE leaves the image that R133 describes. -/
theorem encode_leaves_image {n : Nat} {k : Kind} {s t : State} {job : Job} (hs : s.starts job)
    (hv : s.verdict = .okay) (hwf : s.mem.wf = true) (hc : encodeChecks n k job.params = none)
    (ht : execTimes (.encode n k) (requestCount (.encode n k) job.params + 1) s = .next t) :
    ImageAt job.params s.mem job.params.totalBits t.mem := by
  obtain ⟨u, hrun, hend⟩ := encode_run hs hv hwf hc
  obtain ⟨sc, hrunning, -, -⟩ := hend.engine
  rw [encodeVisit_totalBits] at hrunning
  have hall := (execTimes_add hrun).trans (execTimes_one (exec_encode_finish (k := k) hrunning rfl))
  rw [hall] at ht
  cases ht
  rw [State.complete_mem]
  exact hend.image

/-- Two sets of parameters name the same image: IMG_BASE, ROWS and COLS agree. -/
structure SameImage (p' p : Params) : Prop where
  base : p'.imgBase = p.imgBase
  rows : p'.rows = p.rows
  cols : p'.cols = p.cols

section image
variable {n : Nat} {p p' : Params} {m m0 : Memory}

theorem SameImage.channelCount_eq (h : SameImage p' p) : p'.channelCount = p.channelCount := by
  rw [Params.channelCount, h.rows, h.cols]
  rfl

theorem SameImage.imageBit_eq (h : SameImage p' p) (m : Memory) (k : Nat) : imageBit p' m k = imageBit p m k := by
  simp only [imageBit, Params.imgAddr, h.base, h.channelCount_eq]

/-- The plane bits of the image are the bits of the effective payload (41_packer.md R133). -/
theorem ImageAt.imageBit_eq (h : ImageAt p m0 p.totalBits m) (hr : EncodeReady n p) {k : Nat}
    (hk : k < p.totalBits) : imageBit p m k = effBit p m0 k := by
  have hoff := visitOffset_lt hr.channelCount_pos k
  have hplane : k / p.channelCount < 8 :=
    (Nat.lt_of_succ_le (visitPlane_le (hk.trans_le hr.totalBits_le))).trans_le hr.le_eight
  have hvisit : k / p.channelCount * p.channelCount + visitOffset p.channelCount k = k :=
    (visit_bit_iff hr.channelCount_pos hoff).2 ⟨rfl, rfl⟩
  have hbit := h.image _ hoff _ hplane
  rwa [hvisit, if_pos hk] at hbit

/-- A DECODE of the image that `p` names extracts the bytes of the payload and the sentinel (42_unpacker.md R157). -/
theorem ImageAt.chunkByte_eq (h : ImageAt p m0 p.totalBits m) (hr : EncodeReady n p) (hsame : SameImage p' p) {i : Nat}
    (hi : i < p.effLen) : chunkByte p' m i = (payloadBytes p m0 ++ sentinel).getD i 0 := by
  rw [paySent_getD _ _ _ hi]
  refine byte_ext fun t ht => ?_
  rw [chunkByte_getLsbD _ _ _ _ ht, hsame.imageBit_eq, h.imageBit_eq hr (by unfold Params.totalBits; omega), effBit]
  congr 2 <;> omega

theorem ImageAt.chunks_eq_take (h : ImageAt p m0 p.totalBits m) (hr : EncodeReady n p) (hsame : SameImage p' p)
    {c : Nat} (hc : c ≤ p.effLen) : chunks p' m c = (payloadBytes p m0 ++ sentinel).take c := by
  have hlen : (chunks p' m c).length = ((payloadBytes p m0 ++ sentinel).take c).length := by
    rw [chunks_length, List.length_take, paySent_length, Nat.min_eq_left hc]
  refine List.ext_getElem hlen fun i hi hi' => ?_
  have hic : i < c := by simpa using hi
  calc (chunks p' m c)[i]
    _ = chunkByte p' m i := by simp [chunks]
    _ = (payloadBytes p m0 ++ sentinel).getD i 0 := h.chunkByte_eq hr hsame (hic.trans_le hc)
    _ = ((payloadBytes p m0 ++ sentinel).take c)[i] := by rw [List.getElem_take, List.getD_eq_getElem]

end image

/-! ## The two depths -/

/-- Fewer extracted bytes are the first of them. -/
theorem chunks_prefix (p : Params) (m : Memory) {c d : Nat} (h : c ≤ d) : chunks p m c <+: chunks p m d := by
  obtain ⟨e, rfl⟩ := Nat.exists_eq_add_of_le h
  rw [chunks, chunks, List.range_add, List.map_append]
  exact List.prefix_append _ _

/-- Settles O35: the payload and the sentinel are the first bytes extracted, so the first sentinel is theirs, and
`firstSent_append_sentinel_eq_length` says when it is the appended one. -/
theorem decodeRecoversWhatEncodeEmbedded : Obligations.DecodeRecoversWhatEncodeEmbedded := by
  intro ne nd ke kd s t s2 job job2 hs hv hwf hc ht hs2 hv2 hmem hd hbase hrows hcols hroom pay
  have hsame : SameImage job2.params job.params := ⟨hbase, hrows, hcols⟩
  have hr := encodeReady hc
  have himage := encode_leaves_image hs hv hwf hc ht
  obtain ⟨-, u, hrun, hidle, -, -, -, hbytes, -, hout⟩ :=
    decodeExtractsTheBytes nd kd s2 job2 hs2 hv2 (hmem ▸ himage.wf) hd
  rw [hmem] at hbytes hout
  have hlen : (pay ++ sentinel).length = job.params.effLen := paySent_length _ _
  have hcap : job.params.effLen ≤ job2.params.capacity nd := by
    rw [Params.capacity, hsame.channelCount_eq]
    omega
  have hprefix : pay ++ sentinel <+: extracted job2.params t.mem nd := by
    have hfirst := chunks_prefix job2.params t.mem hcap
    rwa [himage.chunks_eq_take hr hsame (le_refl _), ← hlen, List.take_length] at hfirst
  obtain ⟨m, hle, hm⟩ := firstSent_append_sentinel pay
  rw [firstSent_of_prefix hprefix hm] at hout
  obtain ⟨hcode, rfl⟩ := hout
  refine ⟨u, hrun, hidle, hcode, fun i hi => ?_, hm, hle, firstSent_append_sentinel_eq_length hm hle⟩
  have hi' : i < job.params.effLen := by
    rw [← hlen, List.length_append]
    exact hi
  exact (hbytes i (hi'.trans_le hcap)).trans (himage.chunkByte_eq hr hsame hi')

/-- Settles O36: the bytes extracted are the first ones of the payload and the sentinel, so a sentinel among them is the
first one there and begins before the appended one. -/
theorem decodeAtASmallerDepthTruncates : Obligations.DecodeAtASmallerDepthTruncates := by
  intro ne nd ke kd s t s2 job job2 hs hv hwf hc ht hs2 hv2 hmem hd hbase hrows hcols hshort pay capd
  have hsame : SameImage job2.params job.params := ⟨hbase, hrows, hcols⟩
  have hr := encodeReady hc
  have himage := encode_leaves_image hs hv hwf hc ht
  obtain ⟨-, u, hrun, hidle, -, -, -, hbytes, -, hout⟩ :=
    decodeExtractsTheBytes nd kd s2 job2 hs2 hv2 (hmem ▸ himage.wf) hd
  rw [hmem] at hbytes hout
  have hlen : pay.length + 5 = job.params.effLen := by
    rw [← paySent_length _ s.mem, List.length_append]
    rfl
  have hcapd : job2.params.capacity nd = capd := by rw [Params.capacity, hsame.channelCount_eq]
  have hcap : capd < job.params.effLen := Nat.div_lt_of_lt_mul hshort
  have hprefix : extracted job2.params t.mem nd <+: pay ++ sentinel := by
    have htake : extracted job2.params t.mem nd = (pay ++ sentinel).take (job2.params.capacity nd) :=
      himage.chunks_eq_take hr hsame (hcapd.trans_le hcap.le)
    rw [htake]
    exact List.take_prefix _ _
  refine ⟨u, hrun, hidle, hlen ▸ hcap, fun i hi => ?_, ?_⟩
  · exact (hbytes i (hi.trans_eq hcapd.symm)).trans (himage.chunkByte_eq hr hsame (hi.trans hcap))
  · cases hf : firstSent (extracted job2.params t.mem nd) with
    | none =>
      rw [hf] at hout
      exact .inr ⟨hout.1, hout.2.trans hcapd⟩
    | some m =>
      rw [hf] at hout
      obtain ⟨hcode, rfl⟩ := hout
      have hinside := (firstSent_found hf).1.1
      rw [show (extracted job2.params t.mem nd).length = capd from chunks_length.trans hcapd] at hinside
      exact .inl ⟨hcode, by omega, firstSent_of_prefix hprefix hf⟩

end Sys2Proof.Machine
end

section
/-! The helpers one by one (43_bit_helpers.md): bit strings and bytes, planes, the scan order, the sentinel search and
the bytes that DECODE groups. -/

namespace Sys2Proof.Machine

/-! ## Bit strings and bytes -/

/-- The shift of R150 on numbers: modulo 256 it drops the bit that leaves the byte. -/
theorem shiftIn_toNat (acc : Byte) (b : Bool) : (shiftIn acc b).toNat = (2 * acc.toNat + b.toNat) % 256 := by
  have hbit : ((BitVec.ofBool b).setWidth 8).toNat = b.toNat := by cases b <;> rfl
  rw [shiftIn, BitVec.toNat_add, hbit, BitVec.toNat_shiftLeft, Nat.shiftLeft_eq]
  omega

/-- Parsing a bit string from a start value that leaves room for it loses no bit (43_bit_helpers.md R171). -/
theorem foldl_shiftIn_toNat (s : List Bool) {acc : Byte} (hroom : (acc.toNat + 1) * 2 ^ s.length ≤ 256) :
    (s.foldl shiftIn acc).toNat = acc.toNat * 2 ^ s.length +
      ((List.range s.length).map fun t => (s.getD t false).toNat * 2 ^ (s.length - 1 - t)).sum := by
  induction s generalizing acc with
  | nil => simp
  | cons b s ih =>
    rw [List.length_cons, pow_succ'] at hroom
    have hb := Bool.toNat_le b
    have hfit : (acc.toNat + 1) * 2 ≤ 256 :=
      (Nat.le_mul_of_pos_right _ (Nat.two_pow_pos s.length)).trans (by rwa [Nat.mul_assoc])
    have hacc : (shiftIn acc b).toNat = 2 * acc.toNat + b.toNat := by
      rw [shiftIn_toNat]
      omega
    have hstep : ((shiftIn acc b).toNat + 1) * 2 ^ s.length ≤ 256 := by
      refine le_trans (Nat.mul_le_mul_right _ ?_) ((Nat.mul_assoc _ _ _).trans_le hroom)
      omega
    rw [List.foldl_cons, ih hstep, hacc, List.length_cons, List.range_succ_eq_map, List.map_cons, List.sum_cons,
      List.map_map, pow_succ']
    have htail : ((fun t => ((b :: s).getD t false).toNat * 2 ^ (s.length + 1 - 1 - t)) ∘ Nat.succ) =
        fun t => (s.getD t false).toNat * 2 ^ (s.length - 1 - t) := by
      funext t
      simp [Nat.sub_sub, Nat.add_comm]
    rw [htail, List.getD_cons_zero]
    simp only [Nat.add_sub_cancel, Nat.sub_zero]
    ring

/-- `ByteOf` undoes `BitsOf` (43_bit_helpers.md R171). -/
theorem byteOf_bitsOf (b : Byte) : byteOf (bitsOf b) = b := by
  refine byte_ext fun t ht => ?_
  rw [byteOf_getLsbD (bitsOf_length b) t ht, bitsOf_getD _ _ (by omega)]
  congr 1
  omega

/-- `BitsOf` undoes `ByteOf` on 8-bit strings (43_bit_helpers.md R171). -/
theorem bitsOf_byteOf {s : List Bool} (hs : s.length = 8) : bitsOf (byteOf s) = s := by
  refine List.ext_getElem (by rw [bitsOf_length, hs]) fun t ht ht' => ?_
  have ht8 : t < 8 := by rwa [bitsOf_length] at ht
  rw [← List.getD_eq_getElem _ false ht, ← List.getD_eq_getElem _ false ht', bitsOf_getD _ _ ht8,
    byteOf_getLsbD hs _ (by omega)]
  congr 1
  omega

/-- Settles O39: `foldl_shiftIn_toNat` from 0 gives the value; the two inverse laws compare bit by bit. -/
theorem bitsAndBytesAreInverse : Obligations.BitsAndBytesAreInverse := by
  refine ⟨fun b => ⟨bitsOf_length b, bitsOf_getD b⟩, by decide, by decide, fun s hs => ?_, byteOf_bitsOf,
    fun s => bitsOf_byteOf⟩
  have hvalue := foldl_shiftIn_toNat s (acc := 0) (by rw [hs]; decide)
  rw [hs] at hvalue
  simpa [byteOf] using hvalue

/-! ## Planes -/

/-- A plane after `SetPlane`: the bit written for its own plane, the old bit for another (43_bit_helpers.md R174). -/
theorem plane_setPlane (v : Byte) {p q : Nat} (hp : 1 ≤ p) (hq : 1 ≤ q) (hq8 : q ≤ 8) (b : Bool) :
    plane (setPlane v q b) p = if p = q then b else plane v p := by
  rw [plane, setPlane_getLsbD v hq hq8]
  exact if_congr (by omega) rfl rfl

theorem setPlane_plane (v : Byte) {q : Nat} (hq : 1 ≤ q) (hq8 : q ≤ 8) : setPlane v q (plane v q) = v := by
  refine byte_ext fun t _ => ?_
  rw [setPlane_getLsbD v hq hq8]
  split
  next h => rw [h, plane]
  next => rfl

/-- Settles O40: the laws follow from `setPlane_getLsbD`, the bits of `SetPlane`; the rule's mask, shifted as a number,
is the model's by computation. -/
theorem setPlaneChangesOneBit : Obligations.SetPlaneChangesOneBit := by
  refine ⟨fun v q b hq hq8 => ?_, by decide, by decide, by decide⟩
  have hbit : (BitVec.ofBool b).setWidth 8 = BitVec.ofNat 8 b.toNat := by cases b <;> rfl
  refine ⟨rfl, by rw [setPlane, hbit]; rfl, fun t _ ht => ?_, ?_, ?_, fun p hp _ hpq => ?_, setPlane_plane v hq hq8⟩
  · exact (setPlane_getLsbD v hq hq8 b t).trans (if_neg ht)
  · exact (setPlane_getLsbD v hq hq8 b _).trans (if_pos rfl)
  · exact (plane_setPlane v hq hq hq8 b).trans (if_pos rfl)
  · exact (plane_setPlane v hp hq hq8 b).trans (if_neg hpq)

/-! ## The scan order -/

/-- Visit `(q - 1) * N + j` is the visit of plane `q` and offset `j` (43_bit_helpers.md R172). -/
theorem visit_of_plane_offset {N q j : Nat} (hq : 1 ≤ q) (hj : j < N) :
    visitPlane N ((q - 1) * N + j) = q ∧ visitOffset N ((q - 1) * N + j) = j := by
  obtain ⟨hplane, hoff⟩ := (visit_bit_iff (Nat.zero_lt_of_lt hj) hj).1 (Eq.refl ((q - 1) * N + j))
  exact ⟨by rw [visitPlane, ← hplane, Nat.sub_add_cancel hq], hoff.symm⟩

/-- The visits of planes 1 to `n` are the first `N * n` (43_bit_helpers.md R172). -/
theorem visit_index_lt {N n q j : Nat} (hq : 1 ≤ q) (hn : q ≤ n) (hj : j < N) : (q - 1) * N + j < N * n := by
  calc (q - 1) * N + j
    _ < (q - 1) * N + N := Nat.add_lt_add_left hj _
    _ = q * N := by rw [← Nat.succ_mul, Nat.succ_eq_add_one, Nat.sub_add_cancel hq]
    _ ≤ N * n := by rw [Nat.mul_comm]; exact Nat.mul_le_mul_left N hn

/-- A later visit has a later plane, or the same plane and a later offset (43_bit_helpers.md R172). -/
theorem visit_lex {N k k' : Nat} (h : k < k') :
    visitPlane N k < visitPlane N k' ∨ (visitPlane N k = visitPlane N k' ∧ visitOffset N k < visitOffset N k') := by
  have hle : visitPlane N k ≤ visitPlane N k' := Nat.succ_le_succ (Nat.div_le_div_right h.le)
  refine hle.lt_or_eq.imp_right fun heq => ⟨heq, ?_⟩
  have hk := visit_eq N k
  have hk' := visit_eq N k'
  rw [heq] at hk
  omega

/-- The row, column and channel of an offset inside the image lie inside it (43_bit_helpers.md R172). -/
theorem pixelOf_lt {rows cols j : Nat} (hj : j < rows * cols * 3) :
    (pixelOf cols j).1 < rows ∧ (pixelOf cols j).2.1 < cols ∧ (pixelOf cols j).2.2 < 3 := by
  have hcols : 0 < cols := Nat.pos_of_ne_zero fun h0 => by simp [h0] at hj
  refine ⟨Nat.div_lt_of_lt_mul ?_, Nat.mod_lt _ hcols, Nat.mod_lt _ (by decide)⟩
  calc j
    _ < rows * cols * 3 := hj
    _ = Config.channels * cols * rows := by rw [Config.channels]; ring

/-- The offset of the row, column and channel of `j` is `j` (43_bit_helpers.md R172). -/
theorem channelOffset_pixelOf (cols j : Nat) :
    channelOffset cols (pixelOf cols j).1 (pixelOf cols j).2.1 (pixelOf cols j).2.2 = j := by
  rw [channelOffset, pixelOf, ← Nat.div_div_eq_div_mul, Nat.div_add_mod', Nat.div_add_mod]

/-- Settles O41: the index is plane and offset by `visit_eq` and back by `visit_of_plane_offset`, its order is
`visit_lex`, and an offset is row, column and channel by `channelOffset_pixelOf`. -/
theorem scanOrderIsPlaneMajorRowMajor : Obligations.ScanOrderIsPlaneMajorRowMajor := by
  intro rows cols n count
  refine ⟨fun k hk => ?_, fun q j hq hn hj => ⟨visit_index_lt hq hn hj, visit_of_plane_offset hq hj⟩,
    fun k k' h _ => visit_lex h, fun j hj => ?_, fun _ _ _ => rfl, fun h0 k hk => ?_⟩
  · have hpos : 0 < count := Nat.pos_of_mul_pos_right (Nat.zero_lt_of_lt hk)
    exact ⟨Nat.succ_pos _, visitPlane_le hk, Nat.mod_lt _ hpos, (visit_eq count k).symm⟩
  · obtain ⟨hrow, hcol, hch⟩ := pixelOf_lt hj
    exact ⟨rfl, hrow, hcol, hch, channelOffset_pixelOf cols j⟩
  · have hcount : count = 0 := by rcases h0 with h0 | h0 <;> simp [count, h0]
    simp [hcount] at hk

/-! ## The effective payload -/

/-- Settles O42: the bytes are `paySent_getD`, and `flatMap_bits` gives the length and the bits of their string. -/
theorem effectivePayloadBitString : Obligations.EffectivePayloadBitString := by
  intro p m str
  obtain ⟨hlen, hbits⟩ := flatMap_bits (payloadBytes p m ++ sentinel)
  rw [paySent_length] at hlen hbits
  refine ⟨paySent_getD p m, hlen, fun k hk => ⟨?_, rfl⟩⟩
  rw [hbits k hk, paySent_getD p m _ (by omega), effBit]

/-! ## The first sentinel -/

theorem firstSent_eq_some_iff {b : List Byte} {i : Nat} :
    firstSent b = some i ↔ sentAt b i ∧ ∀ j < i, ¬ sentAt b j :=
  ⟨firstSent_found, fun ⟨hi, hleast⟩ => firstSent_eq_some hi hleast⟩

theorem firstSent_eq_none_iff {b : List Byte} : firstSent b = none ↔ ∀ j, ¬ sentAt b j :=
  ⟨fun h => by simpa only [h] using firstSent_spec b, firstSent_eq_none⟩

/-- The engine's count over a whole sequence finds what `FirstSent` finds (43_bit_helpers.md R175). -/
theorem trackAll_found (b : List Byte) : (trackAll 0 Scan.fresh b).found = firstSent b :=
  (trackAll_inv [] b Scan.fresh fresh_track).found

/-- Settles O43: `sentAt` is the rule's "whole at `i`", and `trackAll_inv` carries the count along the sequence. -/
theorem firstSentIsTheLeastIndex : Obligations.FirstSentIsTheLeastIndex :=
  ⟨fun _ _ => firstSent_eq_some_iff, fun _ => firstSent_eq_none_iff, trackAll_found, by decide, by decide, by decide,
    by decide⟩

/-! ## Grouping into bytes -/

@[simp] theorem groupBytes_length (d : List Bool) : (groupBytes d).length = d.length / 8 := by simp [groupBytes]

/-- Byte `i` of the grouping is the byte of chunk `i` (43_bit_helpers.md R176). -/
theorem groupBytes_getD (d : List Bool) {i : Nat} (hi : i < d.length / 8) :
    (groupBytes d).getD i 0 = byteOf ((d.drop (8 * i)).take 8) := by
  rw [List.getD_eq_getElem _ _ (by rwa [groupBytes_length])]
  simp [groupBytes]

/-- A whole chunk of a bit string given bit by bit. -/
theorem chunk_map_range (f : Nat → Bool) {M i : Nat} (hi : i < M / 8) :
    ((((List.range M).map f).drop (8 * i)).take 8) = (List.range 8).map fun t => f (8 * i + t) := by
  refine List.ext_getElem ?_ fun t _ _ => by simp
  simp only [List.length_take, List.length_drop, List.length_map, List.length_range]
  omega

/-- The plane bits of the image group into the bytes that DECODE extracts (42_unpacker.md R152). -/
theorem groupBytes_imageBits (p : Params) (m : Memory) (n : Nat) :
    groupBytes ((List.range (p.channelCount * n)).map (imageBit p m)) = extracted p m n := by
  rw [groupBytes, List.length_map, List.length_range]
  refine List.map_congr_left fun i hi => ?_
  rw [chunk_map_range _ (List.mem_range.1 hi)]
  rfl

/-- Settles O44: a chunk of the image's plane bits is the chunk that DECODE parses, by `chunk_map_range`. -/
theorem extractedBitsGroupIntoCapBytes : Obligations.ExtractedBitsGroupIntoCapBytes :=
  ⟨fun d => ⟨groupBytes_length d, fun _ => groupBytes_getD d⟩,
    fun p m n => ⟨groupBytes_imageBits p m n, chunks_length, rfl⟩⟩

end Sys2Proof.Machine
end

section
/-! The register accesses that the port refuses (10_state.md R44, 60_exceptions.md R208). -/

namespace Sys2Proof.Machine

/-- Either fault of an access, its width or its alignment, keeps it out of the port. -/
theorem admitted_eq_false {off : BitVec 8} {width : Width} (h : width ≠ .word ∨ off.toNat % 4 ≠ 0) :
    admitted off width = false := by
  rcases h with hwidth | halign
  · simp [admitted, hwidth]
  · simp [admitted, halign]

theorem portRead_refused (s : State) {off : BitVec 8} {width : Width} (h : admitted off width = false) :
    s.portRead off width = { s with reply := .error } :=
  if_neg (by simp [h])

theorem portWrite_refused (s : State) {off : BitVec 8} {width : Width} (h : admitted off width = false) (w : Word) :
    s.portWrite off width w = { s with reply := .error } :=
  if_neg (by simp [h])

/-- An aligned word read changes the answer alone, whether or not a register stands at the offset. -/
theorem portRead_aligned (s : State) {off : BitVec 8} (h : off.toNat % 4 = 0) :
    ∃ w, s.portRead off .word = { s with reply := .data w } :=
  ⟨_, if_pos (admitted_word h)⟩

/-- Settles O11: an access of another width or alignment is not `admitted`, and a refused access and every read set the
answer alone. -/
theorem unadmittedAccessIsAnsweredError : Obligations.UnadmittedAccessIsAnsweredError := by
  refine ⟨fun s off width w h => ?_, fun s _ h => portRead_aligned s h, portRead_reg⟩
  have href := admitted_eq_false h
  exact ⟨portRead_refused s href, portWrite_refused s href w⟩

end Sys2Proof.Machine
end

section
/-! The memory that a reset leaves (70_reset_and_hazards.md R241). -/

namespace Sys2Proof.Machine

/-- Of a reset only the landing of the unanswered write touches memory. -/
theorem resetEvent_landed_mem (s : State) : (s.resetEvent true).mem = s.landPending.mem := by
  simp [State.resetEvent]

/-- The landing stores the byte of the running command's unanswered write. -/
theorem landPending_of_pendingWrite {s : State} {job : Job} {a : Nat} {b : Byte} (hj : s.engine = .run job)
    (hp : job.pendingWrite = some (a, b)) (ha : a < Config.addrSpace) : s.landPending = s.engineStore job a b := by
  simp only [State.landPending, hj, hp]
  exact if_pos ha

/-- The landing leaves every byte that no unanswered write is for. -/
theorem landPending_read_other {s : State} {a : Nat}
    (h : ∀ job b, s.engine = .run job → job.pendingWrite ≠ some (a, b)) :
    s.landPending.mem.read a = s.mem.read a := by
  cases hj : s.engine with
  | idle => simp only [State.landPending, hj]
  | run job =>
    cases hp : job.pendingWrite with
    | none => simp only [State.landPending, hj, hp]
    | some w =>
      obtain ⟨x, b⟩ := w
      by_cases hx : x < Config.addrSpace
      · rw [landPending_of_pendingWrite hj hp hx, State.engineStore_mem]
        exact Memory.read_write_other _ _ fun hax => h job b hj (hax ▸ hp)
      · simp only [State.landPending, hj, hp, if_neg hx]

/-- Settles O57: with no landing memory stays, and the landing is one `engineStore` of the unanswered write. -/
theorem resetKeepsMemory : Obligations.ResetKeepsMemory := by
  refine ⟨fun s a => by rw [resetEvent_mem], fun s a h => ?_, fun s job a b hw hj hu hp ha => ?_⟩
  · rw [resetEvent_landed_mem, landPending_read_other h]
  · rw [resetEvent_landed_mem, landPending_of_pendingWrite hj hp ha, State.engineStore_mem, hu]
    exact Memory.read_write_same hw a b

end Sys2Proof.Machine
end

section
/-! No step changes what is scheduled after it (log entry 2). -/

namespace Sys2Proof.Machine

section outside
variable (s : State)

theorem writeReg_schedule (r : Reg) (w : Word) : (s.writeReg r w).schedule = s.schedule := by
  by_cases hr : isParamReg r
  · rw [writeReg_param hr, State.writeParam]
    split <;> rfl
  · cases r with
    | cmd =>
      cases hb : s.busy with
      | true => rw [writeReg_cmd_busy hb]; rfl
      | false => rw [writeReg_cmd_idle hb]; rcases accept_cases w s with h | h | h <;> rw [h] <;> rfl
    | id | ctrl | status | capLo | capHi | msgLen => rfl
    | _ => simp [isParamReg] at hr

theorem portWrite_schedule (off : BitVec 8) (width : Width) (w : Word) :
    (s.portWrite off width w).schedule = s.schedule := by
  unfold State.portWrite
  split
  · cases regAt off with
    | none => rfl
    | some r => exact writeReg_schedule s r w
  · rfl

theorem portRead_schedule (off : BitVec 8) (width : Width) : (s.portRead off width).schedule = s.schedule := by
  unfold State.portRead
  split <;> rfl

theorem access_schedule (addr : Word) (width : Width) (data : Option Word) :
    (s.access addr width data).schedule = s.schedule := by
  cases hw : windowOffset s.platform addr with
  | none => rw [access_outside hw]
  | some off =>
    cases data with
    | none => rw [access_read hw, portRead_schedule]
    | some w => rw [access_write hw, portWrite_schedule]

theorem racedIf_schedule (meets : List (Nat × Nat) → Bool) : (s.racedIf meets).schedule = s.schedule := by
  rcases racedIf_cases meets s with h | ⟨job, -, -, h⟩ <;> rw [h]
  exact State.loosen_schedule s job

theorem hostStore_schedule (a : Nat) (b : Byte) : (s.hostStore a b).schedule = s.schedule :=
  racedIf_schedule (s.hostPut a b) _

theorem busStore_schedule (a : Nat) (b : Byte) : (s.busStore a b).schedule = s.schedule :=
  racedIf_schedule (s.busPut a b) _

theorem writeAccess_schedule {store : Nat → Byte → State → State}
    (hst : ∀ (s : State) a b, (store a b s).schedule = s.schedule) (addr : Word) (bytes : List Byte) :
    (s.writeAccess store addr bytes).schedule = s.schedule := by
  have hbytes : ∀ (l : List Byte) (a : Nat) (s : State), (s.storeBytes store a l).schedule = s.schedule := by
    intro l
    induction l with
    | nil => exact fun _ _ => rfl
    | cons b l ih => exact fun a s => (ih (a + 1) (store a b s)).trans (hst s a b)
  unfold State.writeAccess
  split
  · exact hbytes bytes _ s
  · rfl

theorem readAccess_schedule (isOpen : Nat → Bool) (addr : Word) (count : Nat) :
    (s.readAccess isOpen addr count).schedule = s.schedule := by
  obtain ⟨r, d, h, -⟩ := readAccess_cases isOpen addr count s
  rw [h]

theorem freeBytes_schedule (l : List Nat) : (s.freeBytes l).schedule = s.schedule := by
  obtain ⟨m, d, h, -⟩ := freeBytes_eq s l
  rw [h]

theorem writeBack_schedule (range : Nat × Nat) : (s.writeBack range).schedule = s.schedule :=
  (racedIf_schedule _ _).trans (freeBytes_schedule s _)

theorem cacheInvalidate_schedule (range : Nat × Nat) : (s.cacheInvalidate range).schedule = s.schedule :=
  (freeBytes_schedule _ _).trans (writeBack_schedule s range)

theorem hostBranch_schedule (taken : Bool) (l : Nat) : (s.hostBranch taken l).schedule = s.schedule := by
  obtain ⟨h, e⟩ := hostBranch_eq taken l s
  rw [e]

theorem hostExec_schedule (op : HostOp) : (s.hostExec op).schedule = s.schedule := by
  cases op with
  | wr r v => exact portWrite_schedule s _ _ _
  | rd r h => exact portRead_schedule s _ _
  | memw a bytes => exact writeAccess_schedule s hostStore_schedule a bytes
  | memr a count => exact readAccess_schedule s _ a count
  | beq h w l | bne h w l => exact hostBranch_schedule s _ l
  | set | add | and | label | halt => rfl

theorem hostStep_schedule : s.hostStep.schedule = s.schedule := by
  unfold State.hostStep
  split
  · rfl
  · exact hostExec_schedule s _

theorem resetEvent_schedule (landed : Bool) : (s.resetEvent landed).schedule = s.schedule := by
  rw [State.resetEvent, State.resetRegs_schedule, State.unsyncRunning_schedule]
  split
  · rcases landPending_cases s with h | ⟨job, a, b, h⟩ <;> rw [h]
    exact State.engineStore_schedule s job a b
  · rfl

end outside

theorem engineStep_schedule {s t : State} (h : engineStep s = .next t) : t.schedule = s.schedule := by
  cases hj : s.engine with
  | idle => simp only [engineStep, hj] at h; cases h; rfl
  | run job => exact (engineStep_move hj h).frame.schedule

/-- The outside's plan is its own: no event changes what it has scheduled. -/
theorem eventStep_schedule {e : Event} {s t : State} (h : eventStep e s = .next t) : t.schedule = s.schedule := by
  cases e with
  | engine answer =>
    cases hb : s.busy with
    | true =>
      rw [eventStep_engine_busy answer hb] at h
      exact engineStep_schedule (s := { s with memAnswer := answer }) h
    | false => rw [eventStep_engine_idle answer hb] at h; cases h; rfl
  | host => cases h; exact hostStep_schedule s
  | access addr width data => cases h; exact access_schedule s addr width data
  | memRead addr count => cases h; exact readAccess_schedule s _ addr count
  | memWrite addr bytes => cases h; exact writeAccess_schedule s busStore_schedule addr bytes
  | cacheClean addr count => cases h; exact writeBack_schedule s _
  | cacheInvalidate addr count => cases h; exact cacheInvalidate_schedule s _
  | reset landed => cases h; exact resetEvent_schedule s landed

theorem step_of_schedule {s : State} {e : Event} {rest : List Event} (hs : s.schedule = e :: rest) :
    step s = eventStep e { s with schedule := rest } := by
  simp only [step, hs]

end Sys2Proof.Machine
end

section
/-! Every command completes (70_reset_and_hazards.md R253, R254). The measure is the number of steps that the engine can
still take: its own step lowers it, and no act of the host or the outside raises it. -/

namespace Sys2Proof.Machine

/-! ## The measure -/

/-- The most steps the engine takes until the command has completed: one for each request it can still make, and the
completion. -/
def Job.stepsLeft (job : Job) : Nat :=
  match decode job.word with
  | .ok i => requestsLeft i job.params job.scan + 1
  | .error _ => 1

/-- The number of requests of the command's success; an illegal word makes none. -/
def Job.successRequests (job : Job) : Nat :=
  match decode job.word with
  | .ok i => requestCount i job.params
  | .error _ => 0

theorem Job.stepsLeft_pos (job : Job) : 0 < job.stepsLeft := by
  unfold Job.stepsLeft
  split <;> exact Nat.succ_pos _

theorem RunInv.stepsLeft_le {s : State} {job : Job} (h : RunInv s job) : job.stepsLeft ≤ job.successRequests + 1 := by
  unfold Job.stepsLeft Job.successRequests
  cases hd : decode job.word with
  | error r => exact Nat.le_refl _
  | ok i => exact Nat.succ_le_succ (requestsLeft_le (h.scan i hd))

/-- The mark of a race does not lengthen a command (log entry 15). -/
theorem Job.stepsLeft_unfixed (job : Job) (u : Bool) :
    Job.stepsLeft { job with scan := { job.scan with unfixed := u } } = job.stepsLeft := by
  unfold Job.stepsLeft
  cases hd : decode job.word with
  | error r => rfl
  | ok i => cases i <;> rfl

/-! ## The engine's deadline -/

/-- The command has completed. -/
def State.completed (s : State) : Prop := s.engine = .idle ∧ s.done = true

/-- The command has completed, or completes within `c` more steps of the engine. -/
def State.endsWithin (c : Nat) (s : State) : Prop :=
  s.completed ∨ ∃ job, s.engine = .run job ∧ job.stepsLeft ≤ c

theorem endsWithin_start {s : State} {job : Job} {c : Nat} (hi : Inv s) (hj : s.engine = .run job)
    (h : job.successRequests + 1 ≤ c) : s.endsWithin c :=
  .inr ⟨job, hj, (hi.run job hj).stepsLeft_le.trans h⟩

theorem completed_of_endsWithin_zero {s : State} (h : s.endsWithin 0) : s.completed := by
  rcases h with h | ⟨job, -, hle⟩
  · exact h
  · exact absurd job.stepsLeft_pos (Nat.not_lt.2 hle)

/-- A step of the engine completes the command or brings its end nearer, whatever the memory answers. -/
theorem engineStep_endsWithin {s : State} {c : Nat} (hi : Inv s) (h : s.endsWithin (c + 1)) :
    ∃ t, engineStep s = .next t ∧ t.endsWithin c := by
  rcases h with h | ⟨job, hj, hle⟩
  · exact ⟨s, by simp only [engineStep, h.1], .inl h⟩
  · obtain ⟨t, ht, hrun⟩ := engineStep_stepsOn hi hj
    refine ⟨t, ht, ?_⟩
    rcases (engineStep_move hj ht).phase with hdone | ⟨⟨sc, hsc⟩, -⟩
    · exact .inl hdone
    · rcases hrun with hid | ⟨i, sc, hd, hsc, -, hless⟩
      · rw [hid] at hsc; cases hsc
      · refine .inr ⟨_, hsc, ?_⟩
        simp only [Job.stepsLeft, hd] at hle ⊢
        omega

/-- No act of the host or the outside moves the end of a running command (70_reset_and_hazards.md R253). -/
theorem OutsideFrame.endsWithin {s t : State} {job : Job} {c : Nat} (h : OutsideFrame s t) (hj : s.engine = .run job)
    (hle : job.stepsLeft ≤ c) : t.endsWithin c := by
  obtain ⟨u, hu, -⟩ := h.run hj
  exact .inr ⟨_, hu, (job.stepsLeft_unfixed u).trans_le hle⟩

/-! ## Runs -/

/-- A run of the engine that lasts to the deadline ends in the completion. -/
theorem engineRun_completes {answers : List BusAnswer} {s : State} (hi : Inv s) (h : s.endsWithin answers.length) :
    ∃ t, engineRun answers s = .next t ∧ t.completed := by
  induction answers generalizing s with
  | nil => exact ⟨s, rfl, completed_of_endsWithin_zero h⟩
  | cons answer rest ih =>
    have hi' := inv_memAnswer hi answer
    obtain ⟨u, hu, hends⟩ := engineStep_endsWithin hi' h
    obtain ⟨t, ht, hdone⟩ := ih (inv_engineStep hi' hu) hends
    exact ⟨t, by simp only [engineRun, hu, ht], hdone⟩

theorem Event.isEngine_iff (e : Event) : e.isEngine = true ↔ ∃ answer, e = .engine answer := by
  cases e <;> simp [Event.isEngine]

/-- An event uses up a step of the deadline only where it is a step of the engine. -/
theorem eventStep_endsWithin {e : Event} {s : State} {job : Job} {c : Nat} (hi : Inv s) (hj : s.engine = .run job)
    (he : ∀ landed, e ≠ .reset landed) (hle : job.stepsLeft ≤ c + if e.isEngine then 1 else 0) :
    ∃ t, eventStep e s = .next t ∧ t.endsWithin c := by
  by_cases hengine : e.isEngine = true
  · obtain ⟨answer, rfl⟩ := e.isEngine_iff.1 hengine
    rw [eventStep_engine_busy answer (busy_of_run hj)]
    exact engineStep_endsWithin (inv_memAnswer hi answer) (.inr ⟨job, hj, hle⟩)
  · rw [if_neg hengine] at hle
    obtain ⟨t, ht, hframe⟩ := eventStep_outside (busy_of_run hj)
      (fun answer h => hengine (e.isEngine_iff.2 ⟨answer, h⟩)) he
    exact ⟨t, ht, hframe.endsWithin hj hle⟩

/-- A schedule without a reset that holds the engine's steps to the deadline reaches the completion, in whichever order
its events stand. -/
theorem stepTimes_completes {events : List Event} {s : State} (hi : Inv s) (hs : s.schedule = events)
    (hr : ∀ landed, Event.reset landed ∉ events) (h : s.endsWithin (events.countP Event.isEngine)) :
    ∃ m ≤ events.length, ∃ t, stepTimes m s = .next t ∧ t.completed := by
  induction events generalizing s with
  | nil => exact ⟨0, Nat.le_refl _, s, rfl, completed_of_endsWithin_zero h⟩
  | cons e rest ih =>
    rcases h with hdone | ⟨job, hj, hle⟩
    · exact ⟨0, Nat.zero_le _, s, rfl, hdone⟩
    · rw [List.countP_cons] at hle
      have hi' := inv_schedule hi rest
      obtain ⟨u, hu, hends⟩ := eventStep_endsWithin hi' hj
        (fun landed he => hr landed (he ▸ List.mem_cons_self)) hle
      obtain ⟨m, hm, t, ht, hdone⟩ := ih (inv_eventStep hi' hu) (eventStep_schedule hu)
        (fun landed hmem => hr landed (List.mem_cons_of_mem e hmem)) hends
      exact ⟨m + 1, Nat.succ_le_succ hm, t, by simp only [stepTimes, step_of_schedule hs, hu, ht], hdone⟩

/-- Settles O50: the requests of the command's success bound `Job.stepsLeft`, which every step of the engine lowers and
nothing else raises, by induction on the answers and on the schedule. -/
theorem everyCommandCompletes : Obligations.EveryCommandCompletes :=
  ⟨fun _ _ _ hi hj h => engineRun_completes hi (endsWithin_start hi hj h),
    fun _ _ hi hj hr h => stepTimes_completes hi rfl hr (endsWithin_start hi hj h)⟩

end Sys2Proof.Machine
end

section
/-! The decoder and the encoder are inverse to each other on the words of the format (30_encoding.md R90 to R98). -/

namespace Sys2Proof

/-- A command is well-formed exactly where its NBITS fits the 4-bit field (30_encoding.md R92). -/
theorem Instr.wellFormed_iff (i : Instr) : i.wellFormed = true ↔ i.nbits < 16 := by
  cases i <;> exact decide_eq_true_iff

/-- The bits of NBITS are bits 4 to 7 of the word (30_encoding.md R90). -/
theorem nbitsField_bit (w : Word) {i : Nat} (h : i < 4) : (nbitsField w).getLsbD i = w.getLsbD (4 + i) := by
  simp [nbitsField, h]

/-- NBITS of an assembled word is the operand cut to 4 bits (30_encoding.md R90). -/
theorem nbitsField_formatC (op : BitVec 4) (n : Nat) (k : BitVec 2) :
    nbitsField (formatC op n k) = BitVec.ofNat 4 n := by
  apply BitVec.eq_of_getLsbD_eq
  intro i hi
  rw [nbitsField_bit _ hi]
  unfold formatC
  rw [BitVec.getLsbD_append, if_neg (by omega), BitVec.getLsbD_append, if_pos (by omega), Nat.add_sub_cancel_left]

/-- An operand that fits the field is read back whole (30_encoding.md R92). -/
theorem toNat_nbitsField_formatC (op : BitVec 4) {n : Nat} (k : BitVec 2) (hn : n < 16) :
    (nbitsField (formatC op n k)).toNat = n := by
  rw [nbitsField_formatC, BitVec.toNat_ofNat, Nat.mod_eq_of_lt hn]

/-- Settles O1: each field of the assembled word is the operand written into it, and the decoder tests OP, RSV and, for
CAPACITY, KIND. -/
theorem decodeOfEncodeIsTheCommand : Obligations.DecodeOfEncodeIsTheCommand := by
  intro i hi
  have hn : i.nbits < 16 := i.wellFormed_iff.1 hi
  cases i with
  | capacity n =>
    simpa [encode, decode, opField_formatC, rsvField_formatC, kindField_formatC] using
      toNat_nbitsField_formatC (n := n) 1 0 hn
  | check n k =>
    simpa [encode, decode, opField_formatC, rsvField_formatC, kindField_formatC] using
      toNat_nbitsField_formatC (n := n) 2 k.bits hn
  | encode n k =>
    simpa [encode, decode, opField_formatC, rsvField_formatC, kindField_formatC] using
      toNat_nbitsField_formatC (n := n) 3 k.bits hn
  | decode n k =>
    simpa [encode, decode, opField_formatC, rsvField_formatC, kindField_formatC] using
      toNat_nbitsField_formatC (n := n) 4 k.bits hn

/-- The decoder reads NBITS from a 4-bit field, so the command it names is well-formed (30_encoding.md R92). -/
theorem wellFormed_of_decode {w : Word} {i : Instr} (h : decode w = .ok i) : i.wellFormed = true := by
  rw [i.wellFormed_iff, (operands_of_decode h).1]
  exact (nbitsField w).isLt

/-- Settles O2: the operands come from the word's fields, and with RSV 0 those fields make the word again
(`encode_of_decode`). -/
theorem encodeOfDecodeIsTheWord : Obligations.EncodeOfDecodeIsTheWord :=
  fun _ _ h => ⟨wellFormed_of_decode h, encode_of_decode h⟩

end Sys2Proof
end
